-- ==== Sys2Proof/Word.lean ====
section
/-! DEFINITION. The word type of the block: every count, cursor and wire character is a byte (R8, R20). -/

namespace Sys2Proof

/-- A `u8` of the spec: an unsigned byte, stores into it keep the value modulo 256 (R8, R9). -/
abbrev Byte := BitVec 8

end Sys2Proof
end

