-- ==== Sys2Proof/Config.lean ====
section
/-! DEFINITION. The constants of 00_scope.md R7, and the parameters and choices the spec leaves open.
An open one is an `opaque` constant: nothing in Lean can tell its value, so a claim holds for every value. -/

namespace Sys2Proof

/-- `TICK_FREE_RUNNING` (R7, D4, U8): whether a TICK with the sampler disarmed counts and wakes the main loop.
OPEN in the spec; left without a value (log 9). -/
opaque Config.tickFreeRunning : Bool

/-- `UART_RX_DEPTH` (R7, R87): the capacity of `uart_rx_q`, `none` for unbounded. OPEN in the spec (log 10). -/
opaque Config.uartRxDepth : Option Nat

/-- What the n-th UART_RX event on a full queue does (R87, U7): `true` drops the new byte, `false` overwrites the
oldest. The spec forbids to rely on either: a free value (log 10). -/
opaque Config.overflowDropsNew : Nat → Bool

/-- `RX_TIMEOUT` (R7, R270): ticks of inactivity after which a command is abandoned. -/
def Config.rxTimeout : Nat := 1000

/-- `RING_SLOTS` (R7, R20). -/
def Config.ringSlots : Nat := 256

/-- `SPIKE_MIN` (R7, R143): a slot is kept when one of its counts exceeds this. -/
def Config.spikeMin : Nat := 20

/-- `SYNC_LEN` (R7, R199), as the 4-bit value `sync_len` reaches. -/
def Config.syncLen : BitVec 4 := 8

/-- `SYNC_TOL` (R7, R198, R211). -/
def Config.syncTol : Nat := 8

/-- `SYNC_MIN_D` (R7, R198). -/
def Config.syncMinD : Nat := 0x20

/-- `NORM_MIN_D` (R7, R197), strict. -/
def Config.normMinD : Nat := 0x70

/-- `OOK_MIN_SD` (R7, R199), strict. -/
def Config.ookMinSd : Nat := 0x80

/-- `MAN_MIN_HITS` (R7, R199), strict. -/
def Config.manMinHits : Nat := 4

/-- `LOCK_ASK` (R7, R211). -/
def Config.lockAsk : Nat := 20

/-- `LOCK_OOK` (R7, R221). -/
def Config.lockOok : Nat := 20

/-- `LOCK_MAN` (R7, R232). -/
def Config.lockMan : Nat := 32

/-- `MAN_GUARD` (R7, R235). -/
def Config.manGuard : Nat := 0xd0

/-- `CK_SEED` (R7, R199, R277). -/
def Config.ckSeed : Byte := 0x55

/-- `SD_SEED_A` (R7, R277). -/
def Config.sdSeedA : Byte := 0x63

/-- `SD_SEED_M` (R7, R277). -/
def Config.sdSeedM : Byte := 0x40

/-- `TX_MIN_END` (R7, R291), decimal 16. -/
def Config.txMinEnd : Nat := 16

/-- `TX_REPEATS` (R7, R292). -/
def Config.txRepeats : Nat := 3

end Sys2Proof
end

