-- ==== Sys2Proof/Syntax.lean ====
section
/-! DEFINITION. The operations of the block (R5): one constructor of `Instr` per row of spec/opcode_table.json,
the words they are written in, and the reasons the decoder rejects a word. -/

namespace Sys2Proof

/-- The type letter of an inbound M-line, `cp_type` (R50, R111). -/
inductive MType where
  /-- `'A'`: ASK synthesis. -/
  | a
  /-- `'M'`: Manchester, payload reserved. -/
  | m
  /-- `'P'`: raw pulses. -/
  | p
deriving DecidableEq, Repr

/-- A pair of wire characters that stand for one byte, high digit first (R103, R113). -/
abbrev DigitPair := Byte × Byte

/-- The word an operation is written in. The table has three kinds of encoding and two of its selectors are state that
no bit of the word shows, so they stand beside the bits (log 7). -/
inductive OpWord where
  /-- A bit pattern of R119 (`len` bits, the first written the most significant): events, dispatch targets, procedures.
  `pending` is R175's selector: a byte is queued. -/
  | code (pending : Bool) (len bits : Nat)
  /-- Bytes of an inbound line, first byte first (R110 to R113). `t` is the parser's `cp_type`, which alone tells the three
  payload rows apart. -/
  | rx (t : MType) (bytes : List Byte)
  /-- Bytes of an outbound record, first byte first (R104). -/
  | tx (bytes : List Byte)
deriving DecidableEq, Repr

/-- Why the decoder rejects a word. -/
inductive Reject where
  /-- No row of R119 has this pattern of bits. -/
  | unknownCode
  /-- The bytes are no single inbound operation of R110 to R113. -/
  | notOneToken
  /-- A payload token holds a character that is no hex digit, or an odd number of digits (R74, R113). -/
  | badPayload
  /-- The bytes are no outbound record of R104. -/
  | notARecord
deriving DecidableEq, Repr

/-- The operations, one constructor per row of spec/opcode_table.json, in the table's order. -/
inductive Instr where
  /-- RESET (R350). -/
  | reset
  /-- TICK.sampler (R145, R171). -/
  | tickSampler (level : Bool)
  /-- TICK.txdriver (R155, R171). -/
  | tickTxdriver (level : Bool)
  /-- TICK.unarmed (R171). -/
  | tickUnarmed (level : Bool)
  /-- UART_RX (R172). -/
  | uartRx (b : Byte)
  /-- DISPATCH (R173). -/
  | dispatch
  /-- DISPATCH.sync_search (R202). -/
  | dispatchSyncSearch
  /-- DISPATCH.decode_ask (R216). -/
  | dispatchDecodeAsk
  /-- DISPATCH.decode_ook (R226). -/
  | dispatchDecodeOok
  /-- DISPATCH.decode_manchester (R239). -/
  | dispatchDecodeManchester
  /-- DISPATCH.decode_pulses (R248). -/
  | dispatchDecodePulses
  /-- DISPATCH.trailer (R254). -/
  | dispatchTrailer
  /-- DISPATCH.receive_command (R267). -/
  | dispatchReceiveCommand
  /-- DISPATCH.cancel (R175); `sss` is the `running_state` code of R120 in the selector. -/
  | dispatchCancel (sss : BitVec 3)
  /-- enable_receiver (R160). -/
  | enableReceiver
  /-- enable_transmitter (R161). -/
  | enableTransmitter
  /-- disable_transceiver (R162). -/
  | disableTransceiver
  /-- MA (R277). -/
  | ma
  /-- MM (R277). -/
  | mm
  /-- MP (R277). -/
  | mp
  /-- PAYLOAD.A (R283). -/
  | payloadA (pairs : List DigitPair)
  /-- PAYLOAD.M (R284). -/
  | payloadM (pairs : List DigitPair)
  /-- PAYLOAD.P (R285). -/
  | payloadP (pairs : List DigitPair)
  /-- SYNCDUR (R287): the two characters after `!`. -/
  | syncdur (h l : Byte)
  /-- BITCOUNT (R288): the two characters after `#`. -/
  | bitcount (h l : Byte)
  /-- CHECK (R289): the two characters after `*`. -/
  | check (h l : Byte)
  /-- EOL (R300). -/
  | eol
  /-- PULSE (R294). -/
  | pulse
  /-- DEMOD (R295). -/
  | demod
  /-- STACK (R296). -/
  | stack
  /-- UNEXPECTED (R297): a byte that the phase does not accept. -/
  | unexpected (c : Byte)
  /-- OUT.MA (R213). -/
  | outMa
  /-- OUT.MO (R223). -/
  | outMo
  /-- OUT.MM (R234). -/
  | outMm
  /-- OUT.MP (R245). -/
  | outMp
  /-- OUT.BYTE (R251). -/
  | outByte (v : Byte)
  /-- OUT.PULSE (R246): the high count, then the low count. -/
  | outPulse (p1 p0 : Byte)
  /-- OUT.TRAILER (R254): the bit count, the duration and the checksum as printed. -/
  | outTrailer (n d c : Byte)
  /-- OUT.OK (R300). -/
  | outOk
  /-- OUT.ERRBYTE (R297): the offending byte. -/
  | outErrbyte (c : Byte)
  /-- OUT.ERRSUM (R290). -/
  | outErrsum
deriving DecidableEq, Repr

end Sys2Proof
end

