-- ==== Sys2Proof/Machine/Operands.lean ====
section
/-! DEFINITION. Operand forms: the characters of the wire, hex digits in both directions, and the assembly of a byte from
two digits (R8, R10, R103, R113). -/

namespace Sys2Proof.Machine

/-- `'\n'` (R8, G1). -/
def chNl : Byte := 0x0A
/-- `'!'`. -/
def chBang : Byte := 0x21
/-- `'#'`. -/
def chHash : Byte := 0x23
/-- `'*'`. -/
def chStar : Byte := 0x2A
/-- `':'`. -/
def chColon : Byte := 0x3A
/-- `'A'`. -/
def chA : Byte := 0x41
/-- `'D'`. -/
def chD : Byte := 0x44
/-- `'K'`. -/
def chK : Byte := 0x4B
/-- `'M'`. -/
def chM : Byte := 0x4D
/-- `'O'`. -/
def chO : Byte := 0x4F
/-- `'P'`. -/
def chP : Byte := 0x50
/-- `'S'`. -/
def chS : Byte := 0x53

/-- `hexdigit(n)`: the n-th character of `0123456789ABCDEF` (R10). -/
def hexdigit (n : BitVec 4) : Byte :=
  BitVec.ofNat 8 (if n.toNat < 10 then 48 + n.toNat else 55 + n.toNat)

/-- `hexval(c)`: the value of a hex digit of either letter case, `none` for any other byte (R10). -/
def hexval (c : Byte) : Option (BitVec 4) :=
  if 48 ≤ c.toNat ∧ c.toNat ≤ 57 then some (BitVec.ofNat 4 (c.toNat - 48))
  else if 65 ≤ c.toNat ∧ c.toNat ≤ 70 then some (BitVec.ofNat 4 (c.toNat - 55))
  else if 97 ≤ c.toNat ∧ c.toNat ≤ 102 then some (BitVec.ofNat 4 (c.toNat - 87))
  else none

/-- Whether a character is a hex digit (R102). -/
def isHex (c : Byte) : Bool := (hexval c).isSome

/-- `hexval` of an emitted digit: upper case only (R103). -/
def hexvalUpper (c : Byte) : Option (BitVec 4) :=
  if c.toNat ≤ 70 then hexval c else none

/-- The byte `16 * h + l` of two nibbles (R113). -/
def joinNibbles (h l : BitVec 4) : Byte := BitVec.ofNat 8 (16 * h.toNat + l.toNat)

/-- `hex2(v)`: two characters, high nibble first (R10, R103). -/
def hex2 (v : Byte) : List Byte :=
  [hexdigit (BitVec.ofNat 4 (v.toNat / 16)), hexdigit (BitVec.ofNat 4 (v.toNat % 16))]

/-- The byte a pair of digit characters denotes, if both are hex digits (R113). -/
def pairValue (p : DigitPair) : Option Byte :=
  match hexval p.1, hexval p.2 with
  | some h, some l => some (joinNibbles h l)
  | _, _ => none

/-- The byte two emitted (upper-case) digits denote (R103). -/
def pairValueUpper (h l : Byte) : Option Byte :=
  match hexvalUpper h, hexvalUpper l with
  | some x, some y => some (joinNibbles x y)
  | _, _ => none

/-- The characters of a payload's pairs, in order (R113). -/
def pairBytes : List DigitPair → List Byte
  | [] => []
  | (h, l) :: rest => h :: l :: pairBytes rest

/-- The inverse of `pairBytes` on whole pairs of hex digits (R113). -/
def parsePairs : List Byte → Option (List DigitPair)
  | [] => some []
  | [_] => none
  | h :: l :: rest =>
    if isHex h && isHex l then (parsePairs rest).map ((h, l) :: ·) else none

end Sys2Proof.Machine
end

