-- ==== Sys2Proof/Machine/State.lean ====
section
/-! DEFINITION. The state of the block (10_state.md): plain data, every element of its summary table, and the two elements of
the model's own. The machine right after RESET. -/

namespace Sys2Proof.Machine

/-- The memory of the ring: cells `(address, byte)`, addresses strictly rising, none holding what an unlisted address
reads as (log 13). -/
abbrev Memory := List Host.Cell

/-- `mode`, the transceiver mode (R26), in the order of R120. -/
inductive Mode where
  | idle
  | receiving
  | startTransmit
  | transmitting
deriving DecidableEq, Repr

/-- `running_state` (R32), in the order of R120. -/
inductive RunningState where
  | syncSearch
  | decodingAsk
  | decodingOok
  | decodingManchester
  | decodeRawPulses
  | decodeDone
  | receivingCommand
deriving DecidableEq, Repr

/-- `ss_phase`, the searcher's resume point (R38). -/
inductive SsPhase where
  | restart
  | search
  | awaitDecoder
deriving DecidableEq, Repr

/-- `ss_choice`, the modulation last chosen (R38). -/
inductive SsChoice where
  | ask
  | ook
  | man
  | raw
deriving DecidableEq, Repr

/-- `msg_type` (R42). -/
inductive MsgType where
  | a
  | m
  | p
  | o
deriving DecidableEq, Repr

/-- `dec_phase`, the decoders' resume point (R44). -/
inductive DecPhase where
  | idle
  | lockIn
  | emit
deriving DecidableEq, Repr

/-- `cp_phase`, the parser's resume point (R50, R266). -/
inductive CpPhase where
  | entry
  | start
  | mType
  | token
  | payHi
  | payLo
  | argHi
  | argLo
  | kw
  | flush
  | txStart
  | txWait
deriving DecidableEq, Repr

/-- `cp_k`, the argument token being read (R50). -/
inductive ArgToken where
  /-- `!` -/
  | bang
  /-- `#` -/
  | hash
  /-- `*` -/
  | star
deriving DecidableEq, Repr

/-- `cp_kw`, the keyword being matched (R50). -/
inductive Keyword where
  | pulse
  | demod
  | stack
deriving DecidableEq, Repr

/-- The state of the block. A `bit` of the spec is a `Bool`, an n-bit element a `BitVec n`. -/
structure State where
  /-- `ring` (R20, R70). -/
  ring : Memory
  /-- `current` (R21). -/
  current : Byte
  /-- `msg_start` (R22). -/
  msgStart : Byte
  /-- `msg_end` (R23). -/
  msgEnd : Byte
  /-- `tickcount` (R24). -/
  tickcount : BitVec 16
  /-- `prev_level` (R25). -/
  prevLevel : Bool
  /-- `mode` (R26). -/
  mode : Mode
  /-- `ocie_a` (R27). -/
  ocieA : Bool
  /-- `ocie_b` (R27). -/
  ocieB : Bool
  /-- `antenna`, an output pin (R28, R334). -/
  antenna : Bool
  /-- `tx_pin`, an output pin (R29, R333). -/
  txPin : Bool
  /-- `tx_rem[0]` (R31). -/
  txRemLow : Byte
  /-- `tx_rem[1]` (R31). -/
  txRemHigh : Byte
  /-- `tx_bit` (R31). -/
  txBit : Bool
  /-- `running_state` (R32). -/
  runningState : RunningState
  /-- `sync_duration` (R33). -/
  syncDuration : Byte
  /-- `sync_len` (R34). -/
  syncLen : BitVec 4
  /-- `manchester_hits` (R35). -/
  manchesterHits : BitVec 4
  /-- `sync_start` (R36). -/
  syncStart : Byte
  /-- `ss_pi` (R37). -/
  ssPi : Byte
  /-- `ss_phase` (R38). -/
  ssPhase : SsPhase
  /-- `ss_choice` (R38). -/
  ssChoice : SsChoice
  /-- `ss_retried` (R38). -/
  ssRetried : Bool
  /-- `byte_accumulator` (R39). -/
  byteAccumulator : Byte
  /-- `bit_count` (R40). -/
  bitCount : Byte
  /-- `checksum` (R41). -/
  checksum : Byte
  /-- `msg_type` (R42). -/
  msgType : MsgType
  /-- `decoded` (R43). -/
  decoded : Bool
  /-- `dec_phase` (R44). -/
  decPhase : DecPhase
  /-- `dec_pi` (R44). -/
  decPi : Byte
  /-- `dec_n` (R44). -/
  decN : BitVec 6
  /-- `m_phase` (R45). -/
  mPhase : Bool
  /-- `m_bit` (R45). -/
  mBit : Bool
  /-- `demi_clock` (R45). -/
  demiClock : Byte
  /-- `stuff_clock` (R45). -/
  stuffClock : Byte
  /-- `display_pulses` (R46). -/
  displayPulses : Bool
  /-- `stack_req`, an output (R47). -/
  stackReq : Bool
  /-- `wake` (R51). -/
  wake : Bool
  /-- `uart_rx_q`, oldest byte first (R48). -/
  uartRxQ : List Byte
  /-- `uart_tx`, the output stream, first byte emitted first (R49). -/
  uartTx : List Byte
  /-- `cp_phase` (R50). -/
  cpPhase : CpPhase
  /-- `cp_type` (R50). -/
  cpType : MType
  /-- `cp_wr` (R50). -/
  cpWr : Byte
  /-- `cp_hold` (R50). -/
  cpHold : BitVec 4
  /-- `cp_phold`: a byte and its valid bit (R50). -/
  cpPhold : Option Byte
  /-- `cp_k` (R50). -/
  cpK : ArgToken
  /-- `cp_kw` (R50). -/
  cpKw : Keyword
  /-- `cp_ki` (R50). -/
  cpKi : BitVec 3
  /-- `cp_t0` (R50). -/
  cpT0 : BitVec 16
  /-- `cp_rep` (R50). -/
  cpRep : BitVec 2
  /-- The MODEL's own: the operations the environment has pending, next first (R6 agent 5, R180; log 1). -/
  script : List OpWord
  /-- The MODEL's own: the index of the next free choice (R87, U7; log 10). -/
  freeIx : Nat
deriving DecidableEq, Repr

/-- The faults of the machine: none. Every index of the ring is valid (R71), no access is refused (R323), and every error kind of
R311 has a response after which the machine goes on (log 16). -/
inductive Fault where
deriving DecidableEq, Repr

/-- The reasons a step is refused. -/
inductive Refusal where
  /-- Raised by an arm of `exec` that has no meaning yet. No arm has this now. Safe: nothing runs. -/
  | notModelled (mnemonic : String)
  /-- Raised by `step` when the next word of `script` is no operation of the table. The environment has no such event (R11).
  Safe: nothing runs. -/
  | undecodable (reason : Reject)
deriving DecidableEq, Repr

/-- The machine right after RESET: the table of 10_state.md section 11, then boot's `enable_receiver` (R350, R352). -/
def State.reset : State where
  ring := []
  current := 0
  msgStart := 0
  msgEnd := 0
  tickcount := 0
  prevLevel := false
  mode := .receiving
  ocieA := true
  ocieB := false
  antenna := false
  txPin := false
  txRemLow := 0
  txRemHigh := 0
  txBit := false
  runningState := .syncSearch
  syncDuration := 0
  syncLen := 0
  manchesterHits := 0
  syncStart := 0
  ssPi := 0
  ssPhase := .restart
  ssChoice := .ask
  ssRetried := false
  byteAccumulator := 0
  bitCount := 0
  checksum := 0
  msgType := .a
  decoded := false
  decPhase := .idle
  decPi := 0
  decN := 0
  mPhase := false
  mBit := false
  demiClock := 0
  stuffClock := 0
  displayPulses := false
  stackReq := false
  wake := true
  uartRxQ := []
  uartTx := []
  cpPhase := .entry
  cpType := .a
  cpWr := 0
  cpHold := 0
  cpPhold := none
  cpK := .bang
  cpKw := .pulse
  cpKi := 0
  cpT0 := 0
  cpRep := 0
  script := []
  freeIx := 0

end Sys2Proof.Machine
end

