-- ==== Sys2Proof/Machine/Ops.lean ====
section
/-! DEFINITION. The shared operations: cursors, the pulse ring, the serial queues, the transceiver procedures, the responses to
the error kinds (the block's exceptions, R311) and the parser's exit path (the return from one, R299). -/

namespace Sys2Proof.Machine

/-! ## Cursors and counts (R10) -/

/-- `inc8(c)` (R10). -/
def inc8 (c : Byte) : Byte := BitVec.ofNat 8 (c.toNat + 1)

/-- `ovf_sub(a, b)`, the distance from cursor `a` to cursor `b` (R10, R79). -/
def ovfSub (a b : Byte) : Byte := b - a

/-- `sat_inc(v)` (R10, R142). -/
def satInc (v : Byte) : Byte := if v.toNat < 255 then BitVec.ofNat 8 (v.toNat + 1) else 255

/-- `absdiff(x, y)` (R10). -/
def absdiff (x y : Nat) : Nat := (x - y) + (y - x)

/-! ## Memory: the ring (R70, R71) -/

/-- The byte at an address; an unlisted address holds 0, the reset value of every slot (R20). -/
def Memory.read : Memory → Nat → Byte
  | [], _ => 0
  | (k, w) :: rest, a => if k = a then w else Memory.read rest a

/-- Store a byte and keep the canonical form. -/
def Memory.write : Memory → Nat → Byte → Memory
  | [], a, v => if v = 0 then [] else [(a, v)]
  | (k, w) :: rest, a, v =>
    if a < k then (if v = 0 then (k, w) :: rest else (a, v) :: (k, w) :: rest)
    else if a = k then (if v = 0 then rest else (a, v) :: rest)
    else (k, w) :: Memory.write rest a v

/-- Every address from `lo` on, strictly rising, inside the ring's 512 bytes, and no cell holds 0. -/
def Memory.wfFrom : Nat → Memory → Bool
  | _, [] => true
  | lo, (k, w) :: rest =>
    decide (lo ≤ k) && decide (k < 2 * Config.ringSlots) && decide (w ≠ 0) && Memory.wfFrom (k + 1) rest

/-- The canonical form of the ring's memory. -/
def Memory.wf (m : Memory) : Bool := Memory.wfFrom 0 m

/-- The address of component `c` (0 low, 1 high) of slot `i` (R70, R72; log 13). -/
def ringAddr (i : Byte) (c : Bool) : Nat := 2 * i.toNat + (if c then 1 else 0)

/-- `ring[i][c]` (R71). -/
def ringRead (s : State) (i : Byte) (c : Bool) : Byte := Memory.read s.ring (ringAddr i c)

/-- `ring[i][c] <- v` (R71). -/
def ringWrite (s : State) (i : Byte) (c : Bool) (v : Byte) : State :=
  { s with ring := Memory.write s.ring (ringAddr i c) v }

/-- `ring[i] <- (l, h)`: component 0, then component 1 (R71). -/
def ringWriteSlot (s : State) (i l h : Byte) : State :=
  ringWrite (ringWrite s i false l) i true h

/-! ## The serial queues (R48, R49, R87, R88) -/

/-- `Emit(str)` (R250): append to the output stream, at once (R88). -/
def emit (str : List Byte) (s : State) : State := { s with uartTx := s.uartTx ++ str }

/-- `RxAvail()` (R12). -/
def rxAvail (s : State) : Bool := !s.uartRxQ.isEmpty

/-- Whether a queue of `n` bytes is full at a given depth (R87). -/
def queueFull (depth : Option Nat) (n : Nat) : Bool :=
  match depth with
  | none => false
  | some d => decide (d ≤ n)

/-- Append a received byte (R172). On a full queue either the byte is dropped or the oldest is overwritten, by the next free
choice (R87, U7; log 10). -/
def uartRxAppend (depth : Option Nat) (choice : Nat → Bool) (b : Byte) (s : State) : State :=
  if queueFull depth s.uartRxQ.length then
    { s with
      uartRxQ := if choice s.freeIx then s.uartRxQ else (s.uartRxQ ++ [b]).drop 1
      freeIx := s.freeIx + 1 }
  else { s with uartRxQ := s.uartRxQ ++ [b] }

/-! ## The transceiver procedures (R160 to R162) -/

/-- `enable_receiver()` (R160). -/
def enableReceiver (s : State) : State :=
  { s with ocieA := true, ocieB := false, antenna := false, mode := .receiving }

/-- `enable_transmitter()` (R161). -/
def enableTransmitter (s : State) : State :=
  { s with ocieA := false, ocieB := true, antenna := true, mode := .startTransmit }

/-- `disable_transceiver()` (R162). -/
def disableTransceiver (s : State) : State :=
  { s with ocieA := false, ocieB := false, antenna := false, mode := .idle }

/-! ## The responses to the error kinds, and the parser's exit path (R310 to R317) -/

/-- The exit path: the parser's return to sync search (R299). -/
def exitPath (s : State) : State :=
  { enableReceiver s with
    byteAccumulator := 0
    bitCount := 0
    checksum := 0
    current := 0
    msgStart := 0
    msgEnd := 0
    runningState := .syncSearch
    ssPhase := .restart
    cpPhase := .entry }

/-- E1, lock-in failure: no emission, `msg_start` one past the failing pulse (R312, R212, R222, R233). -/
def raiseLockInFailure (s : State) : State :=
  { s with
    decoded := false
    msgStart := inc8 s.decPi
    decPhase := .idle
    runningState := .syncSearch }

/-- E2, checksum mismatch: `!*\n`, then flush the line (R314, R290). -/
def raiseChecksumMismatch (s : State) : State :=
  { emit [chBang, chStar, chNl] s with cpPhase := .flush }

/-- E3, unexpected byte `c`: `!c\n`, then flush the line, or leave at once when `c` ended it (R313, R297). -/
def raiseUnexpectedByte (c : Byte) (s : State) : State :=
  if c = chNl then exitPath (emit [chBang, c, chNl] s) else { emit [chBang, c, chNl] s with cpPhase := .flush }

/-- E4, idle timeout: the exit path and no emission (R315, R270). -/
def raiseIdleTimeout (s : State) : State := exitPath s

end Sys2Proof.Machine
end

