-- ==== Sys2Proof/Machine/Flags.lean ====
section
/-! DEFINITION. The conditions the rules test and the values they fold: the searcher's normalization, acceptance test and
estimate, the decoders' validity tests, the checksum. All arithmetic is exact (R9). -/

namespace Sys2Proof.Machine

/-- Shape normalization of a long pulse, on local copies (R197, R191). -/
def normalize (p0 p1 sd : Nat) : Nat × Nat :=
  let d := p0 + p1
  if Config.normMinD < d then
    let t := d / 8
    if absdiff (p0 / 2) p1 < t then (p0 / 2, p1)
    else if absdiff (p1 / 2) p0 < t then (p0, p1 / 2)
    else if absdiff (d / 2) sd < t then (p0 / 2, p1 / 2)
    else (p0, p1)
  else (p0, p1)

/-- The acceptance test of a cycle `d` (R198). -/
def accepts (d sd : Nat) : Bool :=
  decide (Config.syncMinD ≤ d ∧ absdiff d sd ≤ Config.syncTol)

/-- The near-equal halves test of R196. -/
def equalHalves (p0 p1 : Nat) : Bool := decide (absdiff p1 p0 < (p0 + p1) / 8)

/-- The adaptive update of `sync_duration`: half the difference, rounded toward zero (R196, R9). -/
def updateEstimate (d sd : Nat) : Byte :=
  BitVec.ofInt 8 ((sd : Int) + Int.tdiv ((d : Int) - (sd : Int)) 2)

/-- The ASK decoder's test of a pulse (R211). -/
def askValid (sd p0 p1 : Byte) : Bool :=
  decide (absdiff (p0.toNat + p1.toNat) sd.toNat ≤ Config.syncTol)

/-- `near(x, y)` of the OOK decoder: within an eighth of `sync_duration`, inclusive (R220). -/
def ookNear (sd : Byte) (x y : Nat) : Bool := decide (absdiff x y ≤ sd.toNat / 8)

/-- The OOK decoder's test of a pulse (R221). -/
def ookValid (sd p0 p1 : Byte) : Bool :=
  ookNear sd p0.toNat sd.toNat || ookNear sd p0.toNat (sd.toNat / 2) ||
  ookNear sd p1.toNat sd.toNat || ookNear sd p1.toNat (sd.toNat / 2)

/-- A full-clock half-pulse: within a quarter of `sync_duration`, strict (R230, R236). -/
def manFull (sd x : Byte) : Bool := decide (absdiff x.toNat sd.toNat < sd.toNat / 4)

/-- A plausible half-pulse: half-clock or full-clock (R231). -/
def manPlausible (sd x : Byte) : Bool :=
  decide (absdiff x.toNat (sd.toNat / 2) < sd.toNat / 4) || manFull sd x

/-- The Manchester decoder's test of a pulse (R231). -/
def manValid (sd p0 p1 : Byte) : Bool := manPlausible sd p0 && manPlausible sd p1

/-- The spike filter: a slot is kept when a count exceeds 20 (R143). -/
def slotAccepted (low high : Byte) : Bool :=
  decide (Config.spikeMin < low.toNat ∨ Config.spikeMin < high.toNat)

/-- Fold a byte into the additive checksum (R108, R251, R282). -/
def foldChecksum (v : Byte) (s : State) : State :=
  { s with checksum := BitVec.ofNat 8 (s.checksum.toNat + v.toNat) }

/-- The low and high counts of a synthesized bit: `q` and `L` of R114, R283. -/
def bitPulse (sd : Byte) (b : Bool) : Byte × Byte :=
  let q := sd.toNat / 4
  let l := sd.toNat - q
  if b then (BitVec.ofNat 8 q, BitVec.ofNat 8 l) else (BitVec.ofNat 8 l, BitVec.ofNat 8 q)

/-- Whether the parser has waited `RX_TIMEOUT` ticks (R270). -/
def timedOut (s : State) : Bool := decide (Config.rxTimeout ≤ (s.tickcount - s.cpT0).toNat)

/-- Whether `running_state` is one of the four decoding states (R175). -/
def isDecoding : RunningState → Bool
  | .syncSearch => false
  | .decodingAsk => true
  | .decodingOok => true
  | .decodingManchester => true
  | .decodeRawPulses => true
  | .decodeDone => false
  | .receivingCommand => false

/-- The code of `running_state` (R120). -/
def runningCode : RunningState → BitVec 3
  | .syncSearch => 0
  | .decodingAsk => 1
  | .decodingOok => 2
  | .decodingManchester => 3
  | .decodeRawPulses => 4
  | .decodeDone => 5
  | .receivingCommand => 6

/-- The code of `mode` (R120). -/
def modeCode : Mode → BitVec 2
  | .idle => 0
  | .receiving => 1
  | .startTransmit => 2
  | .transmitting => 3

/-- The letter of `msg_type` (R42). -/
def msgTypeLetter : MsgType → Byte
  | .a => chA
  | .m => chM
  | .p => chP
  | .o => chO

end Sys2Proof.Machine
end

