-- ==== Sys2Proof/Machine/Command.lean ====
section
/-! DEFINITION. The command parser and transmit trigger (C12, 49_command_parser.md). -/

namespace Sys2Proof.Machine

/-! ## Entry and transmit cycles (R268, R292) -/

/-- Entry: disable the transceiver and wait for a line (R268). -/
def cpEnter (s : State) : State :=
  if s.cpPhase = .entry then { disableTransceiver s with cpPhase := .start, cpT0 := s.tickcount } else s

/-- Start a transmit cycle (R292, R267), always through `disable_transceiver` (R166): at a second matching `*` the receiver that
R292 re-enabled is still armed (R302 (c); DEDUCED, log 18). -/
def cpStartCycle (s : State) : State := { enableTransmitter (disableTransceiver s) with cpPhase := .txWait }

/-! ## Header (R271, R277) -/

/-- Begin matching a keyword (R271). -/
def cpBeginKeyword (k : Keyword) (s : State) : State := { s with cpKw := k, cpKi := 1, cpPhase := .kw }

/-- A byte in `Start` (R271). -/
def cpStartByte (c : Byte) (s : State) : State :=
  if c = chM then { s with cpPhase := .mType }
  else if c = chP then cpBeginKeyword .pulse s
  else if c = chD then cpBeginKeyword .demod s
  else if c = chS then cpBeginKeyword .stack s
  else raiseUnexpectedByte c s

/-- What every header does once its letter is accepted (R277). -/
def cpHeader (t : MType) (mt : MsgType) (s : State) : State :=
  { s with
    cpType := t
    msgType := mt
    checksum := Config.ckSeed
    bitCount := 0
    byteAccumulator := 0
    cpWr := 0
    cpPhold := none
    cpPhase := .token }

/-- A byte in `MType` (R277). -/
def cpMTypeByte (c : Byte) (s : State) : State :=
  if c = chA then cpHeader .a .a { s with syncDuration := Config.sdSeedA }
  else if c = chM then cpHeader .m .m { s with syncDuration := Config.sdSeedM }
  else if c = chP then cpHeader .p .p s
  else raiseUnexpectedByte c s

/-! ## Tokens (R278 to R291) -/

/-- Begin an argument token (R278). -/
def cpBeginArg (k : ArgToken) (s : State) : State := { s with cpK := k, cpPhase := .argHi }

/-- Success at the end of a line (R300). -/
def cpEndOfLine (s : State) : State := exitPath (emit [chStar, chO, chK, chNl] s)

/-- A byte in `Token`, or the byte that ends a payload (R278, R280). -/
def cpTokenByte (c : Byte) (s : State) : State :=
  if c = chColon then { s with cpPhase := .payHi }
  else if c = chBang then cpBeginArg .bang s
  else if c = chHash then cpBeginArg .hash s
  else if c = chStar then cpBeginArg .star s
  else if c = chNl then cpEndOfLine s
  else raiseUnexpectedByte c s

/-- Store a pulse at `cp_wr` and step over it (R283, R285). -/
def cpStore (low high : Byte) (s : State) : State :=
  { ringWriteSlot s s.cpWr low high with cpWr := inc8 s.cpWr }

/-- Synthesize one bit (R283). -/
def cpStoreBit (b : Bool) (s : State) : State :=
  cpStore (bitPulse s.syncDuration b).1 (bitPulse s.syncDuration b).2 s

/-- Synthesize the bits `n - 1` down to 0 of a byte (R283). -/
def cpStoreBits (v : Byte) : Nat → State → State
  | 0, s => s
  | n + 1, s => cpStoreBits v n (cpStoreBit (v.getLsbD n) s)

/-- A byte of a type-'P' payload (R285). -/
def cpRawByte (v : Byte) (s : State) : State :=
  match s.cpPhold with
  | none => { s with cpPhold := some v }
  | some p1 => cpStore v p1 { s with cpPhold := none }

/-- A payload byte: folded for every type, then stored as the type says (R282 to R285). -/
def cpPayloadByte (v : Byte) (s : State) : State :=
  match s.cpType with
  | .a => cpStoreBits v 8 (foldChecksum v s)
  | .m => foldChecksum v s
  | .p => cpRawByte v (foldChecksum v s)

/-- The transmit trigger (R291). A range of 16 or less is skipped: E6 (R317). -/
def cpTrigger (s : State) : State :=
  let s' := { ringWriteSlot s s.bitCount 255 0 with msgEnd := inc8 s.bitCount, msgStart := 0 }
  if (inc8 s.bitCount).toNat ≤ Config.txMinEnd then { s' with cpPhase := .token }
  else { s' with cpRep := 0, cpPhase := .txStart }

/-- `!` with its argument (R287). -/
def cpSyncDur (v : Byte) (s : State) : State :=
  { foldChecksum v s with syncDuration := v, cpPhase := .token }

/-- `#` with its argument (R288). -/
def cpBitCount (v : Byte) (s : State) : State :=
  { foldChecksum v s with bitCount := v, cpPhase := .token }

/-- `*` with its argument (R289, R290, R291). -/
def cpCheck (v : Byte) (s : State) : State :=
  if v = s.checksum then cpTrigger s else raiseChecksumMismatch s

/-- An argument token with its argument (R279). -/
def cpArg (v : Byte) (s : State) : State :=
  match s.cpK with
  | .bang => cpSyncDur v s
  | .hash => cpBitCount v s
  | .star => cpCheck v s

/-! ## Keywords (R293 to R296) -/

/-- The bytes of a keyword (R293). -/
def keywordBytes : Keyword → List Byte
  | .pulse => [0x50, 0x55, 0x4C, 0x53, 0x45, 0x0A]
  | .demod => [0x44, 0x45, 0x4D, 0x4F, 0x44, 0x0A]
  | .stack => [0x53, 0x54, 0x41, 0x43, 0x4B, 0x0A]

/-- What a complete keyword does (R294 to R296). -/
def cpKeyword (k : Keyword) (s : State) : State :=
  match k with
  | .pulse => cpEndOfLine { s with displayPulses := true }
  | .demod => cpEndOfLine { s with displayPulses := false }
  | .stack => cpEndOfLine { s with stackReq := true }

/-- A byte in `Kw` (R293). -/
def cpKwByte (c : Byte) (s : State) : State :=
  if (keywordBytes s.cpKw)[s.cpKi.toNat]? = some c then
    if s.cpKi + 1 = 6 then cpKeyword s.cpKw { s with cpKi := 6 } else { s with cpKi := s.cpKi + 1 }
  else raiseUnexpectedByte c s

/-! ## The byte handler (R301) -/

/-- A hex digit in high-nibble position (R279, R280). -/
def cpHighNibble (next : CpPhase) (n : BitVec 4) (s : State) : State := { s with cpHold := n, cpPhase := next }

/-- `handle_byte(c)` (R301). `Entry`, `TxStart` and `TxWait` wait for no byte and are never handed one (R266). -/
def cpHandleByte (c : Byte) (s : State) : State :=
  match s.cpPhase with
  | .entry => s
  | .start => cpStartByte c s
  | .mType => cpMTypeByte c s
  | .token => cpTokenByte c s
  | .payHi =>
    match hexval c with
    | none => cpTokenByte c s
    | some n => cpHighNibble .payLo n s
  | .payLo =>
    match hexval c with
    | none => raiseUnexpectedByte c s
    | some n => { cpPayloadByte (joinNibbles s.cpHold n) s with cpPhase := .payHi }
  | .argHi =>
    match hexval c with
    | none => raiseUnexpectedByte c s
    | some n => cpHighNibble .argLo n s
  | .argLo =>
    match hexval c with
    | none => raiseUnexpectedByte c s
    | some n => cpArg (joinNibbles s.cpHold n) s
  | .kw => cpKwByte c s
  | .flush => if c = chNl then exitPath s else s
  | .txStart => s
  | .txWait => s

/-- Read bytes, oldest first, until none is left, a transmit is about to start, or the line is over; the bytes left unread and
the state (R267, R269). -/
def cpRead : List Byte → State → List Byte × State
  | [], s => ([], s)
  | c :: rest, s =>
    if s.cpPhase = .txStart then (c :: rest, s)
    else
      let t := cpHandleByte c { s with cpT0 := s.tickcount }
      if t.runningState = .receivingCommand then cpRead rest t else (rest, t)

/-- What follows the reading: yield after the exit path, start a transmit, or test for the idle timeout (R267, R270). -/
def cpAfterRead (s : State) : State :=
  if s.runningState = .receivingCommand then
    if s.cpPhase = .txStart then cpStartCycle s
    else if timedOut s then raiseIdleTimeout s
    else s
  else s

/-- Read the queue (R267). -/
def cpReadQueue (s : State) : State :=
  cpAfterRead { (cpRead s.uartRxQ s).2 with uartRxQ := (cpRead s.uartRxQ s).1 }

/-- The end of a transmit cycle: count it, then the next one or back to the line (R292). -/
def cpEndCycle (s : State) : State :=
  let s' := { disableTransceiver s with cpRep := s.cpRep + 1 }
  if (s.cpRep + 1).toNat < Config.txRepeats then cpStartCycle s'
  else cpReadQueue { enableReceiver s' with cpPhase := .token, cpT0 := s.tickcount }

/-- The loop of the parser, from its resume point (R267). -/
def cpRun (s : State) : State :=
  match s.cpPhase with
  | .txStart => cpStartCycle s
  | .txWait => if s.mode = .idle then cpEndCycle s else s
  | .entry => cpReadQueue s
  | .start => cpReadQueue s
  | .mType => cpReadQueue s
  | .token => cpReadQueue s
  | .payHi => cpReadQueue s
  | .payLo => cpReadQueue s
  | .argHi => cpReadQueue s
  | .argLo => cpReadQueue s
  | .kw => cpReadQueue s
  | .flush => cpReadQueue s

/-- `receive_command()` (R267). -/
def receiveCommand (s : State) : State := cpRun (cpEnter s)

/-! ## One operation of the line, read from the wire -/

/-- Whether the parser is the running task and waits for a byte (R266). -/
def cpReading (s : State) : Bool :=
  decide (s.runningState = .receivingCommand ∧ s.cpPhase ≠ .txStart ∧ s.cpPhase ≠ .txWait)

/-- The parser reads `bytes` as its next bytes. Bytes it leaves unread stay at the front of the queue, with no test of
`UART_RX_DEPTH`, so that an operation stepped alone may leave more queued than a finite depth holds (DESIGN CHOICE, log 5); a
transmit that they trigger starts at once (R267). While the parser is not the running task, or is in a transmit cycle, it
reads nothing (R181, R292; log 5). -/
def parserReads (bytes : List Byte) (s : State) : State :=
  if cpReading s then
    let r := cpRead bytes (cpEnter s)
    let t : State := { r.2 with uartRxQ := r.1 ++ r.2.uartRxQ }
    if r.2.runningState = .receivingCommand ∧ r.2.cpPhase = .txStart then cpStartCycle t else t
  else s

end Sys2Proof.Machine
end

