-- ==== Sys2Proof/Machine/Emitter.lean ====
section
/-! DEFINITION. The line emitter (C11, 48_raw_dump_and_line_emitter.md section 2): bytes, bits, the last partial byte, the
trailer. -/

namespace Sys2Proof.Machine

/-- `EmitByte(v)` (R251). -/
def emitByte (v : Byte) (s : State) : State := foldChecksum v (emit (hex2 v) s)

/-- Put bit `b` at position `7 - k` of the byte being assembled (R252). -/
def placeBit (acc : Byte) (k : Nat) (b : Bool) : Byte :=
  acc ||| ((if b then (1 : Byte) else 0) <<< (7 - k))

/-- `StuffBit(b)` (R252). -/
def stuffBit (b : Bool) (s : State) : State :=
  let acc := placeBit s.byteAccumulator (s.bitCount.toNat % 8) b
  if (inc8 s.bitCount).toNat % 8 = 0 then
    emitByte acc { s with byteAccumulator := 0, bitCount := inc8 s.bitCount }
  else { s with byteAccumulator := acc, bitCount := inc8 s.bitCount }

/-- `FlushPartial()` (R253). -/
def flushPartial (s : State) : State :=
  if s.bitCount.toNat % 8 ≠ 0 then
    emitByte s.byteAccumulator { s with byteAccumulator := 0 }
  else s

/-- The string of a trailer (R254, R107). -/
def trailerString (n d c : Byte) : List Byte :=
  chHash :: hex2 n ++ chBang :: hex2 d ++ chStar :: hex2 c ++ [chNl]

/-- `trailer()` (R254). -/
def trailer (s : State) : State :=
  let sum := BitVec.ofNat 8 (s.checksum.toNat + s.bitCount.toNat + s.syncDuration.toNat)
  { emit (trailerString s.bitCount s.syncDuration sum) s with checksum := sum, runningState := .syncSearch }

end Sys2Proof.Machine
end

