-- ==== Sys2Proof/Machine/Decoders.lean ====
section
/-! DEFINITION. The demodulators: ASK (C7, 45), OOK (C8, 46), Manchester (C9, 47) and the raw dumper (C10, 48). What they share is
written once: entry, lock-in, the pulse loop, termination. -/

namespace Sys2Proof.Machine

/-! ## Shared: entry, lock-in, pulse loop (R210 to R215) -/

/-- Entry of a decoder with a lock-in (R210). -/
def decoderEntry (s : State) : State :=
  if s.decPhase = .idle then { s with decPi := s.msgStart, decN := 0, decPhase := .lockIn } else s

/-- What a run of the lock-in loop ends in. -/
inductive LockIn where
  /-- It caught up with the sampler: yield and resume. -/
  | waiting (s : State)
  /-- A pulse failed the test: E1 has been taken. -/
  | failed (s : State)
  /-- Enough consecutive pulses were valid. -/
  | locked (s : State)

/-- The lock-in loop with `need` more valid pulses to see (R211). -/
def lockLoop (valid : Byte → Byte → Bool) : Nat → State → LockIn
  | 0, s => .locked s
  | k + 1, s =>
    if s.decPi = s.current then .waiting s
    else if valid (ringRead s s.decPi false) (ringRead s s.decPi true) then
      lockLoop valid k { s with decN := s.decN + 1, decPi := inc8 s.decPi }
    else .failed (raiseLockInFailure s)

/-- Lock-in: `n` consecutive valid pulses from `msg_start`, of which `dec_n` have been seen (R211, R221, R232). -/
def lockIn (valid : Byte → Byte → Bool) (n : Nat) (s : State) : LockIn :=
  lockLoop valid (n - s.decN.toNat) s

/-- A decoder with a lock-in: entry, lock-in, then `committed` and the emission loop `emission`, or the latter alone when it is
resumed (R216, R226, R239). -/
def withLockIn (valid : Byte → Byte → Byte → Bool) (n : Nat) (committed emission : State → State) (s : State) : State :=
  let s' := decoderEntry s
  match s'.decPhase with
  | .lockIn =>
    match lockIn (valid s'.syncDuration) n s' with
    | .waiting t => t
    | .failed t => t
    | .locked t => emission (committed t)
  | .emit => emission s'
  | .idle => emission s'

/-- Commit: the header of a message type, and back to its first pulse (R213, R223, R245). -/
def commit (t : MsgType) (s : State) : State :=
  { emit [chM, msgTypeLetter t, chColon] s with
    decoded := true
    msgType := t
    decPi := s.msgStart
    decPhase := .emit }

/-- The end of a message: `DecodeDone`, and the searcher resumes at `next` (R215, R225, R238, R247). -/
def decoderEnd (next : Byte) (s : State) : State :=
  { s with msgStart := next, decPhase := .idle, runningState := .decodeDone }

/-- Step over the pulse at `dec_pi`. -/
def decAdvance (s : State) : State := { s with decPi := inc8 s.decPi }

/-- The emission loop of a decoder that works pulse by pulse (R214, R224, R246): `body` handles a pulse, `finish` runs at a
slot with a saturated low count. `fuel` only bounds the recursion (Laws/Reader.lean). -/
def pulseLoop (body : Byte → Byte → State → State) (finish : State → State) (fuel : Nat) (s : State) : State :=
  if s.decPi = s.current then s
  else if ringRead s s.decPi false = 255 then finish s
  else
    match fuel with
    | 0 => s
    | k + 1 =>
      pulseLoop body finish k (decAdvance (body (ringRead s s.decPi false) (ringRead s s.decPi true) s))

/-- Termination on the saturated slot at `dec_pi`, with the last partial byte (R215, R225). -/
def finishBits (s : State) : State := decoderEnd (inc8 s.decPi) (flushPartial s)

/-! ## ASK (R210 to R216) -/

/-- The bit of a pulse (R214). -/
def askPulse (p0 p1 : Byte) (s : State) : State := stuffBit (decide (p0.toNat < p1.toNat)) s

/-- The ASK emission loop (R214, R215). -/
def askEmit (s : State) : State := pulseLoop askPulse finishBits Config.ringSlots s

/-- `decode_ask()` (R216). -/
def decodeAsk (s : State) : State := withLockIn askValid Config.lockAsk (commit .a) askEmit s

/-! ## OOK (R220 to R226) -/

/-- The bits of a pulse: the low component first (R224). -/
def ookPulse (p0 p1 : Byte) (s : State) : State :=
  let sd := s.syncDuration
  let s' := if ookNear sd p0.toNat sd.toNat then stuffBit false s else s
  if ookNear sd p1.toNat sd.toNat then stuffBit true s' else s'

/-- The OOK emission loop (R224, R225). -/
def ookEmit (s : State) : State := pulseLoop ookPulse finishBits Config.ringSlots s

/-- `decode_ook()` (R226). -/
def decodeOok (s : State) : State := withLockIn ookValid Config.lockOok (commit .o) ookEmit s

/-! ## Manchester (R230 to R239) -/

/-- Commit: the header and all four counters cleared (R234). -/
def manCommit (s : State) : State :=
  { commit .m s with mPhase := false, demiClock := 0, stuffClock := 0, mBit := false }

/-- The bit `CatchUp` emits when `stuff_clock` leaves an odd value (R237). -/
def catchUpBit (s : State) : State := if s.stuffClock.toNat % 2 = 1 then stuffBit s.mBit s else s

/-- Advance `stuff_clock` (R237). -/
def stuffAdvance (s : State) : State := { s with stuffClock := inc8 s.stuffClock }

/-- `CatchUp()` (R237). -/
def catchUp (s : State) : State := if s.stuffClock ≠ s.demiClock then stuffAdvance (catchUpBit s) else s

/-- Consume the half-pulse: a full-clock half latches the phase and counts twice (bullets 2 and 3 of R236). -/
def manLatch (h : Byte) (s : State) : State :=
  if manFull s.syncDuration h then
    { s with mBit := s.mPhase, demiClock := inc8 (inc8 s.demiClock) }
  else { s with demiClock := inc8 s.demiClock }

/-- Flip the phase; the next pulse on the transition from 1 to 0 (bullet 4 of R236). -/
def manFlip (s : State) : State :=
  if s.mPhase then { s with mPhase := false, decPi := inc8 s.decPi } else { s with mPhase := true }

/-- The half-pulse step (R236). -/
def manHalf (s : State) : State :=
  let h := ringRead s s.decPi s.mPhase
  manFlip (catchUp (manLatch h (catchUp s)))

/-- The half-pulse loop with its three tests (R235). `fuel` only bounds the recursion (Laws/Reader.lean). -/
def manLoop (fuel : Nat) (s : State) : State :=
  if Config.manGuard ≤ s.bitCount.toNat then decoderEnd s.decPi (flushPartial s)
  else if s.decPi = s.current then s
  else if s.mPhase = false ∧ ringRead s s.decPi false = 255 then finishBits s
  else
    match fuel with
    | 0 => s
    | k + 1 => manLoop k (manHalf s)

/-- The half-pulse loop over everything the ring can hold. -/
def manEmit (s : State) : State := manLoop (2 * Config.ringSlots) s

/-- `decode_manchester()` (R239). -/
def decodeManchester (s : State) : State := withLockIn manValid Config.lockMan manCommit manEmit s

/-! ## The raw dumper (R245 to R248) -/

/-- Print a pulse, high count first, and count it (R246). -/
def rawPulse (p0 p1 : Byte) (s : State) : State :=
  emitByte p0 (emitByte p1 { s with bitCount := inc8 s.bitCount })

/-- Termination of the dump: nothing to flush (R247). -/
def finishRaw (s : State) : State := decoderEnd (inc8 s.decPi) s

/-- `decode_pulses()` (R248). -/
def decodePulses (s : State) : State :=
  pulseLoop rawPulse finishRaw Config.ringSlots (if s.decPhase = .idle then commit .p s else s)

end Sys2Proof.Machine
end

