-- ==== Sys2Proof/Machine/Sampler.lean ====
section
/-! DEFINITION. The pulse sampler (C1, 40_sampler.md) and the transmit driver (C3, 41_transmit_driver.md): the handlers of the two
timer compare interrupts. -/

namespace Sys2Proof.Machine

/-- Count a tick: `tickcount <- (tickcount + 1) mod 65536` (R144, R171). -/
def countTick (s : State) : State :=
  { s with tickcount := BitVec.ofNat 16 (s.tickcount.toNat + 1) }

/-- Step 1 of the sampler: count the sampled level in the open slot (R142). -/
def samplerCount (level : Bool) (s : State) : State :=
  ringWrite s s.current level (satInc (ringRead s s.current level))

/-- Step 2 of the sampler: on a rising edge close the slot or reuse it, and clear the slot now open (R143). -/
def samplerEdge (level : Bool) (s : State) : State :=
  if s.prevLevel = false ∧ level = true then
    let next := if slotAccepted (ringRead s s.current false) (ringRead s s.current true) then inc8 s.current else s.current
    ringWriteSlot { s with current := next } next 0 0
  else s

/-- `sampler(level)` (R145). -/
def sampler (level : Bool) (s : State) : State :=
  { countTick (samplerEdge level (samplerCount level s)) with prevLevel := level }

/-- The step of `StartTransmit`, without the pin (R151). -/
def txStart (s : State) : State :=
  { s with
    current := s.msgStart
    txRemLow := ringRead s s.msgStart false
    txRemHigh := ringRead s s.msgStart true
    txBit := true
    mode := .transmitting }

/-- The 8-bit decrement of a remainder; it wraps (R152, R157). -/
def dec8 (v : Byte) : Byte := v - 1

/-- The end of a low phase: the next slot is loaded, and the replay ends if it is `msg_end` (R152). -/
def txNextSlot (s : State) : State :=
  let next := inc8 s.current
  { s with
    current := next
    txRemLow := ringRead s next false
    txRemHigh := ringRead s next true
    mode := if next = s.msgEnd then .idle else s.mode
    txBit := decide (ringRead s next true ≠ 0) }

/-- The step of `Transmitting`, without the pin (R152). -/
def txCount (s : State) : State :=
  if s.txBit then
    if dec8 s.txRemHigh = 0 then { s with txRemHigh := 0, txBit := false }
    else { s with txRemHigh := dec8 s.txRemHigh }
  else if dec8 s.txRemLow = 0 then txNextSlot s
  else { s with txRemLow := dec8 s.txRemLow }

/-- Drive the pin (R153). -/
def txDrive (s : State) : State := { s with txPin := s.txBit }

/-- `txdriver()` (R155). -/
def txDriver (s : State) : State :=
  match s.mode with
  | .startTransmit => txDrive (txStart s)
  | .transmitting => txDrive (txCount s)
  | .idle => s
  | .receiving => s

end Sys2Proof.Machine
end

