-- ==== Sys2Proof/Machine/SyncSearch.lean ====
section
/-! DEFINITION. The sync searcher and modulation classifier (C6, 44_sync_search.md). -/

namespace Sys2Proof.Machine

/-- Restart: all sync state cleared, resume from `msg_start` (R201). -/
def ssRestart (s : State) : State :=
  { s with
    ssPi := s.msgStart
    syncStart := s.msgStart
    syncDuration := 0
    syncLen := 0
    manchesterHits := 0
    ssPhase := .search }

/-- Command pickup (R193). -/
def ssPickup (s : State) : State :=
  { s with runningState := .receivingCommand, ssPhase := .restart }

/-- The failing branch: the pulse becomes the seed of the next candidate (R195). -/
def ssSeed (d : Nat) (s : State) : State :=
  { s with
    syncStart := s.ssPi
    syncDuration := BitVec.ofNat 8 d
    syncLen := 0
    manchesterHits := 0 }

/-- The successful branch (R196). -/
def ssMatch (p0 p1 : Nat) (s : State) : State :=
  { s with
    manchesterHits := if equalHalves p0 p1 then s.manchesterHits + 1 else s.manchesterHits
    syncDuration := updateEstimate (p0 + p1) s.syncDuration.toNat
    syncLen := s.syncLen + 1 }

/-- Step over the pulse at `ss_pi` (R192). -/
def ssAdvance (s : State) : State := { s with ssPi := inc8 s.ssPi }

/-- The normalized copies of the pulse at `ss_pi` (R194, R197). -/
def ssPulse (s : State) : Nat × Nat :=
  normalize (ringRead s s.ssPi false).toNat (ringRead s s.ssPi true).toNat s.syncDuration.toNat

/-- Examine the pulse at `ss_pi` and step over it (R194 to R198, R192). -/
def ssExamine (s : State) : State :=
  let p := ssPulse s
  let d := p.1 + p.2
  ssAdvance (if accepts d s.syncDuration.toNat then ssMatch p.1 p.2 s else ssSeed d s)

/-- The modulation of a train (R199). -/
def classification (s : State) : SsChoice :=
  if s.displayPulses then .raw
  else if Config.ookMinSd < s.syncDuration.toNat then .ook
  else if Config.manMinHits < s.manchesterHits.toNat then .man
  else .ask

/-- The decoder of a modulation (R199). -/
def decoderOf : SsChoice → RunningState
  | .ask => .decodingAsk
  | .ook => .decodingOok
  | .man => .decodingManchester
  | .raw => .decodeRawPulses

/-- Classification and hand-off (R199). -/
def ssClassify (s : State) : State :=
  { s with
    ssChoice := classification s
    runningState := decoderOf (classification s)
    msgStart := s.syncStart
    checksum := Config.ckSeed
    bitCount := 0
    byteAccumulator := 0
    msgEnd := 0
    decoded := false
    ssRetried := false
    ssPhase := .awaitDecoder }

/-- The pulse loop (R202). `fuel` only bounds the recursion: with at least as much as there are completed slots it never runs
out (Laws/Reader.lean). -/
def ssLoop (fuel : Nat) (s : State) : State :=
  if s.syncLen = 0 ∧ rxAvail s then ssPickup s
  else if s.ssPi = s.current then s
  else
    match fuel with
    | 0 => s
    | k + 1 =>
      if (ssExamine s).syncLen = Config.syncLen then ssClassify (ssExamine s)
      else ssLoop k (ssExamine s)

/-- The condition of the Manchester retry (R200). -/
def retryDue (s : State) : Bool :=
  !s.decoded && decide (s.ssChoice = .ask) && decide (s.manchesterHits ≠ 0) && !s.ssRetried

/-- The Manchester retry (R200). -/
def ssRetry (s : State) : State :=
  { s with ssRetried := true, ssChoice := .man, runningState := .decodingManchester }

/-- `sync_search()` (R202). -/
def syncSearch (s : State) : State :=
  match s.ssPhase with
  | .awaitDecoder => if retryDue s then ssRetry s else ssLoop Config.ringSlots (ssRestart s)
  | .restart => ssLoop Config.ringSlots (ssRestart s)
  | .search => ssLoop Config.ringSlots s

end Sys2Proof.Machine
end

