-- ==== Sys2Proof/Machine/Events.lean ====
section
/-! DEFINITION. The meanings of the events, of the dispatch targets and of the transceiver procedures (43_scheduler.md,
42_transceiver.md, 70_reset_and_hazards.md). -/

namespace Sys2Proof.Machine

/-! ## TICK (R171) -/

/-- Step (1) of TICK: the sampler, or the free-running count (R171). -/
def tickChannelA (free level : Bool) (s : State) : State :=
  if s.ocieA then sampler level s else if free then countTick s else s

/-- Step (2) of TICK: the transmit driver (R171). -/
def tickChannelB (s : State) : State := if s.ocieB then txDriver s else s

/-- `TICK(level)` (R171), `free` being `TICK_FREE_RUNNING`. Which handler runs is read from the enables in the state, never from
the word's selector (R119; log 3). -/
def tickEvent (free level : Bool) (s : State) : State :=
  let t := tickChannelB (tickChannelA free level s)
  { t with wake := s.ocieA || s.ocieB || free || t.wake }

/-- TICK.sampler. -/
def execTickSampler (level : Bool) (s : State) : Host.Outcome State Fault Refusal :=
  .next (tickEvent Config.tickFreeRunning level s)

/-- TICK.txdriver. -/
def execTickTxdriver (level : Bool) (s : State) : Host.Outcome State Fault Refusal :=
  .next (tickEvent Config.tickFreeRunning level s)

/-- TICK.unarmed. -/
def execTickUnarmed (level : Bool) (s : State) : Host.Outcome State Fault Refusal :=
  .next (tickEvent Config.tickFreeRunning level s)

/-! ## RESET and UART_RX (R350, R172) -/

/-- RESET: every element at its reset value, then boot (R350, R352). The trace `uart_tx` starts anew (log 11); the environment's
pending events and the index of free choices are not the block's and stay (log 12). -/
def execReset (s : State) : Host.Outcome State Fault Refusal :=
  .next { State.reset with script := s.script, freeIx := s.freeIx }

/-- `UART_RX(byte)` (R172). -/
def uartRxEvent (depth : Option Nat) (choice : Nat → Bool) (b : Byte) (s : State) : State :=
  { uartRxAppend depth choice b s with wake := true }

/-- UART_RX. -/
def execUartRx (b : Byte) (s : State) : Host.Outcome State Fault Refusal :=
  .next (uartRxEvent Config.uartRxDepth Config.overflowDropsNew b s)

/-! ## DISPATCH (R173 to R175) -/

/-- Whether the main loop cancels a decode: a decoding state and a byte queued (R175). -/
def cancelDue (s : State) : Bool := isDecoding s.runningState && rxAvail s

/-- What a cancellation changes (R175). -/
def cancelDecode (s : State) : State :=
  { disableTransceiver s with
    runningState := .receivingCommand
    decPhase := .idle
    ssPhase := .restart }

/-- Run the task `running_state` names (R173, table). -/
def runTask (s : State) : State :=
  match s.runningState with
  | .syncSearch => syncSearch s
  | .decodingAsk => decodeAsk s
  | .decodingOok => decodeOok s
  | .decodingManchester => decodeManchester s
  | .decodeRawPulses => decodePulses s
  | .decodeDone => trailer s
  | .receivingCommand => receiveCommand s

/-- The cancellation check, then the task (R173 (2) and (3)). -/
def dispatchTask (s : State) : State := runTask (if cancelDue s then cancelDecode s else s)

/-- `DISPATCH` (R173). -/
def dispatchEvent (s : State) : State :=
  if s.wake then dispatchTask { s with wake := false } else s

/-- DISPATCH. -/
def execDispatch (s : State) : Host.Outcome State Fault Refusal := .next (dispatchEvent s)

/-- A dispatch target: its task step if `running_state` names it, else the task is not run (R173, R181; log 4). -/
def taskStep (r : RunningState) (task : State → State) (s : State) : State :=
  if s.runningState = r then task s else s

/-- DISPATCH.sync_search (R202). -/
def execDispatchSyncSearch (s : State) : Host.Outcome State Fault Refusal :=
  .next (taskStep .syncSearch syncSearch s)

/-- DISPATCH.decode_ask (R216). -/
def execDispatchDecodeAsk (s : State) : Host.Outcome State Fault Refusal :=
  .next (taskStep .decodingAsk decodeAsk s)

/-- DISPATCH.decode_ook (R226). -/
def execDispatchDecodeOok (s : State) : Host.Outcome State Fault Refusal :=
  .next (taskStep .decodingOok decodeOok s)

/-- DISPATCH.decode_manchester (R239). -/
def execDispatchDecodeManchester (s : State) : Host.Outcome State Fault Refusal :=
  .next (taskStep .decodingManchester decodeManchester s)

/-- DISPATCH.decode_pulses (R248). -/
def execDispatchDecodePulses (s : State) : Host.Outcome State Fault Refusal :=
  .next (taskStep .decodeRawPulses decodePulses s)

/-- DISPATCH.trailer (R254). -/
def execDispatchTrailer (s : State) : Host.Outcome State Fault Refusal :=
  .next (taskStep .decodeDone trailer s)

/-- DISPATCH.receive_command (R267). -/
def execDispatchReceiveCommand (s : State) : Host.Outcome State Fault Refusal :=
  .next (taskStep .receivingCommand receiveCommand s)

/-- DISPATCH.cancel: the cancellation, then the parser in the same DISPATCH (R175). In a state its selector does not describe no
decode is cancelled (log 4). -/
def execDispatchCancel (sss : BitVec 3) (s : State) : Host.Outcome State Fault Refusal :=
  .next (if runningCode s.runningState = sss ∧ cancelDue s then receiveCommand (cancelDecode s) else s)

/-! ## The transceiver procedures (R160 to R162) -/

/-- enable_receiver (R160). -/
def execEnableReceiver (s : State) : Host.Outcome State Fault Refusal := .next (enableReceiver s)

/-- enable_transmitter (R161). -/
def execEnableTransmitter (s : State) : Host.Outcome State Fault Refusal := .next (enableTransmitter s)

/-- disable_transceiver (R162). -/
def execDisableTransceiver (s : State) : Host.Outcome State Fault Refusal := .next (disableTransceiver s)

end Sys2Proof.Machine
end

