-- ==== Sys2Proof/WellFormed.lean ====
section
/-! DEFINITION. When an operation's operands are ones its row admits, so that its word is its own (R102, R110 to R116). -/

namespace Sys2Proof

/-- Every character of a payload's pairs is a hex digit (R113). -/
def pairsAreHex (pairs : List DigitPair) : Bool :=
  pairs.all (fun p => Machine.isHex p.1 && Machine.isHex p.2)

/-- Well-formedness of an operation. A cancellation's selector names a decoding state (R175, R120); a payload holds whole pairs
of hex digits (R113); the bytes `'\n'` and `':'` alone are the words of EOL and of an empty payload, and the response
`!*\n` is OUT.ERRSUM's, so UNEXPECTED and OUT.ERRBYTE do not claim them (log 7). -/
def Instr.wellFormed : Instr → Bool
  | .reset => true
  | .tickSampler _ => true
  | .tickTxdriver _ => true
  | .tickUnarmed _ => true
  | .uartRx _ => true
  | .dispatch => true
  | .dispatchSyncSearch => true
  | .dispatchDecodeAsk => true
  | .dispatchDecodeOok => true
  | .dispatchDecodeManchester => true
  | .dispatchDecodePulses => true
  | .dispatchTrailer => true
  | .dispatchReceiveCommand => true
  | .dispatchCancel sss => decide (1 ≤ sss.toNat ∧ sss.toNat ≤ 4)
  | .enableReceiver => true
  | .enableTransmitter => true
  | .disableTransceiver => true
  | .ma => true
  | .mm => true
  | .mp => true
  | .payloadA pairs => pairsAreHex pairs
  | .payloadM pairs => pairsAreHex pairs
  | .payloadP pairs => pairsAreHex pairs
  | .syncdur _ _ => true
  | .bitcount _ _ => true
  | .check _ _ => true
  | .eol => true
  | .pulse => true
  | .demod => true
  | .stack => true
  | .unexpected c => decide (c ≠ Machine.chNl ∧ c ≠ Machine.chColon)
  | .outMa => true
  | .outMo => true
  | .outMm => true
  | .outMp => true
  | .outByte _ => true
  | .outPulse _ _ => true
  | .outTrailer _ _ _ => true
  | .outOk => true
  | .outErrbyte c => decide (c ≠ Machine.chStar)
  | .outErrsum => true

end Sys2Proof
end

