-- ==== Sys2Proof/Decode.lean ====
section
/-! DEFINITION. From words to operations and back: R119's bit patterns, R110 to R113's inbound bytes, R104's outbound
records. Total on every word; what is no operation is rejected by name. -/

namespace Sys2Proof

open Machine

/-- The bit patterns of R119 and opcode_table.json that carry at most one operand bit: width, number, operation. -/
def codeTable : List (Nat × Nat × Instr) :=
  [ (4, 0b0000, .reset),
    (7, 0b0001100, .tickSampler false),
    (7, 0b0001101, .tickSampler true),
    (7, 0b0001010, .tickTxdriver false),
    (7, 0b0001011, .tickTxdriver true),
    (7, 0b0001000, .tickUnarmed false),
    (7, 0b0001001, .tickUnarmed true),
    (4, 0b0011, .dispatch),
    (7, 0b0011000, .dispatchSyncSearch),
    (7, 0b0011001, .dispatchDecodeAsk),
    (7, 0b0011010, .dispatchDecodeOok),
    (7, 0b0011011, .dispatchDecodeManchester),
    (7, 0b0011100, .dispatchDecodePulses),
    (7, 0b0011101, .dispatchTrailer),
    (7, 0b0011110, .dispatchReceiveCommand),
    (4, 0b0100, .enableReceiver),
    (4, 0b0101, .enableTransmitter),
    (4, 0b0110, .disableTransceiver) ]

/-- The operation a table of patterns gives a word of `len` bits. -/
def lookupCode (len bits : Nat) : List (Nat × Nat × Instr) → Option Instr
  | [] => none
  | (l, b, i) :: rest => if l = len ∧ b = bits then some i else lookupCode len bits rest

/-- Whether a word is `0011sss` with `sss` a decoding state, the pattern of DISPATCH.cancel (R175, R120). -/
def isCancelWord (len bits : Nat) : Bool :=
  decide (len = 7 ∧ bits / 8 = 0b0011 ∧ 1 ≤ bits % 8 ∧ bits % 8 ≤ 4)

/-- Whether a word is `0010bbbbbbbb`, the pattern of UART_RX (R119). -/
def isUartWord (len bits : Nat) : Bool :=
  decide (len = 12 ∧ bits / 256 = 0b0010)

/-- Decode a bit pattern of R119. `pending` tells a cancellation from the decoding task it cancels (R175). -/
def decodeCode (pending : Bool) (len bits : Nat) : Except Reject Instr :=
  if pending && isCancelWord len bits then .ok (.dispatchCancel (BitVec.ofNat 3 (bits % 8)))
  else if isUartWord len bits then .ok (.uartRx (BitVec.ofNat 8 (bits % 256)))
  else
    match lookupCode len bits codeTable with
    | some i => .ok i
    | none => .error .unknownCode

/-- The payload row the parser's `cp_type` selects (R282). -/
def payloadOf (t : MType) (pairs : List DigitPair) : Instr :=
  match t with
  | .a => .payloadA pairs
  | .m => .payloadM pairs
  | .p => .payloadP pairs

/-- The bytes of the keyword lines (R112). -/
def pulseBytes : List Byte := [0x50, 0x55, 0x4C, 0x53, 0x45, 0x0A]
/-- `DEMOD\n` (R112). -/
def demodBytes : List Byte := [0x44, 0x45, 0x4D, 0x4F, 0x44, 0x0A]
/-- `STACK\n` (R112). -/
def stackBytes : List Byte := [0x53, 0x54, 0x41, 0x43, 0x4B, 0x0A]

/-- Decode three bytes that an introducer other than `':'` begins (R112). -/
def decodeArg (k h l : Byte) : Except Reject Instr :=
  if k = chBang then .ok (.syncdur h l)
  else if k = chHash then .ok (.bitcount h l)
  else if k = chStar then .ok (.check h l)
  else .error .notOneToken

/-- Decode the bytes of one inbound operation (R110 to R113, R116). -/
def decodeRx (t : MType) : List Byte → Except Reject Instr
  | [] => .error .notOneToken
  | c :: rest =>
    if c = chColon then
      match parsePairs rest with
      | some pairs => .ok (payloadOf t pairs)
      | none => .error .badPayload
    else if c :: rest = pulseBytes then .ok .pulse
    else if c :: rest = demodBytes then .ok .demod
    else if c :: rest = stackBytes then .ok .stack
    else
      match rest with
      | [] => if c = chNl then .ok .eol else .ok (.unexpected c)
      | [x] =>
        if c = chM ∧ x = chA then .ok .ma
        else if c = chM ∧ x = chM then .ok .mm
        else if c = chM ∧ x = chP then .ok .mp
        else .error .notOneToken
      | [h, l] => decodeArg c h l
      | _ => .error .notOneToken

/-- Decode the ten bytes of a trailer: `#` n `!` d `*` c newline (R104). -/
def decodeTrailer (b0 n1 n0 b3 d1 d0 b6 c1 c0 b9 : Byte) : Except Reject Instr :=
  if b0 = chHash ∧ b3 = chBang ∧ b6 = chStar ∧ b9 = chNl then
    match pairValueUpper n1 n0, pairValueUpper d1 d0, pairValueUpper c1 c0 with
    | some n, some d, some c => .ok (.outTrailer n d c)
    | _, _, _ => .error .notARecord
  else .error .notARecord

/-- Decode three bytes: a header `M`x`:`, or one of the responses `!*\n` and `!`c`\n` (R104). -/
def decodeTx3 (b0 b1 b2 : Byte) : Except Reject Instr :=
  if b0 = chM ∧ b2 = chColon then
    if b1 = chA then .ok .outMa
    else if b1 = chO then .ok .outMo
    else if b1 = chM then .ok .outMm
    else if b1 = chP then .ok .outMp
    else .error .notARecord
  else if b0 = chBang ∧ b2 = chNl then
    if b1 = chStar then .ok .outErrsum else .ok (.outErrbyte b1)
  else .error .notARecord

/-- Decode four bytes: `*OK\n`, or the four digits of a dumped pulse (R104, R106). -/
def decodeTx4 (b0 b1 b2 b3 : Byte) : Except Reject Instr :=
  if [b0, b1, b2, b3] = [chStar, chO, chK, chNl] then .ok .outOk
  else
    match pairValueUpper b0 b1, pairValueUpper b2 b3 with
    | some p1, some p0 => .ok (.outPulse p1 p0)
    | _, _ => .error .notARecord

/-- Decode the bytes of one outbound record (R104 to R107). -/
def decodeTx : List Byte → Except Reject Instr
  | [h, l] =>
    match pairValueUpper h l with
    | some v => .ok (.outByte v)
    | none => .error .notARecord
  | [b0, b1, b2] => decodeTx3 b0 b1 b2
  | [b0, b1, b2, b3] => decodeTx4 b0 b1 b2 b3
  | [b0, b1, b2, b3, b4, b5, b6, b7, b8, b9] => decodeTrailer b0 b1 b2 b3 b4 b5 b6 b7 b8 b9
  | _ => .error .notARecord

/-- Decode a word. -/
def decode : OpWord → Except Reject Instr
  | .code pending len bits => decodeCode pending len bits
  | .rx t bytes => decodeRx t bytes
  | .tx bytes => decodeTx bytes

/-- The number a bit is written as. -/
def bitNat (b : Bool) : Nat := if b then 1 else 0

/-- The word of an operation, from the encodings of R104, R110 to R115 and R119. -/
def encode : Instr → OpWord
  | .reset => .code false 4 0b0000
  | .tickSampler l => .code false 7 (0b0001100 + bitNat l)
  | .tickTxdriver l => .code false 7 (0b0001010 + bitNat l)
  | .tickUnarmed l => .code false 7 (0b0001000 + bitNat l)
  | .uartRx b => .code false 12 (0b0010 * 256 + b.toNat)
  | .dispatch => .code false 4 0b0011
  | .dispatchSyncSearch => .code false 7 0b0011000
  | .dispatchDecodeAsk => .code false 7 0b0011001
  | .dispatchDecodeOok => .code false 7 0b0011010
  | .dispatchDecodeManchester => .code false 7 0b0011011
  | .dispatchDecodePulses => .code false 7 0b0011100
  | .dispatchTrailer => .code false 7 0b0011101
  | .dispatchReceiveCommand => .code false 7 0b0011110
  | .dispatchCancel sss => .code true 7 (0b0011 * 8 + sss.toNat)
  | .enableReceiver => .code false 4 0b0100
  | .enableTransmitter => .code false 4 0b0101
  | .disableTransceiver => .code false 4 0b0110
  | .ma => .rx .a [chM, chA]
  | .mm => .rx .a [chM, chM]
  | .mp => .rx .a [chM, chP]
  | .payloadA pairs => .rx .a (chColon :: pairBytes pairs)
  | .payloadM pairs => .rx .m (chColon :: pairBytes pairs)
  | .payloadP pairs => .rx .p (chColon :: pairBytes pairs)
  | .syncdur h l => .rx .a [chBang, h, l]
  | .bitcount h l => .rx .a [chHash, h, l]
  | .check h l => .rx .a [chStar, h, l]
  | .eol => .rx .a [chNl]
  | .pulse => .rx .a pulseBytes
  | .demod => .rx .a demodBytes
  | .stack => .rx .a stackBytes
  | .unexpected c => .rx .a [c]
  | .outMa => .tx [chM, chA, chColon]
  | .outMo => .tx [chM, chO, chColon]
  | .outMm => .tx [chM, chM, chColon]
  | .outMp => .tx [chM, chP, chColon]
  | .outByte v => .tx (hex2 v)
  | .outPulse p1 p0 => .tx (hex2 p1 ++ hex2 p0)
  | .outTrailer n d c => .tx (chHash :: hex2 n ++ chBang :: hex2 d ++ chStar :: hex2 c ++ [chNl])
  | .outOk => .tx [chStar, chO, chK, chNl]
  | .outErrbyte c => .tx [chBang, c, chNl]
  | .outErrsum => .tx [chBang, chStar, chNl]

/-- The `n` bytes of a number, most significant first: the order in which the table's numbers spell the bytes of the
wire (`MA` is 4D 41 and the number 0x4D41; log 7). -/
def bigEndianBytes (n w : Nat) : List Byte :=
  ((List.range n).map (fun k => BitVec.ofNat 8 (w / 256 ^ k))).reverse

/-- The word of a row of opcode_table.json from its number `w` of `nbits` bits. The bit patterns of R119 are taken at their
own width and also rounded up to whole bytes; a lone byte that is both a pattern and a wire byte is EOL or a payload
if it is theirs, else the pattern, else the illegal byte; longer numbers are tried as records, then as inbound bytes
(log 7). -/
def tableWord (nbits w : Nat) : OpWord :=
  let bytes := bigEndianBytes (nbits / 8) w
  if nbits = 4 ∨ nbits = 7 ∨ nbits = 12 then .code false nbits w
  else if nbits = 8 ∧ ¬(w = 0x0A ∨ w = 0x3A) ∧ (lookupCode 4 w codeTable).isSome then .code false 4 w
  else if nbits = 8 ∧ ¬(w = 0x0A ∨ w = 0x3A) ∧ (lookupCode 7 w codeTable).isSome then .code false 7 w
  else if nbits = 16 ∧ isUartWord 12 w then .code false 12 w
  else
    match decodeTx bytes with
    | .ok _ => .tx bytes
    | .error _ => .rx .a bytes

/-- The operation the decoder reads from a row's number. -/
def decodeTableWord (nbits w : Nat) : Option Instr :=
  match decode (tableWord nbits w) with
  | .ok i => some i
  | .error _ => none

end Sys2Proof
end

