-- ==== Sys2Proof/Machine/Wire.lean ====
section
/-! DEFINITION. The meanings of the inbound operations (the parser reads their bytes, 49_command_parser.md) and of the outbound
records (the rule that emits them, 45 to 49). -/

namespace Sys2Proof.Machine

/-! ## Inbound: headers (R277) -/

/-- MA. -/
def execMa (s : State) : Host.Outcome State Fault Refusal := .next (parserReads [chM, chA] s)

/-- MM. -/
def execMm (s : State) : Host.Outcome State Fault Refusal := .next (parserReads [chM, chM] s)

/-- MP. -/
def execMp (s : State) : Host.Outcome State Fault Refusal := .next (parserReads [chM, chP] s)

/-! ## Inbound: tokens (R280 to R292, R300). What a payload byte does is read from `cp_type` in the state (R282; log 3). -/

/-- PAYLOAD.A (R283). -/
def execPayloadA (pairs : List DigitPair) (s : State) : Host.Outcome State Fault Refusal :=
  .next (parserReads (chColon :: pairBytes pairs) s)

/-- PAYLOAD.M (R284). -/
def execPayloadM (pairs : List DigitPair) (s : State) : Host.Outcome State Fault Refusal :=
  .next (parserReads (chColon :: pairBytes pairs) s)

/-- PAYLOAD.P (R285). -/
def execPayloadP (pairs : List DigitPair) (s : State) : Host.Outcome State Fault Refusal :=
  .next (parserReads (chColon :: pairBytes pairs) s)

/-- SYNCDUR (R287). -/
def execSyncdur (h l : Byte) (s : State) : Host.Outcome State Fault Refusal :=
  .next (parserReads [chBang, h, l] s)

/-- BITCOUNT (R288). -/
def execBitcount (h l : Byte) (s : State) : Host.Outcome State Fault Refusal :=
  .next (parserReads [chHash, h, l] s)

/-- CHECK (R289 to R292). -/
def execCheck (h l : Byte) (s : State) : Host.Outcome State Fault Refusal :=
  .next (parserReads [chStar, h, l] s)

/-- EOL (R300). -/
def execEol (s : State) : Host.Outcome State Fault Refusal := .next (parserReads [chNl] s)

/-! ## Inbound: keywords and the illegal byte (R293 to R297) -/

/-- PULSE (R294). -/
def execPulse (s : State) : Host.Outcome State Fault Refusal := .next (parserReads (keywordBytes .pulse) s)

/-- DEMOD (R295). -/
def execDemod (s : State) : Host.Outcome State Fault Refusal := .next (parserReads (keywordBytes .demod) s)

/-- STACK (R296). -/
def execStack (s : State) : Host.Outcome State Fault Refusal := .next (parserReads (keywordBytes .stack) s)

/-- UNEXPECTED (R297): the parser reads the byte; a phase that does not accept it raises E3 (R313). -/
def execUnexpected (c : Byte) (s : State) : Host.Outcome State Fault Refusal := .next (parserReads [c] s)

/-! ## Outbound: headers, payload, trailer (R213, R223, R234, R245, R246, R251, R254) -/

/-- OUT.MA (R213). -/
def execOutMa (s : State) : Host.Outcome State Fault Refusal := .next (commit .a s)

/-- OUT.MO (R223). -/
def execOutMo (s : State) : Host.Outcome State Fault Refusal := .next (commit .o s)

/-- OUT.MM (R234). -/
def execOutMm (s : State) : Host.Outcome State Fault Refusal := .next (manCommit s)

/-- OUT.MP (R245). -/
def execOutMp (s : State) : Host.Outcome State Fault Refusal := .next (commit .p s)

/-- OUT.BYTE (R251). -/
def execOutByte (v : Byte) (s : State) : Host.Outcome State Fault Refusal := .next (emitByte v s)

/-- OUT.PULSE (R246). -/
def execOutPulse (p1 p0 : Byte) (s : State) : Host.Outcome State Fault Refusal :=
  .next (decAdvance (rawPulse p0 p1 s))

/-- OUT.TRAILER (R254). The three fields are what the state prints, not inputs (log 6). -/
def execOutTrailer (_n _d _c : Byte) (s : State) : Host.Outcome State Fault Refusal := .next (trailer s)

/-! ## Outbound: responses (R300, R297, R290) -/

/-- OUT.OK (R300). -/
def execOutOk (s : State) : Host.Outcome State Fault Refusal := .next (cpEndOfLine s)

/-- OUT.ERRBYTE (R297). -/
def execOutErrbyte (c : Byte) (s : State) : Host.Outcome State Fault Refusal := .next (raiseUnexpectedByte c s)

/-- OUT.ERRSUM (R290). -/
def execOutErrsum (s : State) : Host.Outcome State Fault Refusal := .next (raiseChecksumMismatch s)

end Sys2Proof.Machine
end

