-- ==== Sys2Proof/Machine/Dispatch.lean ====
section
/-! DEFINITION. The dispatch of an operation to its meaning: one arm per row of spec/opcode_table.json. -/

namespace Sys2Proof.Machine

def exec (i : Instr) (s : State) : Host.Outcome State Fault Refusal :=
  match i with
  | .reset => Sys2Proof.Machine.execReset s
  | .tickSampler level => Sys2Proof.Machine.execTickSampler level s
  | .tickTxdriver level => Sys2Proof.Machine.execTickTxdriver level s
  | .tickUnarmed level => Sys2Proof.Machine.execTickUnarmed level s
  | .uartRx b => Sys2Proof.Machine.execUartRx b s
  | .dispatch => Sys2Proof.Machine.execDispatch s
  | .dispatchSyncSearch => Sys2Proof.Machine.execDispatchSyncSearch s
  | .dispatchDecodeAsk => Sys2Proof.Machine.execDispatchDecodeAsk s
  | .dispatchDecodeOok => Sys2Proof.Machine.execDispatchDecodeOok s
  | .dispatchDecodeManchester => Sys2Proof.Machine.execDispatchDecodeManchester s
  | .dispatchDecodePulses => Sys2Proof.Machine.execDispatchDecodePulses s
  | .dispatchTrailer => Sys2Proof.Machine.execDispatchTrailer s
  | .dispatchReceiveCommand => Sys2Proof.Machine.execDispatchReceiveCommand s
  | .dispatchCancel sss => Sys2Proof.Machine.execDispatchCancel sss s
  | .enableReceiver => Sys2Proof.Machine.execEnableReceiver s
  | .enableTransmitter => Sys2Proof.Machine.execEnableTransmitter s
  | .disableTransceiver => Sys2Proof.Machine.execDisableTransceiver s
  | .ma => Sys2Proof.Machine.execMa s
  | .mm => Sys2Proof.Machine.execMm s
  | .mp => Sys2Proof.Machine.execMp s
  | .payloadA pairs => Sys2Proof.Machine.execPayloadA pairs s
  | .payloadM pairs => Sys2Proof.Machine.execPayloadM pairs s
  | .payloadP pairs => Sys2Proof.Machine.execPayloadP pairs s
  | .syncdur h l => Sys2Proof.Machine.execSyncdur h l s
  | .bitcount h l => Sys2Proof.Machine.execBitcount h l s
  | .check h l => Sys2Proof.Machine.execCheck h l s
  | .eol => Sys2Proof.Machine.execEol s
  | .pulse => Sys2Proof.Machine.execPulse s
  | .demod => Sys2Proof.Machine.execDemod s
  | .stack => Sys2Proof.Machine.execStack s
  | .unexpected c => Sys2Proof.Machine.execUnexpected c s
  | .outMa => Sys2Proof.Machine.execOutMa s
  | .outMo => Sys2Proof.Machine.execOutMo s
  | .outMm => Sys2Proof.Machine.execOutMm s
  | .outMp => Sys2Proof.Machine.execOutMp s
  | .outByte v => Sys2Proof.Machine.execOutByte v s
  | .outPulse p1 p0 => Sys2Proof.Machine.execOutPulse p1 p0 s
  | .outTrailer n d c => Sys2Proof.Machine.execOutTrailer n d c s
  | .outOk => Sys2Proof.Machine.execOutOk s
  | .outErrbyte c => Sys2Proof.Machine.execOutErrbyte c s
  | .outErrsum => Sys2Proof.Machine.execOutErrsum s

end Sys2Proof.Machine
end

