-- ==== Sys2Proof/Machine/Fetch.lean ====
section
/-! DEFINITION. Where the next operation comes from: the environment's pending events (log 1), and the state in which the
machine selects a given row next (log 8). -/

namespace Sys2Proof.Machine

/-- Take the next word of the environment's script. -/
def fetch (s : State) : Option (OpWord × State) :=
  match s.script with
  | [] => none
  | w :: rest => some (w, { s with script := rest })

/-- A state in which a byte is queued. -/
def withQueuedByte (s : State) : State :=
  if rxAvail s then s else { s with uartRxQ := [chNl] }

/-- The decoding state of a cancellation's selector (R120). -/
def decodingState (sss : BitVec 3) : RunningState :=
  if sss = 2 then .decodingOok
  else if sss = 3 then .decodingManchester
  else if sss = 4 then .decodeRawPulses
  else .decodingAsk

/-- The parser, waiting in a phase. -/
def atParser (p : CpPhase) (s : State) : State := { s with runningState := .receivingCommand, cpPhase := p }

/-- The state a row's selector asks for: the enables of a TICK row, `running_state` of a dispatch target, the parser's phase and
type of an inbound operation (R119, R271, R278, R282). Rows without a selector ask for nothing. -/
def selectRow (i : Instr) (s : State) : State :=
  match i with
  | .reset => s
  | .tickSampler _ => { s with ocieA := true, ocieB := false, mode := .receiving, antenna := false }
  | .tickTxdriver _ => { s with ocieA := false, ocieB := true, mode := .startTransmit, antenna := true }
  | .tickUnarmed _ => { s with ocieA := false, ocieB := false, mode := .idle, antenna := false }
  | .uartRx _ => s
  | .dispatch => { s with wake := true }
  | .dispatchSyncSearch => { s with runningState := .syncSearch }
  | .dispatchDecodeAsk => { s with runningState := .decodingAsk }
  | .dispatchDecodeOok => { s with runningState := .decodingOok }
  | .dispatchDecodeManchester => { s with runningState := .decodingManchester }
  | .dispatchDecodePulses => { s with runningState := .decodeRawPulses }
  | .dispatchTrailer => { s with runningState := .decodeDone }
  | .dispatchReceiveCommand => { s with runningState := .receivingCommand }
  | .dispatchCancel sss => withQueuedByte { s with runningState := decodingState sss }
  | .enableReceiver => s
  | .enableTransmitter => s
  | .disableTransceiver => s
  | .ma => atParser .start s
  | .mm => atParser .start s
  | .mp => atParser .start s
  | .payloadA _ => { atParser .token s with cpType := .a }
  | .payloadM _ => { atParser .token s with cpType := .m }
  | .payloadP _ => { atParser .token s with cpType := .p }
  | .syncdur _ _ => atParser .token s
  | .bitcount _ _ => atParser .token s
  | .check _ _ => atParser .token s
  | .eol => atParser .token s
  | .pulse => atParser .start s
  | .demod => atParser .start s
  | .stack => atParser .start s
  | .unexpected _ => atParser .start s
  | .outMa => s
  | .outMo => s
  | .outMm => s
  | .outMp => s
  | .outByte _ => s
  | .outPulse _ _ => s
  | .outTrailer _ _ _ => s
  | .outOk => s
  | .outErrbyte _ => s
  | .outErrsum => s

/-- The selection a word asks for, if it is an operation. -/
def selectWord (w : OpWord) (s : State) : State :=
  match decode w with
  | .ok i => selectRow i s
  | .error _ => s

/-- A row's number made the next operation the machine runs. -/
def placeWord (s : State) (nbits w : Nat) : State :=
  { selectWord (tableWord nbits w) s with script := tableWord nbits w :: s.script }

end Sys2Proof.Machine
end

