-- ==== Sys2Proof/Machine/Step.lean ====
section
/-! DEFINITION. One step of the machine: the next pending operation, decoded and run. -/

namespace Sys2Proof.Machine

/-- One step. State changes only in events (R11): with none pending nothing changes (log 1). -/
def step (s : State) : Host.Outcome State Fault Refusal :=
  match fetch s with
  | none => .next s
  | some (w, s') =>
    match decode w with
    | .ok i => exec i s'
    | .error r => .refused (.undecodable r)

/-- `s` with a row's word as the next operation, in the state its selector describes (log 8). -/
def State.withFetchWord (s : State) (nbits w : Nat) : State := placeWord s nbits w

end Sys2Proof.Machine
end

