-- ==== Sys2Proof/Safety.lean ====
section
/-! DEFINITION. The terms statements are written in: the invariants of 10_state.md R52, the transition table of R177, the tests and
effects of the rules in the spec's own arithmetic, and runs of several operations. -/

namespace Sys2Proof.Machine

/-! ## Runs and families of operations -/

/-- Run operations one after the other, stopping at the first that does not answer a next state. -/
def runOps : List Instr → State → Host.Outcome State Fault Refusal
  | [], s => .next s
  | i :: rest, s =>
    match exec i s with
    | .next t => runOps rest t
    | .fault r => .fault r
    | .refused r => .refused r

/-- The three rows of the one event `TICK(level)` (R119, R171). -/
def tickRows (level : Bool) : List Instr := [.tickSampler level, .tickTxdriver level, .tickUnarmed level]

/-- The four events (R11): RESET, TICK, UART_RX, DISPATCH. Every other operation is a part of a DISPATCH, of boot, or of a
line. -/
def isEvent : Instr → Bool
  | .reset => true
  | .tickSampler _ => true
  | .tickTxdriver _ => true
  | .tickUnarmed _ => true
  | .uartRx _ => true
  | .dispatch => true
  | .dispatchSyncSearch => false
  | .dispatchDecodeAsk => false
  | .dispatchDecodeOok => false
  | .dispatchDecodeManchester => false
  | .dispatchDecodePulses => false
  | .dispatchTrailer => false
  | .dispatchReceiveCommand => false
  | .dispatchCancel _ => false
  | .enableReceiver => false
  | .enableTransmitter => false
  | .disableTransceiver => false
  | .ma => false
  | .mm => false
  | .mp => false
  | .payloadA _ => false
  | .payloadM _ => false
  | .payloadP _ => false
  | .syncdur _ _ => false
  | .bitcount _ _ => false
  | .check _ _ => false
  | .eol => false
  | .pulse => false
  | .demod => false
  | .stack => false
  | .unexpected _ => false
  | .outMa => false
  | .outMo => false
  | .outMm => false
  | .outMp => false
  | .outByte _ => false
  | .outPulse _ _ => false
  | .outTrailer _ _ _ => false
  | .outOk => false
  | .outErrbyte _ => false
  | .outErrsum => false

/-- The operation a DISPATCH runs in a running state (the table of R173). -/
def targetOf : RunningState → Instr
  | .syncSearch => .dispatchSyncSearch
  | .decodingAsk => .dispatchDecodeAsk
  | .decodingOok => .dispatchDecodeOok
  | .decodingManchester => .dispatchDecodeManchester
  | .decodeRawPulses => .dispatchDecodePulses
  | .decodeDone => .dispatchTrailer
  | .receivingCommand => .dispatchReceiveCommand

/-- The tasks that read the ring behind the sampler (R78). -/
def readers : List Instr :=
  [.dispatchSyncSearch, .dispatchDecodeAsk, .dispatchDecodeOok, .dispatchDecodeManchester, .dispatchDecodePulses]

/-- The decoders that keep no half-bit clocks: ASK and OOK, one frame in R122. -/
def bitDecoders : List Instr := [.dispatchDecodeAsk, .dispatchDecodeOok]

/-- The transitions of `running_state` that a task makes (R177, without the cancellation of R175). -/
def taskMoves : RunningState → RunningState → Bool
  | .syncSearch, t => isDecoding t || decide (t = .receivingCommand)
  | .decodingAsk, t => decide (t = .syncSearch ∨ t = .decodeDone)
  | .decodingOok, t => decide (t = .syncSearch ∨ t = .decodeDone)
  | .decodingManchester, t => decide (t = .syncSearch ∨ t = .decodeDone)
  | .decodeRawPulses, t => decide (t = .decodeDone)
  | .decodeDone, t => decide (t = .syncSearch)
  | .receivingCommand, t => decide (t = .syncSearch)

/-! ## Invariants (R52) -/

/-- R52 (a) to (d): the enables, the mode and the antenna agree. -/
abbrev TransceiverOk (s : State) : Prop :=
  ¬(s.ocieA = true ∧ s.ocieB = true) ∧
  (s.ocieA = true ↔ s.mode = .receiving) ∧
  (s.ocieB = true → s.mode = .startTransmit ∨ s.mode = .transmitting ∨ s.mode = .idle) ∧
  (s.antenna = true ↔ s.ocieB = true)

/-- R52 (e), and that a search in progress has not reached 8 (R203). -/
abbrev SearchOk (s : State) : Prop :=
  s.syncLen.toNat ≤ 8 ∧ s.manchesterHits.toNat ≤ s.syncLen.toNat ∧
  (s.ssPhase = .search → s.syncLen.toNat < 8)

/-- R52 (f) in the resume points: only the task `running_state` names is between its first step and its return; the raw dumper
has no lock-in (R245); the searcher also waits for the decoder it named. -/
abbrev TaskOk (s : State) : Prop :=
  (s.decPhase ≠ .idle → isDecoding s.runningState = true) ∧
  (s.decPhase = .lockIn → s.runningState ≠ .decodeRawPulses) ∧
  (s.cpPhase ≠ .entry → s.runningState = .receivingCommand) ∧
  (s.ssPhase = .search → s.runningState = .syncSearch) ∧
  (s.ssPhase = .awaitDecoder →
    isDecoding s.runningState = true ∨ s.runningState = .decodeDone ∨ s.runningState = .syncSearch)

/-- What every operation keeps: the ring's canonical form, and R52 (a) to (e). -/
abbrev Inv (s : State) : Prop := Memory.wf s.ring = true ∧ TransceiverOk s ∧ SearchOk s

/-! ## The checksum law of an outbound line (R108, R255) -/

/-- The sum of bytes, modulo 256. -/
def byteSum : List Byte → Byte
  | [] => 0
  | v :: rest => v + byteSum rest

/-- The characters of payload bytes (R105). -/
def payloadText : List Byte → List Byte
  | [] => []
  | v :: rest => hex2 v ++ payloadText rest

/-- A train handed to a decoder that has emitted nothing for it. -/
abbrev LineFresh (s : State) : Prop :=
  (isDecoding s.runningState = true ∧ s.decPhase ≠ .emit) ∨
  (s.runningState = .syncSearch ∧ s.ssPhase = .awaitDecoder ∧ s.decoded = false)

/-- A header has been emitted and the trailer has not. -/
abbrev LineOpen (s : State) : Prop :=
  (isDecoding s.runningState = true ∧ s.decPhase = .emit) ∨ s.runningState = .decodeDone

/-- The output ends in the header and the payload bytes `bs` of the line in progress, and `checksum` is 0x55 plus their sum. -/
def LineSoFar (s : State) (before bs : List Byte) : Prop :=
  s.uartTx = before ++ [0x4D, msgTypeLetter s.msgType, 0x3A] ++ payloadText bs ∧ s.checksum = 0x55 + byteSum bs

/-- The checksum law so far (R255). -/
def LineLaw (s : State) : Prop :=
  (LineFresh s → s.checksum = 0x55 ∧ s.bitCount = 0 ∧ s.byteAccumulator = 0) ∧
  (LineOpen s → s.decoded = true ∧ ∃ before bs, LineSoFar s before bs)

/-! ## The searcher's arithmetic, over the integers (R9, R196 to R199) -/

/-- `(q0, q1)` are the normalized copies of a pulse `(p0, p1)` (R197). -/
def Normalized (p0 p1 sd q0 q1 : Int) : Prop :=
  if p0 + p1 ≤ 0x70 then q0 = p0 ∧ q1 = p1
  else if ((p0 / 2 - p1).natAbs : Int) < (p0 + p1) / 8 then q0 = p0 / 2 ∧ q1 = p1
  else if ((p1 / 2 - p0).natAbs : Int) < (p0 + p1) / 8 then q0 = p0 ∧ q1 = p1 / 2
  else if (((p0 + p1) / 2 - sd).natAbs : Int) < (p0 + p1) / 8 then q0 = p0 / 2 ∧ q1 = p1 / 2
  else q0 = p0 ∧ q1 = p1

/-- The searcher after one pulse whose normalized copies are `(q0, q1)` (R192, R195, R196, R198). -/
def examined (q0 q1 : Int) (s : State) : State :=
  let d := q0 + q1
  let sd : Int := s.syncDuration.toNat
  if 0x20 ≤ d ∧ (d - sd).natAbs ≤ 8 then
    { s with
      manchesterHits := if ((q1 - q0).natAbs : Int) < d / 8 then s.manchesterHits + 1 else s.manchesterHits
      syncDuration := BitVec.ofInt 8 (sd + Int.tdiv (d - sd) 2)
      syncLen := s.syncLen + 1
      ssPi := s.ssPi + 1 }
  else
    { s with
      syncStart := s.ssPi
      syncDuration := BitVec.ofInt 8 d
      syncLen := 0
      manchesterHits := 0
      ssPi := s.ssPi + 1 }

/-- The searcher after a classification (R199). -/
def classified (s : State) : State :=
  { s with
    ssChoice :=
      if s.displayPulses then .raw
      else if 0x80 < s.syncDuration.toNat then .ook
      else if 4 < s.manchesterHits.toNat then .man
      else .ask
    runningState :=
      if s.displayPulses then .decodeRawPulses
      else if 0x80 < s.syncDuration.toNat then .decodingOok
      else if 4 < s.manchesterHits.toNat then .decodingManchester
      else .decodingAsk
    msgStart := s.syncStart
    checksum := 0x55
    bitCount := 0
    byteAccumulator := 0
    msgEnd := 0
    decoded := false
    ssRetried := false
    ssPhase := .awaitDecoder }

/-- The searcher after a restart (R201). -/
def restarted (s : State) : State :=
  { s with
    ssPi := s.msgStart
    syncStart := s.msgStart
    syncDuration := 0
    syncLen := 0
    manchesterHits := 0
    ssPhase := .search }

/-! ## The decoders that lock in (R210 to R213, R220 to R223, R230 to R234) -/

/-- The decoders with a lock-in. -/
inductive LockDecoder where
  | ask
  | ook
  | man
deriving DecidableEq, Repr

/-- The task step. -/
def LockDecoder.op : LockDecoder → Instr
  | .ask => .dispatchDecodeAsk
  | .ook => .dispatchDecodeOok
  | .man => .dispatchDecodeManchester

/-- The running state that names it. -/
def LockDecoder.state : LockDecoder → RunningState
  | .ask => .decodingAsk
  | .ook => .decodingOok
  | .man => .decodingManchester

/-- The number of consecutive valid pulses (R211, R221, R232). -/
def LockDecoder.need : LockDecoder → Nat
  | .ask => 20
  | .ook => 20
  | .man => 32

/-- `near(x, y)`, inclusive (R220). -/
def near (sd x y : Int) : Bool := decide (((x - y).natAbs : Int) ≤ sd / 8)

/-- A plausible half-pulse, strict (R231). -/
def plausible (sd x : Int) : Bool :=
  decide (((x - sd / 2).natAbs : Int) < sd / 4 ∨ ((x - sd).natAbs : Int) < sd / 4)

/-- The validity test of a pulse (R211, R221, R231). -/
def LockDecoder.good : LockDecoder → Int → Int → Int → Bool
  | .ask, sd, p0, p1 => decide ((p0 + p1 - sd).natAbs ≤ 8)
  | .ook, sd, p0, p1 => near sd p0 sd || near sd p0 (sd / 2) || near sd p1 sd || near sd p1 (sd / 2)
  | .man, sd, p0, p1 => plausible sd p0 && plausible sd p1

/-- The state after the commit (R213, R223, R234). -/
def LockDecoder.committed : LockDecoder → State → State
  | .ask, s =>
    { s with
      decoded := true, msgType := .a, uartTx := s.uartTx ++ [0x4D, 0x41, 0x3A], decPi := s.msgStart
      decPhase := .emit }
  | .ook, s =>
    { s with
      decoded := true, msgType := .o, uartTx := s.uartTx ++ [0x4D, 0x4F, 0x3A], decPi := s.msgStart
      decPhase := .emit }
  | .man, s =>
    { s with
      decoded := true, msgType := .m, uartTx := s.uartTx ++ [0x4D, 0x4D, 0x3A], decPi := s.msgStart
      mPhase := false, demiClock := 0, stuffClock := 0, mBit := false
      decPhase := .emit }

/-- The end of a message: the last partial byte, `msg_start`, and `DecodeDone` (R215, R225, R238). -/
def endedAt (next : Byte) (s : State) : State :=
  { flushPartial s with msgStart := next, decPhase := .idle, runningState := .decodeDone }

/-- The two counters of the Manchester decoder agree up to one half-bit (R237). -/
abbrev ClocksAgree (s : State) : Prop := s.demiClock - s.stuffClock = 0 ∨ s.demiClock - s.stuffClock = 1

/-! ## The parser (R266 to R301) -/

/-- A state of the parser in which it waits for a byte of a line it has begun (R266). -/
def waitsForByte (s : State) : Bool :=
  decide (s.runningState = .receivingCommand ∧ s.cpPhase ≠ .entry ∧ s.cpPhase ≠ .txStart ∧ s.cpPhase ≠ .txWait)

/-- The parser is at the start of a line: `Entry` or `Start`. -/
abbrev AtLineStart (s : State) : Prop :=
  s.runningState = .receivingCommand ∧ (s.cpPhase = .entry ∨ s.cpPhase = .start)

/-- The parser is between tokens, or a payload may end: `Token` or `PayHi` (R280). -/
abbrev AtToken (s : State) : Prop :=
  s.runningState = .receivingCommand ∧ (s.cpPhase = .token ∨ s.cpPhase = .payHi)

/-- Entry done if it was due (R268). -/
def entered (s : State) : State :=
  if s.cpPhase = .entry then
    { s with
      ocieA := false, ocieB := false, antenna := false, mode := .idle
      cpPhase := .start, cpT0 := s.tickcount }
  else s

/-- The time of the last byte (R269). -/
def heard (s : State) : State := { s with cpT0 := s.tickcount }

/-- The state after the exit path (R299). -/
def afterExit (s : State) : State :=
  { s with
    byteAccumulator := 0, bitCount := 0, checksum := 0
    ocieA := true, ocieB := false, antenna := false, mode := .receiving
    current := 0, msgStart := 0, msgEnd := 0
    runningState := .syncSearch, ssPhase := .restart, cpPhase := .entry }

/-- The state after an unexpected byte (R297). -/
def afterUnexpected (c : Byte) (s : State) : State :=
  if c = 0x0A then afterExit { s with uartTx := s.uartTx ++ [0x21, c, 0x0A] }
  else { s with uartTx := s.uartTx ++ [0x21, c, 0x0A], cpPhase := .flush }

/-- The state after `*OK` (R300). -/
def afterOk (s : State) : State := afterExit { s with uartTx := s.uartTx ++ [0x2A, 0x4F, 0x4B, 0x0A] }

/-- Whether a byte is one the phase does not accept (the list of R313). -/
def raisesUnexpected (s : State) (c : Byte) : Bool :=
  match s.cpPhase with
  | .entry => decide (c ∉ [0x4D, 0x50, 0x44, 0x53])
  | .start => decide (c ∉ [0x4D, 0x50, 0x44, 0x53])
  | .mType => decide (c ∉ [0x41, 0x4D, 0x50])
  | .token => decide (c ∉ [0x3A, 0x21, 0x23, 0x2A, 0x0A])
  | .payHi => decide (hexval c = none ∧ c ∉ [0x3A, 0x21, 0x23, 0x2A, 0x0A])
  | .payLo => decide (hexval c = none)
  | .argHi => decide (hexval c = none)
  | .argLo => decide (hexval c = none)
  | .kw => decide ((keywordBytes s.cpKw)[s.cpKi.toNat]? ≠ some c)
  | .flush => false
  | .txStart => false
  | .txWait => false

/-- The transceiver as `enable_transmitter` leaves it, and the parser waiting for the cycle (R292). -/
def cycleStarted (s : State) : State :=
  { s with ocieA := false, ocieB := true, antenna := true, mode := .startTransmit, cpPhase := .txWait }

/-- The bytes of an inbound operation, if it is one (R110 to R113). -/
def inboundBytes (i : Instr) : Option (List Byte) :=
  match encode i with
  | .code _ _ _ => none
  | .rx _ bytes => some bytes
  | .tx _ => none

/-- What the bits of a word are, whatever its selector. -/
def wordText : OpWord → (Nat × Nat) × List Byte × Bool
  | .code _ len bits => ((len, bits), [], false)
  | .rx _ bytes => ((0, 0), bytes, false)
  | .tx bytes => ((0, 0), bytes, true)

end Sys2Proof.Machine
end

