-- ==== Sys2Proof/Certificates/Slice0/Obligations.lean ====
section
/-! DEFINITION. The statements for the provers. Each docstring names the rule of spec/ it formalises, or says what is the model's
own choice and where it is logged. A run of the model is a list of events the environment chooses; no statement is about a
program. -/

open Sys2Proof Sys2Proof.Machine

/-! ## Words and steps -/

/-- A step runs the operation decoded from the next pending word; with nothing pending nothing changes (R11; the pending list
is the model's choice, log 1), and a word that is no operation is refused by name. -/
def Obligations.StepRunsDecodedOperation : Prop :=
  (∀ (s : State) (w : OpWord) (rest : List OpWord) (i : Instr),
    s.script = w :: rest → decode w = .ok i → i.wellFormed = true → step s = exec i { s with script := rest }) ∧
  (∀ s : State, s.script = [] → step s = .next s) ∧
  (∀ (s : State) (w : OpWord) (rest : List OpWord) (r : Reject),
    s.script = w :: rest → decode w = .error r → step s = .refused (.undecodable r))

/-- Decoding the word of a well-formed operation gives the operation back, for all 41 rows and every operand (R102 to R119). -/
def Obligations.DecodeEncodeRoundTrip : Prop :=
  ∀ i : Instr, i.wellFormed = true → decode (encode i) = .ok i

/-- What the decoder reads is well formed, and its word is the word that was read, bit for bit and byte for byte: no bit of an
encoding is dropped and no two texts are one operation (R102 to R119). -/
def Obligations.DecodedWordKeepsEveryBit : Prop :=
  ∀ (w : OpWord) (i : Instr), decode w = .ok i → i.wellFormed = true ∧ wordText (encode i) = wordText w

/-- A few words written out from R104, R110 to R113 and R119 decode to the operations they stand for. The kind of a word, the
queued byte that tells a cancellation (R175) from its task, and the payload's type stand beside the bits: the model's choice,
log 7. -/
def Obligations.WrittenWordsDecode : Prop :=
  decode (.code false 7 0b0001101) = .ok (.tickSampler true) ∧
  decode (.code false 12 0b001001000001) = .ok (.uartRx 0x41) ∧
  decode (.code false 7 0b0011011) = .ok .dispatchDecodeManchester ∧
  decode (.code true 7 0b0011011) = .ok (.dispatchCancel 3) ∧
  decode (.rx .p [0x3A, 0x46, 0x66]) = .ok (.payloadP [(0x46, 0x66)]) ∧
  decode (.rx .a [0x2A, 0x46, 0x35]) = .ok (.check 0x46 0x35) ∧
  decode (.tx [0x23, 0x32, 0x30, 0x21, 0x33, 0x30, 0x2A, 0x36, 0x44, 0x0A]) = .ok (.outTrailer 0x20 0x30 0x6D)

/-! ## Invariants and whole-machine rules -/

/-- The machine right after reset meets every invariant: the canonical ring, R52 (a) to (f), the checksum law. -/
def Obligations.ResetMeetsInvariants : Prop :=
  Inv State.reset ∧ TaskOk State.reset ∧ LineLaw State.reset

/-- Every step of any operation keeps the ring's canonical form and R52 (a) to (e), from every state. -/
def Obligations.StepKeepsInvariant : Prop :=
  ∀ s t : State, Inv s → step s = .next t → Inv t

/-- Every event keeps R52 (f): only the task `running_state` names is between its first step and its return; and the raw dumper
is never in a lock-in. -/
def Obligations.EventsKeepTaskDiscipline : Prop :=
  ∀ (i : Instr) (s t : State), isEvent i = true → TaskOk s → exec i s = .next t → TaskOk t

/-- R177: `running_state` moves only as the table says. Every event but RESET and DISPATCH leaves it; RESET sets `SyncSearch`;
a DISPATCH may first cancel a decode, and then the one task that runs makes at most one move of the table. -/
def Obligations.RunningStateFollowsTable : Prop :=
  ∀ (i : Instr) (s t : State), isEvent i = true → exec i s = .next t →
    (i = .reset → t.runningState = .syncSearch) ∧
    (i ≠ .reset → i ≠ .dispatch → t.runningState = s.runningState) ∧
    (i = .dispatch →
      let r := if s.wake = true ∧ isDecoding s.runningState = true ∧ s.uartRxQ ≠ [] then .receivingCommand
        else s.runningState
      t.runningState = r ∨ taskMoves r t.runningState = true)

/-- R29, R31, R24, R25: no operation but TICK and RESET changes the transmitter pin, the transmit driver's locals, `tickcount` or
`prev_level`. -/
def Obligations.OnlyTicksTouchTimerState : Prop :=
  ∀ (i : Instr) (s t : State), i ≠ .reset → (∀ level, i ∉ tickRows level) → exec i s = .next t →
    t.txPin = s.txPin ∧ t.txBit = s.txBit ∧ t.txRemLow = s.txRemLow ∧ t.txRemHigh = s.txRemHigh ∧
    t.tickcount = s.tickcount ∧ t.prevLevel = s.prevLevel

/-- R49, R250: the output stream only grows, under every operation but RESET (which starts a new trace, log 11), and TICK and
UART_RX emit nothing. -/
def Obligations.OutputOnlyGrows : Prop :=
  ∀ (i : Instr) (s t : State), i ≠ .reset → exec i s = .next t →
    s.uartTx <+: t.uartTx ∧
    ((∃ level, i ∈ tickRows level) ∨ (∃ b, i = .uartRx b) → t.uartTx = s.uartTx)

/-- R78, R80: a reader never reads the slot the sampler is filling. Two states that differ only in the slot `current` give the
same step of the searcher and of every decoder. -/
def Obligations.OpenSlotIsNeverRead : Prop :=
  ∀ (i : Instr) (s : State) (m : Memory), i ∈ readers →
    (∀ j c, j ≠ s.current → Memory.read m (ringAddr j c) = ringRead s j c) →
    ∃ t, exec i s = .next t ∧ exec i { s with ring := m } = .next { t with ring := m }

/-! ## RESET, TICK, UART_RX -/

/-- R350, R352 and the table of 10_state.md section 11: RESET sets every element, then boot enables the receiver. The model's
own fields stay (log 12), and the trace of the output starts anew (log 11). -/
def Obligations.ResetSetsEveryElement : Prop :=
  ∀ s : State, exec .reset s = .next
    { ring := [], current := 0, msgStart := 0, msgEnd := 0, tickcount := 0, prevLevel := false
      mode := .receiving, ocieA := true, ocieB := false, antenna := false, txPin := false, txRemLow := 0, txRemHigh := 0
      txBit := false, runningState := .syncSearch, syncDuration := 0, syncLen := 0, manchesterHits := 0, syncStart := 0
      ssPi := 0, ssPhase := .restart, ssChoice := .ask, ssRetried := false, byteAccumulator := 0, bitCount := 0
      checksum := 0, msgType := .a, decoded := false, decPhase := .idle, decPi := 0, decN := 0, mPhase := false
      mBit := false, demiClock := 0, stuffClock := 0, displayPulses := false, stackReq := false, wake := true
      uartRxQ := [], uartTx := [], cpPhase := .entry, cpType := .a, cpWr := 0, cpHold := 0, cpPhold := none
      cpK := .bang, cpKw := .pulse, cpKi := 0, cpT0 := 0, cpRep := 0, script := s.script, freeIx := s.freeIx }

/-- R145 (with R142 to R144), in a TICK with the sampler armed: the sampled level's count goes up and stops at 255; on a rising
edge the slot is closed if a count exceeds 20, and the slot then open is cleared; every other byte of the ring and every
element not named stays (R171 for `wake`). That each of the three rows does this, whatever its selector, is read from R119:
log 3 (DEDUCED). -/
def Obligations.SamplerTick : Prop :=
  ∀ (i : Instr) (level : Bool) (s : State), i ∈ tickRows level → Memory.wf s.ring = true →
    s.ocieA = true → s.ocieB = false →
    let counted : Byte → Bool → Byte := fun j c =>
      if j = s.current ∧ c = level then
        (if (ringRead s j c).toNat < 255 then ringRead s j c + 1 else 255)
      else ringRead s j c
    let rising : Prop := s.prevLevel = false ∧ level = true
    let next : Byte :=
      if rising ∧ (20 < (counted s.current false).toNat ∨ 20 < (counted s.current true).toNat) then s.current + 1
      else s.current
    ∃ m : Memory,
      exec i s = .next
        { s with
          ring := m, current := next, tickcount := s.tickcount + 1, prevLevel := level, wake := true } ∧
      Memory.wf m = true ∧
      ∀ j c, Memory.read m (ringAddr j c) = if rising ∧ j = next then 0 else counted j c

/-- R146, R147: after the edge tick of a pulse, `hi` high ticks in all (the next edge's among them), then `lo` low ticks, then
the next edge: the slot holds `min(lo, 255)` and `min(hi, 255)` and is closed when one count exceeds 20; otherwise it is
cleared and used again. A slot that starts with a low pin closes with a high count of 1. -/
def Obligations.SlotShape : Prop :=
  (∀ (hi lo : Nat) (s : State), 1 ≤ hi → 1 ≤ lo → Memory.wf s.ring = true → s.ocieA = true → s.ocieB = false →
    s.prevLevel = true → ringRead s s.current false = 0 → ringRead s s.current true = 0 →
    ∃ t, runOps (List.replicate (hi - 1) (.tickSampler true) ++ List.replicate lo (.tickSampler false) ++
        [.tickSampler true]) s = .next t ∧
      (20 < hi ∨ 20 < lo →
        t.current = s.current + 1 ∧ (ringRead t s.current true).toNat = min hi 255 ∧
        (ringRead t s.current false).toNat = min lo 255) ∧
      (¬(20 < hi ∨ 20 < lo) → t.current = s.current) ∧
      ringRead t t.current false = 0 ∧ ringRead t t.current true = 0) ∧
  (∀ (lo : Nat) (s : State), 20 < lo → Memory.wf s.ring = true → s.ocieA = true → s.ocieB = false →
    s.prevLevel = false → ringRead s s.current false = 0 → ringRead s s.current true = 0 →
    ∃ t, runOps (List.replicate lo (.tickSampler false) ++ [.tickSampler true]) s = .next t ∧
      t.current = s.current + 1 ∧ ringRead t s.current true = 1 ∧
      (ringRead t s.current false).toNat = min lo 255)

/-- R151 in a TICK with the transmit driver armed (R171). Whether `tickcount` advances is open (R171; left open in the model, log 9);
that each of the three rows does this, whatever its selector, is read from R119: log 3 (DEDUCED). -/
def Obligations.TransmitStart : Prop :=
  ∀ (i : Instr) (level : Bool) (s : State), i ∈ tickRows level → s.ocieA = false → s.ocieB = true →
    s.mode = .startTransmit →
    exec i s = .next
      { s with
        current := s.msgStart
        txRemLow := ringRead s s.msgStart false
        txRemHigh := ringRead s s.msgStart true
        txBit := true
        mode := .transmitting
        txPin := true
        tickcount := if Config.tickFreeRunning then s.tickcount + 1 else s.tickcount
        wake := true }

/-- R152 and R153 (the pin) in a TICK with the transmit driver armed (R171): the high phase, the low phase, and the reload of the
next slot. Whether `tickcount` advances is left open (log 9); that each of the three rows does this, whatever its selector, is
read from R119: log 3 (DEDUCED). -/
def Obligations.TransmitCount : Prop :=
  ∀ (i : Instr) (level : Bool) (s : State), i ∈ tickRows level → s.ocieA = false → s.ocieB = true →
    s.mode = .transmitting →
    let u : State :=
      { s with
        tickcount := if Config.tickFreeRunning then s.tickcount + 1 else s.tickcount
        wake := true }
    (s.txBit = true →
      exec i s = .next
        { u with
          txRemHigh := s.txRemHigh - 1
          txBit := decide (s.txRemHigh - 1 ≠ 0)
          txPin := decide (s.txRemHigh - 1 ≠ 0) }) ∧
    (s.txBit = false → s.txRemLow - 1 ≠ 0 →
      exec i s = .next { u with txRemLow := s.txRemLow - 1, txPin := false }) ∧
    (s.txBit = false → s.txRemLow - 1 = 0 →
      exec i s = .next
        { u with
          current := s.current + 1
          txRemLow := ringRead s (s.current + 1) false
          txRemHigh := ringRead s (s.current + 1) true
          mode := if s.current + 1 = s.msgEnd then .idle else .transmitting
          txBit := decide (ringRead s (s.current + 1) true ≠ 0)
          txPin := decide (ringRead s (s.current + 1) true ≠ 0) })

/-- R156, R157: a slot reached by a reload is replayed as its high count of high ticks (none if it is 0), then its low count of
low ticks (256 if it is 0); the tick that ends it loads the next slot, and ends the replay at `msg_end`. -/
def Obligations.ReplayedSlotLength : Prop :=
  ∀ (level : Bool) (s : State) (n : Nat), s.ocieA = false → s.ocieB = true → s.mode = .transmitting →
    s.txBit = decide (s.txRemHigh ≠ 0) →
    let lo := if s.txRemLow = 0 then 256 else s.txRemLow.toNat
    let hi := s.txRemHigh.toNat
    n ≤ hi + lo →
    ∃ t, runOps (List.replicate n (.tickTxdriver level)) s = .next t ∧ t.ring = s.ring ∧
      (n < hi + lo →
        t.current = s.current ∧ t.mode = .transmitting ∧ (0 < n → t.txPin = decide (n < hi))) ∧
      (n = hi + lo →
        t.current = s.current + 1 ∧
        t.mode = (if s.current + 1 = s.msgEnd then .idle else .transmitting) ∧
        t.txRemLow = ringRead s (s.current + 1) false ∧ t.txRemHigh = ringRead s (s.current + 1) true ∧
        t.txBit = decide (t.txRemHigh ≠ 0) ∧ t.txPin = t.txBit)

/-- R154 and R171: the armed driver changes nothing in `Idle` and `Receiving`, and a TICK with nothing armed changes nothing at
all unless `TICK_FREE_RUNNING` (an open parameter, log 9), when it counts and wakes. That each of the three rows does this,
whatever its selector, is read from R119: log 3 (DEDUCED). -/
def Obligations.TickWithoutHandlerEffect : Prop :=
  ∀ (i : Instr) (level : Bool) (s : State), i ∈ tickRows level → s.ocieA = false →
    (s.ocieB = true → s.mode = .idle ∨ s.mode = .receiving →
      exec i s = .next
        { s with
          tickcount := if Config.tickFreeRunning then s.tickcount + 1 else s.tickcount
          wake := true }) ∧
    (s.ocieB = false →
      exec i s = .next
        (if Config.tickFreeRunning then { s with tickcount := s.tickcount + 1, wake := true } else s))

/-- R172 and R87: UART_RX appends its byte and wakes the main loop; nothing else changes. On a full queue (the depth is open, log
10) the byte is dropped or the oldest is overwritten, by a free choice. -/
def Obligations.UartRxAppends : Prop :=
  ∀ (b : Byte) (s : State), ∃ q k,
    exec (.uartRx b) s = .next { s with uartRxQ := q, freeIx := k, wake := true } ∧
    ((q = s.uartRxQ ++ [b] ∧ k = s.freeIx ∧ ∀ d, Config.uartRxDepth = some d → s.uartRxQ.length < d) ∨
      ((q = s.uartRxQ ∨ q = (s.uartRxQ ++ [b]).drop 1) ∧ k = s.freeIx + 1 ∧
        ∃ d, Config.uartRxDepth = some d ∧ d ≤ s.uartRxQ.length))

/-! ## DISPATCH -/

/-- R173: asleep, a DISPATCH changes nothing; awake, it clears `wake`, cancels a decode if a byte is queued, and otherwise runs
exactly the task `running_state` names. -/
def Obligations.DispatchRunsNamedTask : Prop :=
  ∀ s : State,
    (s.wake = false → exec .dispatch s = .next s) ∧
    (s.wake = true →
      let u : State := { s with wake := false }
      ∃ t, exec .dispatch s = .next t ∧
        (isDecoding s.runningState = true ∧ s.uartRxQ ≠ [] →
          exec (.dispatchCancel (runningCode s.runningState)) u = .next t) ∧
        (¬(isDecoding s.runningState = true ∧ s.uartRxQ ≠ []) → exec (targetOf s.runningState) u = .next t))

/-- R175: a cancellation hands the machine to the parser with the transceiver disabled, the decoder and the searcher forgotten,
and the parser runs at once; the aborted decoder emits nothing more. -/
def Obligations.CancellationRunsParser : Prop :=
  ∀ (sss : BitVec 3) (s : State), runningCode s.runningState = sss → isDecoding s.runningState = true →
    s.uartRxQ ≠ [] →
    let u : State :=
      { s with
        runningState := .receivingCommand
        ocieA := false, ocieB := false, antenna := false, mode := .idle
        decPhase := .idle, ssPhase := .restart }
    ∃ t, exec (.dispatchCancel sss) s = .next t ∧ exec .dispatchReceiveCommand u = .next t

/-- R181: a task is not run while `running_state` does not name it; in the model a dispatch target or an inbound operation that
the state does not select changes nothing (the model's choice, logs 4 and 5). -/
def Obligations.UnselectedOperationChangesNothing : Prop :=
  (∀ (r : RunningState) (s : State), s.runningState ≠ r → exec (targetOf r) s = .next s) ∧
  (∀ (sss : BitVec 3) (s : State),
    ¬(runningCode s.runningState = sss ∧ isDecoding s.runningState = true ∧ s.uartRxQ ≠ []) →
    exec (.dispatchCancel sss) s = .next s) ∧
  (∀ (i : Instr) (bytes : List Byte) (s : State), inboundBytes i = some bytes →
    (s.runningState ≠ .receivingCommand ∨ s.cpPhase = .txStart ∨ s.cpPhase = .txWait) → exec i s = .next s)

/-! ## The searcher -/

/-- R193, R194: with no match counted a queued byte is picked up; otherwise the searcher waits while it is at the sampler. -/
def Obligations.SearcherPicksUpOrWaits : Prop :=
  ∀ s : State, s.runningState = .syncSearch → s.ssPhase = .search →
    (s.syncLen = 0 ∧ s.uartRxQ ≠ [] →
      exec .dispatchSyncSearch s = .next { s with runningState := .receivingCommand, ssPhase := .restart }) ∧
    (¬(s.syncLen = 0 ∧ s.uartRxQ ≠ []) → s.ssPi = s.current → exec .dispatchSyncSearch s = .next s)

/-- R192, R194 to R198: one pulse of the search. It is normalized; if it is accepted the estimate moves by half the difference,
rounded toward zero, and the matches are counted, else it seeds the next candidate; then the search goes on. -/
def Obligations.SearcherExaminesOnePulse : Prop :=
  ∀ (q0 q1 : Int) (s : State), s.runningState = .syncSearch → s.ssPhase = .search →
    ¬(s.syncLen = 0 ∧ s.uartRxQ ≠ []) → s.ssPi ≠ s.current →
    Normalized (ringRead s s.ssPi false).toNat (ringRead s s.ssPi true).toNat s.syncDuration.toNat q0 q1 →
    (examined q0 q1 s).syncLen ≠ 8 →
    ∃ t, exec .dispatchSyncSearch s = .next t ∧ exec .dispatchSyncSearch (examined q0 q1 s) = .next t

/-- R199: the eighth match classifies the train and hands it to its decoder. -/
def Obligations.SearcherClassifies : Prop :=
  ∀ (q0 q1 : Int) (s : State), s.runningState = .syncSearch → s.ssPhase = .search →
    ¬(s.syncLen = 0 ∧ s.uartRxQ ≠ []) → s.ssPi ≠ s.current →
    Normalized (ringRead s s.ssPi false).toNat (ringRead s s.ssPi true).toNat s.syncDuration.toNat q0 q1 →
    (examined q0 q1 s).syncLen = 8 →
    exec .dispatchSyncSearch s = .next (classified (examined q0 q1 s))

/-- R200, R201: a failed ASK attempt with hits is retried once as Manchester; otherwise, and after a command or reset, the search
starts over at `msg_start` with the sync state cleared. -/
def Obligations.SearcherResumes : Prop :=
  ∀ s : State, s.runningState = .syncSearch →
    (s.ssPhase = .awaitDecoder →
      s.decoded = false ∧ s.ssChoice = .ask ∧ s.manchesterHits ≠ 0 ∧ s.ssRetried = false →
      exec .dispatchSyncSearch s = .next
        { s with ssRetried := true, ssChoice := .man, runningState := .decodingManchester }) ∧
    (s.ssPhase = .restart ∨
      (s.ssPhase = .awaitDecoder ∧
        ¬(s.decoded = false ∧ s.ssChoice = .ask ∧ s.manchesterHits ≠ 0 ∧ s.ssRetried = false)) →
      ∃ t, exec .dispatchSyncSearch s = .next t ∧ exec .dispatchSyncSearch (restarted s) = .next t)

/-- R122 (the "writes" of the sync-search step): the searcher completes from every state and writes no element but its own, the
hand-off's, and `running_state`. -/
def Obligations.SearcherFrame : Prop :=
  ∀ s : State, ∃ t, exec .dispatchSyncSearch s = .next t ∧
    t = { s with
          ssPi := t.ssPi, syncStart := t.syncStart, syncDuration := t.syncDuration, syncLen := t.syncLen
          manchesterHits := t.manchesterHits, ssPhase := t.ssPhase, ssChoice := t.ssChoice, ssRetried := t.ssRetried
          msgStart := t.msgStart, msgEnd := t.msgEnd, checksum := t.checksum, bitCount := t.bitCount
          byteAccumulator := t.byteAccumulator, decoded := t.decoded, runningState := t.runningState }

/-! ## The decoders -/

/-- R210 to R212, R222, R233: entry at `msg_start`; waiting at the sampler; and lock-in failure (E1, R312) on the first invalid
pulse, which emits nothing and moves `msg_start` one past it. -/
def Obligations.LockInEntersWaitsAndFails : Prop :=
  ∀ (k : LockDecoder) (s : State), s.runningState = k.state →
    (s.decPhase = .idle →
      ∃ t, exec k.op s = .next t ∧
        exec k.op { s with decPi := s.msgStart, decN := 0, decPhase := .lockIn } = .next t) ∧
    (s.decPhase = .lockIn → s.decN.toNat < k.need → s.decPi = s.current → exec k.op s = .next s) ∧
    (s.decPhase = .lockIn → s.decN.toNat < k.need → s.decPi ≠ s.current →
      k.good s.syncDuration.toNat (ringRead s s.decPi false).toNat (ringRead s s.decPi true).toNat = false →
      exec k.op s = .next
        { s with decoded := false, msgStart := s.decPi + 1, decPhase := .idle, runningState := .syncSearch })

/-- R211, R213, R221, R223, R232, R234: a valid pulse is counted; at the 20th (Manchester: the 32nd) the decoder commits with
its header and goes back to `msg_start`. -/
def Obligations.LockInCountsAndCommits : Prop :=
  ∀ (k : LockDecoder) (s : State), s.runningState = k.state → s.decPhase = .lockIn → s.decN.toNat < k.need →
    s.decPi ≠ s.current →
    k.good s.syncDuration.toNat (ringRead s s.decPi false).toNat (ringRead s s.decPi true).toNat = true →
    let u : State := { s with decN := s.decN + 1, decPi := s.decPi + 1 }
    ∃ t, exec k.op s = .next t ∧
      exec k.op (if s.decN.toNat + 1 = k.need then k.committed u else u) = .next t

/-- R214, R215: the ASK decoder waits at the sampler, stuffs one bit per pulse (1 when the high count exceeds the low), and ends
at a slot with a low count of 255, which yields no bit. -/
def Obligations.AskEmits : Prop :=
  ∀ s : State, s.runningState = .decodingAsk → s.decPhase = .emit →
    (s.decPi = s.current → exec .dispatchDecodeAsk s = .next s) ∧
    (s.decPi ≠ s.current → ringRead s s.decPi false = 255 →
      exec .dispatchDecodeAsk s = .next (endedAt (s.decPi + 1) s)) ∧
    (s.decPi ≠ s.current → ringRead s s.decPi false ≠ 255 →
      let b := decide ((ringRead s s.decPi false).toNat < (ringRead s s.decPi true).toNat)
      ∃ t, exec .dispatchDecodeAsk s = .next t ∧
        exec .dispatchDecodeAsk { stuffBit b s with decPi := s.decPi + 1 } = .next t)

/-- R224, R225: the OOK decoder stuffs 0 for a full-length low count and then 1 for a full-length high count. -/
def Obligations.OokEmits : Prop :=
  ∀ s : State, s.runningState = .decodingOok → s.decPhase = .emit →
    (s.decPi = s.current → exec .dispatchDecodeOok s = .next s) ∧
    (s.decPi ≠ s.current → ringRead s s.decPi false = 255 →
      exec .dispatchDecodeOok s = .next (endedAt (s.decPi + 1) s)) ∧
    (s.decPi ≠ s.current → ringRead s s.decPi false ≠ 255 →
      let sd : Int := s.syncDuration.toNat
      let low := near sd (ringRead s s.decPi false).toNat sd
      let high := near sd (ringRead s s.decPi true).toNat sd
      let u := if low then stuffBit false s else s
      let v := if high then stuffBit true u else u
      ∃ t, exec .dispatchDecodeOok s = .next t ∧
        exec .dispatchDecodeOok { v with decPi := s.decPi + 1 } = .next t)

/-- R235, R236, R238: the Manchester decoder ends at 0xd0 bits (resuming at the unconsumed pulse), waits at the sampler, ends at
a new slot with a low count of 255, and otherwise consumes one half-pulse. -/
def Obligations.ManchesterEmits : Prop :=
  ∀ s : State, s.runningState = .decodingManchester → s.decPhase = .emit →
    (0xd0 ≤ s.bitCount.toNat → exec .dispatchDecodeManchester s = .next (endedAt s.decPi s)) ∧
    (s.bitCount.toNat < 0xd0 → s.decPi = s.current → exec .dispatchDecodeManchester s = .next s) ∧
    (s.bitCount.toNat < 0xd0 → s.decPi ≠ s.current → s.mPhase = false → ringRead s s.decPi false = 255 →
      exec .dispatchDecodeManchester s = .next (endedAt (s.decPi + 1) s)) ∧
    (s.bitCount.toNat < 0xd0 → s.decPi ≠ s.current → ¬(s.mPhase = false ∧ ringRead s s.decPi false = 255) →
      let h : Int := (ringRead s s.decPi s.mPhase).toNat
      let sd : Int := s.syncDuration.toNat
      let u := catchUp s
      let full : Prop := ((h - sd).natAbs : Int) < sd / 4
      let v : State :=
        { u with
          mBit := if full then u.mPhase else u.mBit
          demiClock := if full then u.demiClock + 2 else u.demiClock + 1 }
      let w := catchUp v
      ∃ t, exec .dispatchDecodeManchester s = .next t ∧
        exec .dispatchDecodeManchester
          (if s.mPhase then { w with mPhase := false, decPi := s.decPi + 1 } else { w with mPhase := true }) =
          .next t)

/-- R237: `CatchUp` emits the latched bit when `stuff_clock` leaves an odd value, and advances it by one unless the clocks are
equal; after every step of a Manchester decode in its emission phase the clocks differ by 0 or 1. -/
def Obligations.ManchesterClocksAgree : Prop :=
  (∀ s : State, s.stuffClock = s.demiClock → catchUp s = s) ∧
  (∀ s : State, s.stuffClock ≠ s.demiClock → s.stuffClock.toNat % 2 = 1 →
    catchUp s = { stuffBit s.mBit s with stuffClock := s.stuffClock + 1 }) ∧
  (∀ s : State, s.stuffClock ≠ s.demiClock → s.stuffClock.toNat % 2 = 0 →
    catchUp s = { s with stuffClock := s.stuffClock + 1 }) ∧
  (∀ s t : State, s.runningState = .decodingManchester → (s.decPhase = .emit → ClocksAgree s) →
    exec .dispatchDecodeManchester s = .next t → t.decPhase = .emit → ClocksAgree t)

/-- R245 to R247: the raw dumper prints its header at entry, waits at the sampler, prints each pulse high count first and counts
it, and ends at a low count of 255. -/
def Obligations.RawDumps : Prop :=
  ∀ s : State, s.runningState = .decodeRawPulses →
    (s.decPhase = .idle →
      ∃ t, exec .dispatchDecodePulses s = .next t ∧
        exec .dispatchDecodePulses
          { s with
            decoded := true, msgType := .p, uartTx := s.uartTx ++ [0x4D, 0x50, 0x3A], decPi := s.msgStart
            decPhase := .emit } = .next t) ∧
    (s.decPhase = .emit → s.decPi = s.current → exec .dispatchDecodePulses s = .next s) ∧
    (s.decPhase = .emit → s.decPi ≠ s.current → ringRead s s.decPi false = 255 →
      exec .dispatchDecodePulses s = .next
        { s with msgStart := s.decPi + 1, decPhase := .idle, runningState := .decodeDone }) ∧
    (s.decPhase = .emit → s.decPi ≠ s.current → ringRead s s.decPi false ≠ 255 →
      ∃ t, exec .dispatchDecodePulses s = .next t ∧
        exec .dispatchDecodePulses
          { s with
            uartTx := s.uartTx ++ hex2 (ringRead s s.decPi true) ++ hex2 (ringRead s s.decPi false)
            checksum := s.checksum + ringRead s s.decPi true + ringRead s s.decPi false
            bitCount := s.bitCount + 1
            decPi := s.decPi + 1 } = .next t)

/-- R122 (the "writes" of its four decode rows): each decoder completes from every state and writes no element but its row's. ASK
and OOK: their locals, the emitter's elements, `decoded`, `msg_type`, `msg_start` and `running_state`; Manchester the same and its
two bits and two clocks; the raw dumper neither these nor `byte_accumulator` (R246), nor, having no lock-in, `dec_n` (R245). -/
def Obligations.DecodersFrame : Prop :=
  ∀ s : State,
    (∀ i : Instr, i ∈ bitDecoders → ∃ t, exec i s = .next t ∧
      t = { s with
            decPhase := t.decPhase, decPi := t.decPi, decN := t.decN, decoded := t.decoded, msgType := t.msgType
            msgStart := t.msgStart, runningState := t.runningState, byteAccumulator := t.byteAccumulator
            bitCount := t.bitCount, checksum := t.checksum, uartTx := t.uartTx }) ∧
    (∃ t, exec .dispatchDecodeManchester s = .next t ∧
      t = { s with
            decPhase := t.decPhase, decPi := t.decPi, decN := t.decN, mPhase := t.mPhase, mBit := t.mBit
            demiClock := t.demiClock, stuffClock := t.stuffClock, decoded := t.decoded, msgType := t.msgType
            msgStart := t.msgStart, runningState := t.runningState, byteAccumulator := t.byteAccumulator
            bitCount := t.bitCount, checksum := t.checksum, uartTx := t.uartTx }) ∧
    (∃ t, exec .dispatchDecodePulses s = .next t ∧
      t = { s with
            decPhase := t.decPhase, decPi := t.decPi, decoded := t.decoded, msgType := t.msgType
            msgStart := t.msgStart, runningState := t.runningState, bitCount := t.bitCount, checksum := t.checksum
            uartTx := t.uartTx })

/-! ## The line emitter -/

/-- R251 to R253: a stuffed bit goes to position `7 - bit_count mod 8`; the eighth prints the byte as two digits, adds it to the
checksum and clears the accumulator; a last partial byte is printed the same way. -/
def Obligations.BitsAndPartialBytes : Prop :=
  (∀ (b : Bool) (s : State),
    let acc : Byte := s.byteAccumulator ||| (BitVec.ofNat 8 (if b then 2 ^ (7 - s.bitCount.toNat % 8) else 0))
    ((s.bitCount + 1).toNat % 8 ≠ 0 →
      stuffBit b s = { s with byteAccumulator := acc, bitCount := s.bitCount + 1 }) ∧
    ((s.bitCount + 1).toNat % 8 = 0 →
      stuffBit b s =
        { s with
          byteAccumulator := 0, bitCount := s.bitCount + 1, uartTx := s.uartTx ++ hex2 acc
          checksum := s.checksum + acc })) ∧
  (∀ s : State,
    (s.bitCount.toNat % 8 = 0 → flushPartial s = s) ∧
    (s.bitCount.toNat % 8 ≠ 0 →
      flushPartial s =
        { s with
          byteAccumulator := 0, uartTx := s.uartTx ++ hex2 s.byteAccumulator
          checksum := s.checksum + s.byteAccumulator }))

/-- R105, R73 (b): from a byte boundary, `n` stuffed bits and the last flush print the `n` bits most significant first, the unused
low positions 0: eight bits print exactly their byte, and `1 ≤ n < 8` bits print it shifted to the high positions. -/
def Obligations.PayloadIsMsbFirst : Prop :=
  ∀ (n : Nat) (v : Byte) (s : State), 1 ≤ n → n ≤ 8 → v.toNat < 2 ^ n → s.bitCount.toNat % 8 = 0 →
    s.byteAccumulator = 0 →
    let bits := (List.range n).map (fun k => v.getLsbD (n - 1 - k))
    let t := flushPartial (bits.foldl (fun u b => stuffBit b u) s)
    t = { s with
          bitCount := s.bitCount + BitVec.ofNat 8 n
          uartTx := s.uartTx ++ hex2 (BitVec.ofNat 8 (v.toNat * 2 ^ (8 - n)))
          checksum := s.checksum + BitVec.ofNat 8 (v.toNat * 2 ^ (8 - n)) }

/-- R108, R255, the checksum law: every event keeps "header, payload bytes, and `checksum` is 0x55 plus their sum" (from a state
that meets R52 (f), which EventsKeepTaskDiscipline says every event keeps), so a trailer ends a line whose printed checksum is
0x55 plus the payload bytes plus the printed bit count and duration. -/
def Obligations.ChecksumLaw : Prop :=
  (∀ (i : Instr) (s t : State), isEvent i = true → TaskOk s → LineLaw s → exec i s = .next t → LineLaw t) ∧
  (∀ s : State, LineLaw s → s.runningState = .decodeDone →
    ∃ before bs t, exec .dispatchTrailer s = .next t ∧
      t.uartTx = before ++ [0x4D, msgTypeLetter s.msgType, 0x3A] ++ payloadText bs ++
        [0x23] ++ hex2 s.bitCount ++ [0x21] ++ hex2 s.syncDuration ++
        [0x2A] ++ hex2 (0x55 + byteSum bs + s.bitCount + s.syncDuration) ++ [0x0A])

/-- R254: the trailer, run by DISPATCH in `DecodeDone`. -/
def Obligations.TrailerIsEmitted : Prop :=
  ∀ s : State, s.runningState = .decodeDone →
    let sum := s.checksum + s.bitCount + s.syncDuration
    exec .dispatchTrailer s = .next
      { s with
        checksum := sum
        uartTx := s.uartTx ++ ([0x23] ++ hex2 s.bitCount ++ [0x21] ++ hex2 s.syncDuration ++ [0x2A] ++ hex2 sum ++ [0x0A])
        runningState := .syncSearch }

/-! ## The parser's run -/

/-- R268, R270: entry disables the transceiver and starts the clock; with nothing queued the parser waits, and after 1000 ticks
without a byte it leaves by the exit path, emitting nothing (E4, R315). -/
def Obligations.ParserEntersWaitsAndTimesOut : Prop :=
  ∀ s : State, s.runningState = .receivingCommand →
    (s.cpPhase = .entry →
      ∃ t, exec .dispatchReceiveCommand s = .next t ∧ exec .dispatchReceiveCommand (entered s) = .next t) ∧
    (waitsForByte s = true → s.uartRxQ = [] →
      exec .dispatchReceiveCommand s = .next (if 1000 ≤ (s.tickcount - s.cpT0).toNat then afterExit s else s))

/-- R267, R269, R301: a queued byte is taken from the front, the clock restarts, the byte is handled, and the parser goes on
unless it left the line. -/
def Obligations.ParserReadsByteByByte : Prop :=
  ∀ (c : Byte) (rest : List Byte) (s : State), waitsForByte s = true → s.uartRxQ = c :: rest →
    let u := cpHandleByte c { s with uartRxQ := rest, cpT0 := s.tickcount }
    ∃ t, exec .dispatchReceiveCommand s = .next t ∧
      (u.runningState = .receivingCommand → exec .dispatchReceiveCommand u = .next t) ∧
      (u.runningState ≠ .receivingCommand → t = u)

/-- R292: a transmit cycle starts; the parser waits until the driver is `Idle`, counts the cycle and starts the next; after the
third it enables the receiver and goes on with the line. -/
def Obligations.TransmitCycles : Prop :=
  ∀ s : State, s.runningState = .receivingCommand →
    (s.cpPhase = .txStart → exec .dispatchReceiveCommand s = .next (cycleStarted s)) ∧
    (s.cpPhase = .txWait → s.mode ≠ .idle → exec .dispatchReceiveCommand s = .next s) ∧
    (s.cpPhase = .txWait → s.mode = .idle → (s.cpRep + 1).toNat < 3 →
      exec .dispatchReceiveCommand s = .next (cycleStarted { s with cpRep := s.cpRep + 1 })) ∧
    (s.cpPhase = .txWait → s.mode = .idle → ¬((s.cpRep + 1).toNat < 3) →
      let u : State :=
        { s with
          cpRep := s.cpRep + 1
          ocieA := true, ocieB := false, antenna := false, mode := .receiving
          cpPhase := .token, cpT0 := s.tickcount }
      ∃ t, exec .dispatchReceiveCommand s = .next t ∧ exec .dispatchReceiveCommand u = .next t)

/-- R267, R110 to R117: an inbound operation is what the parser does when exactly its bytes are queued (log 5 fixes what it is
when stepped alone). -/
def Obligations.InboundOperationIsItsBytes : Prop :=
  ∀ (i : Instr) (bytes : List Byte) (s : State), inboundBytes i = some bytes →
    s.runningState = .receivingCommand → s.cpPhase ≠ .txStart → s.cpPhase ≠ .txWait → s.uartRxQ = [] →
    ∃ t, exec i s = .next t ∧ exec .dispatchReceiveCommand { s with uartRxQ := bytes } = .next t

/-- R122 (the "writes" of the command parser step): the parser completes from every state; of the sync state it writes
`sync_duration` (R277, R287) and `ss_phase` (R299) only; it writes no element of the decoders, of the transmit driver or of the
timer, nor `wake` and `decoded`; and it takes bytes only from the front of the queue. The stored addresses are in the
statements about the payloads and the `*` token. -/
def Obligations.ParserFrame : Prop :=
  ∀ s : State, ∃ t, exec .dispatchReceiveCommand s = .next t ∧
    t.uartRxQ <:+ s.uartRxQ ∧
    t = { s with
          ring := t.ring, current := t.current, msgStart := t.msgStart, msgEnd := t.msgEnd, mode := t.mode
          ocieA := t.ocieA, ocieB := t.ocieB, antenna := t.antenna, runningState := t.runningState
          syncDuration := t.syncDuration, ssPhase := t.ssPhase, byteAccumulator := t.byteAccumulator
          bitCount := t.bitCount, checksum := t.checksum, msgType := t.msgType, displayPulses := t.displayPulses
          stackReq := t.stackReq, uartRxQ := t.uartRxQ, uartTx := t.uartTx, cpPhase := t.cpPhase, cpType := t.cpType
          cpWr := t.cpWr, cpHold := t.cpHold, cpPhold := t.cpPhold, cpK := t.cpK, cpKw := t.cpKw, cpKi := t.cpKi
          cpT0 := t.cpT0, cpRep := t.cpRep }

/-! ## The inbound operations -/

/-- R277: the headers, at the start of a line. -/
def Obligations.HeadersSeedTheLine : Prop :=
  ∀ s : State, AtLineStart s →
    let u : State :=
      { heard (entered s) with
        checksum := 0x55, bitCount := 0, byteAccumulator := 0, cpWr := 0, cpPhold := none, cpPhase := .token }
    exec .ma s = .next { u with syncDuration := 0x63, cpType := .a, msgType := .a } ∧
    exec .mm s = .next { u with syncDuration := 0x40, cpType := .m, msgType := .m } ∧
    exec .mp s = .next { u with cpType := .p, msgType := .p }

/-- R280, R281: a payload without a pair only opens the payload, for the three rows, whatever `cp_type` is (log 3). -/
def Obligations.EmptyPayloadOnlyOpens : Prop :=
  ∀ (i : Instr) (s : State), AtToken s → i ∈ [Instr.payloadA [], .payloadM [], .payloadP []] →
    exec i s = .next { heard s with cpPhase := .payHi }

/-- R282, R283: one more byte of a type-`'A'` payload adds to the checksum and stores eight pulses from `cp_wr` on, most
significant bit first, a 1 as long-high and a 0 as long-low; every other slot keeps its bytes. -/
def Obligations.PayloadAStoresEightPulses : Prop :=
  ∀ (pairs : List DigitPair) (h l : Byte) (x y : BitVec 4) (s : State), AtToken s → s.cpType = .a →
    Memory.wf s.ring = true → pairsAreHex pairs = true → hexval h = some x → hexval l = some y →
    let v : Byte := BitVec.ofNat 8 (16 * x.toNat + y.toNat)
    ∃ u m, exec (.payloadA pairs) s = .next u ∧
      exec (.payloadA (pairs ++ [(h, l)])) s = .next
        { u with
          ring := m, checksum := u.checksum + v, cpWr := u.cpWr + 8, cpHold := x, cpPhase := .payHi } ∧
      u.syncDuration = s.syncDuration ∧ u.cpType = .a ∧ u.cpPhase = .payHi ∧ Memory.wf m = true ∧
      ∀ j c, Memory.read m (ringAddr j c) =
        if (j - u.cpWr).toNat < 8 then
          (if v.getLsbD (7 - (j - u.cpWr).toNat) = c then
            s.syncDuration - BitVec.ofNat 8 (s.syncDuration.toNat / 4)
          else BitVec.ofNat 8 (s.syncDuration.toNat / 4))
        else ringRead u j c

/-- R282, R284: a type-`'M'` payload adds its bytes to the checksum and stores nothing. -/
def Obligations.PayloadMOnlyFolds : Prop :=
  ∀ (pairs : List DigitPair) (h l : Byte) (x y : BitVec 4) (s : State), AtToken s → s.cpType = .m →
    pairsAreHex pairs = true → hexval h = some x → hexval l = some y →
    ∃ sum hold, exec (.payloadM pairs) s = .next
        { heard s with checksum := sum, cpHold := hold, cpPhase := .payHi } ∧
      exec (.payloadM (pairs ++ [(h, l)])) s = .next
        { heard s with
          checksum := sum + BitVec.ofNat 8 (16 * x.toNat + y.toNat), cpHold := x, cpPhase := .payHi }

/-- R282, R285: one more byte of a type-`'P'` payload is held as the high count, or completes the pulse held and stores it at
`cp_wr`; every other slot keeps its bytes. -/
def Obligations.PayloadPStoresPulsePairs : Prop :=
  ∀ (pairs : List DigitPair) (h l : Byte) (x y : BitVec 4) (s : State), AtToken s → s.cpType = .p →
    Memory.wf s.ring = true → pairsAreHex pairs = true → hexval h = some x → hexval l = some y →
    let v : Byte := BitVec.ofNat 8 (16 * x.toNat + y.toNat)
    ∃ u, exec (.payloadP pairs) s = .next u ∧ u.cpType = .p ∧ u.cpPhase = .payHi ∧
      (u.cpPhold = none →
        exec (.payloadP (pairs ++ [(h, l)])) s = .next
          { u with checksum := u.checksum + v, cpPhold := some v, cpHold := x, cpPhase := .payHi }) ∧
      (∀ p1, u.cpPhold = some p1 →
        ∃ m, exec (.payloadP (pairs ++ [(h, l)])) s = .next
            { u with
              ring := m, checksum := u.checksum + v, cpPhold := none, cpWr := u.cpWr + 1, cpHold := x
              cpPhase := .payHi } ∧
          Memory.wf m = true ∧
          ∀ j c, Memory.read m (ringAddr j c) =
            if j = u.cpWr then (if c then p1 else v) else ringRead u j c)

/-- R287, R288: the `!` and `#` tokens. -/
def Obligations.DurationAndCountTokens : Prop :=
  ∀ (h l : Byte) (x y : BitVec 4) (s : State), AtToken s → hexval h = some x → hexval l = some y →
    let v : Byte := BitVec.ofNat 8 (16 * x.toNat + y.toNat)
    exec (.syncdur h l) s = .next
      { heard s with
        syncDuration := v, checksum := s.checksum + v, cpK := .bang, cpHold := x, cpPhase := .token } ∧
    exec (.bitcount h l) s = .next
      { heard s with bitCount := v, checksum := s.checksum + v, cpK := .hash, cpHold := x, cpPhase := .token }

/-- R289 to R292: the `*` token. A claim that differs emits `!*` and flushes (E2); one that agrees writes the sentinel and the
cursors, and unless the range is 16 or less (E6) goes on to the first transmit cycle, which starts in the same run (R292,
R267). That the row stepped alone starts it at once is the model's choice (log 5); from Receiving it
passes through `disable_transceiver`, which leaves the same end state (R166, log 18). -/
def Obligations.CheckTokenTriggers : Prop :=
  ∀ (h l : Byte) (x y : BitVec 4) (s : State), AtToken s → Memory.wf s.ring = true →
    hexval h = some x → hexval l = some y →
    let v : Byte := BitVec.ofNat 8 (16 * x.toNat + y.toNat)
    let u : State := { heard s with cpK := .star, cpHold := x }
    (v ≠ s.checksum →
      exec (.check h l) s = .next { u with uartTx := s.uartTx ++ [0x21, 0x2A, 0x0A], cpPhase := .flush }) ∧
    (v = s.checksum → ∃ m,
      exec (.check h l) s = .next
        (if (s.bitCount + 1).toNat ≤ 16 then
          { u with ring := m, msgEnd := s.bitCount + 1, msgStart := 0, cpPhase := .token }
        else cycleStarted { u with ring := m, msgEnd := s.bitCount + 1, msgStart := 0, cpRep := 0 }) ∧
      Memory.wf m = true ∧
      ∀ j c, Memory.read m (ringAddr j c) =
        if j = s.bitCount then (if c then 0 else 255) else ringRead s j c)

/-- R279, R297, R298: an argument whose second character is no hex digit is an unexpected byte; one whose first is none is, and
the second character is then flushed, ends the line, or stays queued behind a line that ended. -/
def Obligations.BadArgumentDigits : Prop :=
  ∀ (k : ArgToken) (h l : Byte) (s : State), AtToken s →
    let i : Instr := match k with
      | .bang => .syncdur h l
      | .hash => .bitcount h l
      | .star => .check h l
    let u : State := { heard s with cpK := k }
    (∀ x, hexval h = some x → hexval l = none →
      exec i s = .next (afterUnexpected l { u with cpHold := x, cpPhase := .argLo })) ∧
    (hexval h = none → h ≠ 0x0A →
      exec i s = .next
        (if l = 0x0A then afterExit (afterUnexpected h { u with cpPhase := .argHi })
        else afterUnexpected h { u with cpPhase := .argHi })) ∧
    (h = 0x0A →
      exec i s = .next (afterUnexpected h { u with cpPhase := .argHi, uartRxQ := l :: s.uartRxQ }))

/-- R300, R299: the end of a line answers `*OK` and takes the exit path, which re-enables the receiver, clears the line state
and the cursors, and returns to the search; also as the outbound record stepped alone (log 6). -/
def Obligations.EndOfLineAnswersOk : Prop :=
  (∀ s : State, AtToken s → exec .eol s = .next (afterOk (heard s))) ∧
  (∀ s : State, exec .outOk s = .next (afterOk s))

/-- R294 to R296: the keyword lines. -/
def Obligations.KeywordsSetTheirFlag : Prop :=
  ∀ s : State, AtLineStart s →
    let u : State := { heard (entered s) with cpKi := 6, cpPhase := .kw }
    exec .pulse s = .next (afterOk { u with cpKw := .pulse, displayPulses := true }) ∧
    exec .demod s = .next (afterOk { u with cpKw := .demod, displayPulses := false }) ∧
    exec .stack s = .next (afterOk { u with cpKw := .stack, stackReq := true })

/-- R313, R297, R298: a byte the phase does not accept emits `!`, the byte and a newline and flushes the line, or ends it at once
when it is the newline; while flushing, nothing raises, and the newline takes the exit path. -/
def Obligations.UnexpectedByteIsFlushed : Prop :=
  ∀ (c : Byte) (s : State), s.runningState = .receivingCommand →
    (raisesUnexpected s c = true →
      exec (.unexpected c) s = .next (afterUnexpected c (heard (entered s)))) ∧
    (s.cpPhase = .flush →
      exec (.unexpected c) s = .next (if c = 0x0A then afterExit (heard s) else heard s))

/-! ## Procedures and outbound records -/

/-- R160, R161, R162: the end states of the three transceiver procedures; they touch nothing else (R163). -/
def Obligations.TransceiverProcedures : Prop :=
  ∀ s : State,
    exec .enableReceiver s = .next { s with ocieA := true, ocieB := false, antenna := false, mode := .receiving } ∧
    exec .enableTransmitter s = .next
      { s with ocieA := false, ocieB := true, antenna := true, mode := .startTransmit } ∧
    exec .disableTransceiver s = .next { s with ocieA := false, ocieB := false, antenna := false, mode := .idle }

/-- R213, R223, R234, R245: each outbound header is its decoder's commit (stepped alone, log 6). -/
def Obligations.OutboundHeadersCommit : Prop :=
  ∀ s : State,
    exec .outMa s = .next (LockDecoder.committed .ask s) ∧
    exec .outMo s = .next (LockDecoder.committed .ook s) ∧
    exec .outMm s = .next (LockDecoder.committed .man s) ∧
    exec .outMp s = .next
      { s with
        decoded := true, msgType := .p, uartTx := s.uartTx ++ [0x4D, 0x50, 0x3A], decPi := s.msgStart
        decPhase := .emit }

/-- R251, R246, R254: a payload byte is printed and added to the checksum; a dumped pulse is printed high count first, both counts
added, the pulse counted and stepped over; a trailer record is the trailer, whose fields are what the state prints (stepped
alone, log 6). -/
def Obligations.OutboundPayloadAndTrailer : Prop :=
  ∀ (v p1 p0 n d c : Byte) (s : State),
    let sum := s.checksum + s.bitCount + s.syncDuration
    exec (.outByte v) s = .next { s with uartTx := s.uartTx ++ hex2 v, checksum := s.checksum + v } ∧
    exec (.outPulse p1 p0) s = .next
      { s with
        uartTx := s.uartTx ++ hex2 p1 ++ hex2 p0, checksum := s.checksum + p1 + p0, bitCount := s.bitCount + 1
        decPi := s.decPi + 1 } ∧
    exec (.outTrailer n d c) s = .next
      { s with
        checksum := sum
        uartTx := s.uartTx ++ ([0x23] ++ hex2 s.bitCount ++ [0x21] ++ hex2 s.syncDuration ++ [0x2A] ++ hex2 sum ++ [0x0A])
        runningState := .syncSearch }

/-- R297, R290: the error responses (stepped alone, log 6). -/
def Obligations.OutboundErrors : Prop :=
  ∀ (c : Byte) (s : State),
    exec (.outErrbyte c) s = .next (afterUnexpected c s) ∧
    exec .outErrsum s = .next { s with uartTx := s.uartTx ++ [0x21, 0x2A, 0x0A], cpPhase := .flush }
end

