-- ==== Sys2Proof/Laws/Arith.lean ====
section
/-! SUPPORT. The spec's arithmetic (R9, R10) as bit-vector arithmetic: a store keeps the value modulo 2^n, so cursor steps, counts
and sums are additions of their width. -/

namespace Sys2Proof.Machine

theorem inc8_eq (c : Byte) : inc8 c = c + 1 := by
  apply BitVec.eq_of_toNat_eq
  simp [inc8]

theorem ofNat_add_toNat (a b : Byte) : BitVec.ofNat 8 (a.toNat + b.toNat) = a + b := by
  apply BitVec.eq_of_toNat_eq
  simp

theorem satInc_eq (v : Byte) : satInc v = if v.toNat < 255 then v + 1 else 255 := by
  unfold satInc
  split
  · apply BitVec.eq_of_toNat_eq
    simp
  · rfl

theorem satInc_toNat (v : Byte) : (satInc v).toNat = min (v.toNat + 1) 255 := by
  have := v.isLt
  unfold satInc
  split
  · simp only [BitVec.toNat_ofNat]
    omega
  · change 255 = _
    omega

theorem countTick_eq (s : State) : countTick s = { s with tickcount := s.tickcount + 1 } := by
  have h : BitVec.ofNat 16 (s.tickcount.toNat + 1) = s.tickcount + 1 := by
    apply BitVec.eq_of_toNat_eq
    simp
  unfold countTick
  rw [h]

theorem foldChecksum_eq (v : Byte) (s : State) : foldChecksum v s = { s with checksum := s.checksum + v } := by
  unfold foldChecksum
  rw [ofNat_add_toNat]

theorem emitByte_eq (v : Byte) (s : State) :
    emitByte v s = { s with uartTx := s.uartTx ++ hex2 v, checksum := s.checksum + v } := by
  unfold emitByte
  rw [foldChecksum_eq]
  rfl

/-- Distances as integers (R8, R10). -/
theorem absdiff_eq (x y : Nat) : absdiff x y = ((x : Int) - y).natAbs := by
  unfold absdiff
  omega

end Sys2Proof.Machine
end

