-- ==== Sys2Proof/Laws/State.lean ====
section
/-! SUPPORT. What each shared update does to each element of State: one lemma per element, so that no proof unfolds a record
update. -/

namespace Sys2Proof.Machine

section enableReceiver

variable (s : State)

@[simp] theorem enableReceiver_ring : (enableReceiver s).ring = s.ring := rfl
@[simp] theorem enableReceiver_current : (enableReceiver s).current = s.current := rfl
@[simp] theorem enableReceiver_msgStart : (enableReceiver s).msgStart = s.msgStart := rfl
@[simp] theorem enableReceiver_msgEnd : (enableReceiver s).msgEnd = s.msgEnd := rfl
@[simp] theorem enableReceiver_tickcount : (enableReceiver s).tickcount = s.tickcount := rfl
@[simp] theorem enableReceiver_prevLevel : (enableReceiver s).prevLevel = s.prevLevel := rfl
@[simp] theorem enableReceiver_mode : (enableReceiver s).mode = .receiving := rfl
@[simp] theorem enableReceiver_ocieA : (enableReceiver s).ocieA = true := rfl
@[simp] theorem enableReceiver_ocieB : (enableReceiver s).ocieB = false := rfl
@[simp] theorem enableReceiver_antenna : (enableReceiver s).antenna = false := rfl
@[simp] theorem enableReceiver_txPin : (enableReceiver s).txPin = s.txPin := rfl
@[simp] theorem enableReceiver_txRemLow : (enableReceiver s).txRemLow = s.txRemLow := rfl
@[simp] theorem enableReceiver_txRemHigh : (enableReceiver s).txRemHigh = s.txRemHigh := rfl
@[simp] theorem enableReceiver_txBit : (enableReceiver s).txBit = s.txBit := rfl
@[simp] theorem enableReceiver_runningState : (enableReceiver s).runningState = s.runningState := rfl
@[simp] theorem enableReceiver_syncDuration : (enableReceiver s).syncDuration = s.syncDuration := rfl
@[simp] theorem enableReceiver_syncLen : (enableReceiver s).syncLen = s.syncLen := rfl
@[simp] theorem enableReceiver_manchesterHits : (enableReceiver s).manchesterHits = s.manchesterHits := rfl
@[simp] theorem enableReceiver_syncStart : (enableReceiver s).syncStart = s.syncStart := rfl
@[simp] theorem enableReceiver_ssPi : (enableReceiver s).ssPi = s.ssPi := rfl
@[simp] theorem enableReceiver_ssPhase : (enableReceiver s).ssPhase = s.ssPhase := rfl
@[simp] theorem enableReceiver_ssChoice : (enableReceiver s).ssChoice = s.ssChoice := rfl
@[simp] theorem enableReceiver_ssRetried : (enableReceiver s).ssRetried = s.ssRetried := rfl
@[simp] theorem enableReceiver_byteAccumulator : (enableReceiver s).byteAccumulator = s.byteAccumulator := rfl
@[simp] theorem enableReceiver_bitCount : (enableReceiver s).bitCount = s.bitCount := rfl
@[simp] theorem enableReceiver_checksum : (enableReceiver s).checksum = s.checksum := rfl
@[simp] theorem enableReceiver_msgType : (enableReceiver s).msgType = s.msgType := rfl
@[simp] theorem enableReceiver_decoded : (enableReceiver s).decoded = s.decoded := rfl
@[simp] theorem enableReceiver_decPhase : (enableReceiver s).decPhase = s.decPhase := rfl
@[simp] theorem enableReceiver_decPi : (enableReceiver s).decPi = s.decPi := rfl
@[simp] theorem enableReceiver_decN : (enableReceiver s).decN = s.decN := rfl
@[simp] theorem enableReceiver_mPhase : (enableReceiver s).mPhase = s.mPhase := rfl
@[simp] theorem enableReceiver_mBit : (enableReceiver s).mBit = s.mBit := rfl
@[simp] theorem enableReceiver_demiClock : (enableReceiver s).demiClock = s.demiClock := rfl
@[simp] theorem enableReceiver_stuffClock : (enableReceiver s).stuffClock = s.stuffClock := rfl
@[simp] theorem enableReceiver_displayPulses : (enableReceiver s).displayPulses = s.displayPulses := rfl
@[simp] theorem enableReceiver_stackReq : (enableReceiver s).stackReq = s.stackReq := rfl
@[simp] theorem enableReceiver_wake : (enableReceiver s).wake = s.wake := rfl
@[simp] theorem enableReceiver_uartRxQ : (enableReceiver s).uartRxQ = s.uartRxQ := rfl
@[simp] theorem enableReceiver_uartTx : (enableReceiver s).uartTx = s.uartTx := rfl
@[simp] theorem enableReceiver_cpPhase : (enableReceiver s).cpPhase = s.cpPhase := rfl
@[simp] theorem enableReceiver_cpType : (enableReceiver s).cpType = s.cpType := rfl
@[simp] theorem enableReceiver_cpWr : (enableReceiver s).cpWr = s.cpWr := rfl
@[simp] theorem enableReceiver_cpHold : (enableReceiver s).cpHold = s.cpHold := rfl
@[simp] theorem enableReceiver_cpPhold : (enableReceiver s).cpPhold = s.cpPhold := rfl
@[simp] theorem enableReceiver_cpK : (enableReceiver s).cpK = s.cpK := rfl
@[simp] theorem enableReceiver_cpKw : (enableReceiver s).cpKw = s.cpKw := rfl
@[simp] theorem enableReceiver_cpKi : (enableReceiver s).cpKi = s.cpKi := rfl
@[simp] theorem enableReceiver_cpT0 : (enableReceiver s).cpT0 = s.cpT0 := rfl
@[simp] theorem enableReceiver_cpRep : (enableReceiver s).cpRep = s.cpRep := rfl
@[simp] theorem enableReceiver_script : (enableReceiver s).script = s.script := rfl
@[simp] theorem enableReceiver_freeIx : (enableReceiver s).freeIx = s.freeIx := rfl

end enableReceiver

section enableTransmitter

variable (s : State)

@[simp] theorem enableTransmitter_ring : (enableTransmitter s).ring = s.ring := rfl
@[simp] theorem enableTransmitter_current : (enableTransmitter s).current = s.current := rfl
@[simp] theorem enableTransmitter_msgStart : (enableTransmitter s).msgStart = s.msgStart := rfl
@[simp] theorem enableTransmitter_msgEnd : (enableTransmitter s).msgEnd = s.msgEnd := rfl
@[simp] theorem enableTransmitter_tickcount : (enableTransmitter s).tickcount = s.tickcount := rfl
@[simp] theorem enableTransmitter_prevLevel : (enableTransmitter s).prevLevel = s.prevLevel := rfl
@[simp] theorem enableTransmitter_mode : (enableTransmitter s).mode = .startTransmit := rfl
@[simp] theorem enableTransmitter_ocieA : (enableTransmitter s).ocieA = false := rfl
@[simp] theorem enableTransmitter_ocieB : (enableTransmitter s).ocieB = true := rfl
@[simp] theorem enableTransmitter_antenna : (enableTransmitter s).antenna = true := rfl
@[simp] theorem enableTransmitter_txPin : (enableTransmitter s).txPin = s.txPin := rfl
@[simp] theorem enableTransmitter_txRemLow : (enableTransmitter s).txRemLow = s.txRemLow := rfl
@[simp] theorem enableTransmitter_txRemHigh : (enableTransmitter s).txRemHigh = s.txRemHigh := rfl
@[simp] theorem enableTransmitter_txBit : (enableTransmitter s).txBit = s.txBit := rfl
@[simp] theorem enableTransmitter_runningState : (enableTransmitter s).runningState = s.runningState := rfl
@[simp] theorem enableTransmitter_syncDuration : (enableTransmitter s).syncDuration = s.syncDuration := rfl
@[simp] theorem enableTransmitter_syncLen : (enableTransmitter s).syncLen = s.syncLen := rfl
@[simp] theorem enableTransmitter_manchesterHits : (enableTransmitter s).manchesterHits = s.manchesterHits := rfl
@[simp] theorem enableTransmitter_syncStart : (enableTransmitter s).syncStart = s.syncStart := rfl
@[simp] theorem enableTransmitter_ssPi : (enableTransmitter s).ssPi = s.ssPi := rfl
@[simp] theorem enableTransmitter_ssPhase : (enableTransmitter s).ssPhase = s.ssPhase := rfl
@[simp] theorem enableTransmitter_ssChoice : (enableTransmitter s).ssChoice = s.ssChoice := rfl
@[simp] theorem enableTransmitter_ssRetried : (enableTransmitter s).ssRetried = s.ssRetried := rfl
@[simp] theorem enableTransmitter_byteAccumulator : (enableTransmitter s).byteAccumulator = s.byteAccumulator := rfl
@[simp] theorem enableTransmitter_bitCount : (enableTransmitter s).bitCount = s.bitCount := rfl
@[simp] theorem enableTransmitter_checksum : (enableTransmitter s).checksum = s.checksum := rfl
@[simp] theorem enableTransmitter_msgType : (enableTransmitter s).msgType = s.msgType := rfl
@[simp] theorem enableTransmitter_decoded : (enableTransmitter s).decoded = s.decoded := rfl
@[simp] theorem enableTransmitter_decPhase : (enableTransmitter s).decPhase = s.decPhase := rfl
@[simp] theorem enableTransmitter_decPi : (enableTransmitter s).decPi = s.decPi := rfl
@[simp] theorem enableTransmitter_decN : (enableTransmitter s).decN = s.decN := rfl
@[simp] theorem enableTransmitter_mPhase : (enableTransmitter s).mPhase = s.mPhase := rfl
@[simp] theorem enableTransmitter_mBit : (enableTransmitter s).mBit = s.mBit := rfl
@[simp] theorem enableTransmitter_demiClock : (enableTransmitter s).demiClock = s.demiClock := rfl
@[simp] theorem enableTransmitter_stuffClock : (enableTransmitter s).stuffClock = s.stuffClock := rfl
@[simp] theorem enableTransmitter_displayPulses : (enableTransmitter s).displayPulses = s.displayPulses := rfl
@[simp] theorem enableTransmitter_stackReq : (enableTransmitter s).stackReq = s.stackReq := rfl
@[simp] theorem enableTransmitter_wake : (enableTransmitter s).wake = s.wake := rfl
@[simp] theorem enableTransmitter_uartRxQ : (enableTransmitter s).uartRxQ = s.uartRxQ := rfl
@[simp] theorem enableTransmitter_uartTx : (enableTransmitter s).uartTx = s.uartTx := rfl
@[simp] theorem enableTransmitter_cpPhase : (enableTransmitter s).cpPhase = s.cpPhase := rfl
@[simp] theorem enableTransmitter_cpType : (enableTransmitter s).cpType = s.cpType := rfl
@[simp] theorem enableTransmitter_cpWr : (enableTransmitter s).cpWr = s.cpWr := rfl
@[simp] theorem enableTransmitter_cpHold : (enableTransmitter s).cpHold = s.cpHold := rfl
@[simp] theorem enableTransmitter_cpPhold : (enableTransmitter s).cpPhold = s.cpPhold := rfl
@[simp] theorem enableTransmitter_cpK : (enableTransmitter s).cpK = s.cpK := rfl
@[simp] theorem enableTransmitter_cpKw : (enableTransmitter s).cpKw = s.cpKw := rfl
@[simp] theorem enableTransmitter_cpKi : (enableTransmitter s).cpKi = s.cpKi := rfl
@[simp] theorem enableTransmitter_cpT0 : (enableTransmitter s).cpT0 = s.cpT0 := rfl
@[simp] theorem enableTransmitter_cpRep : (enableTransmitter s).cpRep = s.cpRep := rfl
@[simp] theorem enableTransmitter_script : (enableTransmitter s).script = s.script := rfl
@[simp] theorem enableTransmitter_freeIx : (enableTransmitter s).freeIx = s.freeIx := rfl

end enableTransmitter

section disableTransceiver

variable (s : State)

@[simp] theorem disableTransceiver_ring : (disableTransceiver s).ring = s.ring := rfl
@[simp] theorem disableTransceiver_current : (disableTransceiver s).current = s.current := rfl
@[simp] theorem disableTransceiver_msgStart : (disableTransceiver s).msgStart = s.msgStart := rfl
@[simp] theorem disableTransceiver_msgEnd : (disableTransceiver s).msgEnd = s.msgEnd := rfl
@[simp] theorem disableTransceiver_tickcount : (disableTransceiver s).tickcount = s.tickcount := rfl
@[simp] theorem disableTransceiver_prevLevel : (disableTransceiver s).prevLevel = s.prevLevel := rfl
@[simp] theorem disableTransceiver_mode : (disableTransceiver s).mode = .idle := rfl
@[simp] theorem disableTransceiver_ocieA : (disableTransceiver s).ocieA = false := rfl
@[simp] theorem disableTransceiver_ocieB : (disableTransceiver s).ocieB = false := rfl
@[simp] theorem disableTransceiver_antenna : (disableTransceiver s).antenna = false := rfl
@[simp] theorem disableTransceiver_txPin : (disableTransceiver s).txPin = s.txPin := rfl
@[simp] theorem disableTransceiver_txRemLow : (disableTransceiver s).txRemLow = s.txRemLow := rfl
@[simp] theorem disableTransceiver_txRemHigh : (disableTransceiver s).txRemHigh = s.txRemHigh := rfl
@[simp] theorem disableTransceiver_txBit : (disableTransceiver s).txBit = s.txBit := rfl
@[simp] theorem disableTransceiver_runningState : (disableTransceiver s).runningState = s.runningState := rfl
@[simp] theorem disableTransceiver_syncDuration : (disableTransceiver s).syncDuration = s.syncDuration := rfl
@[simp] theorem disableTransceiver_syncLen : (disableTransceiver s).syncLen = s.syncLen := rfl
@[simp] theorem disableTransceiver_manchesterHits : (disableTransceiver s).manchesterHits = s.manchesterHits := rfl
@[simp] theorem disableTransceiver_syncStart : (disableTransceiver s).syncStart = s.syncStart := rfl
@[simp] theorem disableTransceiver_ssPi : (disableTransceiver s).ssPi = s.ssPi := rfl
@[simp] theorem disableTransceiver_ssPhase : (disableTransceiver s).ssPhase = s.ssPhase := rfl
@[simp] theorem disableTransceiver_ssChoice : (disableTransceiver s).ssChoice = s.ssChoice := rfl
@[simp] theorem disableTransceiver_ssRetried : (disableTransceiver s).ssRetried = s.ssRetried := rfl
@[simp] theorem disableTransceiver_byteAccumulator : (disableTransceiver s).byteAccumulator = s.byteAccumulator := rfl
@[simp] theorem disableTransceiver_bitCount : (disableTransceiver s).bitCount = s.bitCount := rfl
@[simp] theorem disableTransceiver_checksum : (disableTransceiver s).checksum = s.checksum := rfl
@[simp] theorem disableTransceiver_msgType : (disableTransceiver s).msgType = s.msgType := rfl
@[simp] theorem disableTransceiver_decoded : (disableTransceiver s).decoded = s.decoded := rfl
@[simp] theorem disableTransceiver_decPhase : (disableTransceiver s).decPhase = s.decPhase := rfl
@[simp] theorem disableTransceiver_decPi : (disableTransceiver s).decPi = s.decPi := rfl
@[simp] theorem disableTransceiver_decN : (disableTransceiver s).decN = s.decN := rfl
@[simp] theorem disableTransceiver_mPhase : (disableTransceiver s).mPhase = s.mPhase := rfl
@[simp] theorem disableTransceiver_mBit : (disableTransceiver s).mBit = s.mBit := rfl
@[simp] theorem disableTransceiver_demiClock : (disableTransceiver s).demiClock = s.demiClock := rfl
@[simp] theorem disableTransceiver_stuffClock : (disableTransceiver s).stuffClock = s.stuffClock := rfl
@[simp] theorem disableTransceiver_displayPulses : (disableTransceiver s).displayPulses = s.displayPulses := rfl
@[simp] theorem disableTransceiver_stackReq : (disableTransceiver s).stackReq = s.stackReq := rfl
@[simp] theorem disableTransceiver_wake : (disableTransceiver s).wake = s.wake := rfl
@[simp] theorem disableTransceiver_uartRxQ : (disableTransceiver s).uartRxQ = s.uartRxQ := rfl
@[simp] theorem disableTransceiver_uartTx : (disableTransceiver s).uartTx = s.uartTx := rfl
@[simp] theorem disableTransceiver_cpPhase : (disableTransceiver s).cpPhase = s.cpPhase := rfl
@[simp] theorem disableTransceiver_cpType : (disableTransceiver s).cpType = s.cpType := rfl
@[simp] theorem disableTransceiver_cpWr : (disableTransceiver s).cpWr = s.cpWr := rfl
@[simp] theorem disableTransceiver_cpHold : (disableTransceiver s).cpHold = s.cpHold := rfl
@[simp] theorem disableTransceiver_cpPhold : (disableTransceiver s).cpPhold = s.cpPhold := rfl
@[simp] theorem disableTransceiver_cpK : (disableTransceiver s).cpK = s.cpK := rfl
@[simp] theorem disableTransceiver_cpKw : (disableTransceiver s).cpKw = s.cpKw := rfl
@[simp] theorem disableTransceiver_cpKi : (disableTransceiver s).cpKi = s.cpKi := rfl
@[simp] theorem disableTransceiver_cpT0 : (disableTransceiver s).cpT0 = s.cpT0 := rfl
@[simp] theorem disableTransceiver_cpRep : (disableTransceiver s).cpRep = s.cpRep := rfl
@[simp] theorem disableTransceiver_script : (disableTransceiver s).script = s.script := rfl
@[simp] theorem disableTransceiver_freeIx : (disableTransceiver s).freeIx = s.freeIx := rfl

end disableTransceiver

section emit

variable (str : List Byte) (s : State)

@[simp] theorem emit_ring : (emit str s).ring = s.ring := rfl
@[simp] theorem emit_current : (emit str s).current = s.current := rfl
@[simp] theorem emit_msgStart : (emit str s).msgStart = s.msgStart := rfl
@[simp] theorem emit_msgEnd : (emit str s).msgEnd = s.msgEnd := rfl
@[simp] theorem emit_tickcount : (emit str s).tickcount = s.tickcount := rfl
@[simp] theorem emit_prevLevel : (emit str s).prevLevel = s.prevLevel := rfl
@[simp] theorem emit_mode : (emit str s).mode = s.mode := rfl
@[simp] theorem emit_ocieA : (emit str s).ocieA = s.ocieA := rfl
@[simp] theorem emit_ocieB : (emit str s).ocieB = s.ocieB := rfl
@[simp] theorem emit_antenna : (emit str s).antenna = s.antenna := rfl
@[simp] theorem emit_txPin : (emit str s).txPin = s.txPin := rfl
@[simp] theorem emit_txRemLow : (emit str s).txRemLow = s.txRemLow := rfl
@[simp] theorem emit_txRemHigh : (emit str s).txRemHigh = s.txRemHigh := rfl
@[simp] theorem emit_txBit : (emit str s).txBit = s.txBit := rfl
@[simp] theorem emit_runningState : (emit str s).runningState = s.runningState := rfl
@[simp] theorem emit_syncDuration : (emit str s).syncDuration = s.syncDuration := rfl
@[simp] theorem emit_syncLen : (emit str s).syncLen = s.syncLen := rfl
@[simp] theorem emit_manchesterHits : (emit str s).manchesterHits = s.manchesterHits := rfl
@[simp] theorem emit_syncStart : (emit str s).syncStart = s.syncStart := rfl
@[simp] theorem emit_ssPi : (emit str s).ssPi = s.ssPi := rfl
@[simp] theorem emit_ssPhase : (emit str s).ssPhase = s.ssPhase := rfl
@[simp] theorem emit_ssChoice : (emit str s).ssChoice = s.ssChoice := rfl
@[simp] theorem emit_ssRetried : (emit str s).ssRetried = s.ssRetried := rfl
@[simp] theorem emit_byteAccumulator : (emit str s).byteAccumulator = s.byteAccumulator := rfl
@[simp] theorem emit_bitCount : (emit str s).bitCount = s.bitCount := rfl
@[simp] theorem emit_checksum : (emit str s).checksum = s.checksum := rfl
@[simp] theorem emit_msgType : (emit str s).msgType = s.msgType := rfl
@[simp] theorem emit_decoded : (emit str s).decoded = s.decoded := rfl
@[simp] theorem emit_decPhase : (emit str s).decPhase = s.decPhase := rfl
@[simp] theorem emit_decPi : (emit str s).decPi = s.decPi := rfl
@[simp] theorem emit_decN : (emit str s).decN = s.decN := rfl
@[simp] theorem emit_mPhase : (emit str s).mPhase = s.mPhase := rfl
@[simp] theorem emit_mBit : (emit str s).mBit = s.mBit := rfl
@[simp] theorem emit_demiClock : (emit str s).demiClock = s.demiClock := rfl
@[simp] theorem emit_stuffClock : (emit str s).stuffClock = s.stuffClock := rfl
@[simp] theorem emit_displayPulses : (emit str s).displayPulses = s.displayPulses := rfl
@[simp] theorem emit_stackReq : (emit str s).stackReq = s.stackReq := rfl
@[simp] theorem emit_wake : (emit str s).wake = s.wake := rfl
@[simp] theorem emit_uartRxQ : (emit str s).uartRxQ = s.uartRxQ := rfl
@[simp] theorem emit_uartTx : (emit str s).uartTx = s.uartTx ++ str := rfl
@[simp] theorem emit_cpPhase : (emit str s).cpPhase = s.cpPhase := rfl
@[simp] theorem emit_cpType : (emit str s).cpType = s.cpType := rfl
@[simp] theorem emit_cpWr : (emit str s).cpWr = s.cpWr := rfl
@[simp] theorem emit_cpHold : (emit str s).cpHold = s.cpHold := rfl
@[simp] theorem emit_cpPhold : (emit str s).cpPhold = s.cpPhold := rfl
@[simp] theorem emit_cpK : (emit str s).cpK = s.cpK := rfl
@[simp] theorem emit_cpKw : (emit str s).cpKw = s.cpKw := rfl
@[simp] theorem emit_cpKi : (emit str s).cpKi = s.cpKi := rfl
@[simp] theorem emit_cpT0 : (emit str s).cpT0 = s.cpT0 := rfl
@[simp] theorem emit_cpRep : (emit str s).cpRep = s.cpRep := rfl
@[simp] theorem emit_script : (emit str s).script = s.script := rfl
@[simp] theorem emit_freeIx : (emit str s).freeIx = s.freeIx := rfl

end emit

section ringWrite

variable (s : State) (i : Byte) (c : Bool) (v : Byte)

@[simp] theorem ringWrite_ring : (ringWrite s i c v).ring = Memory.write s.ring (ringAddr i c) v := rfl
@[simp] theorem ringWrite_current : (ringWrite s i c v).current = s.current := rfl
@[simp] theorem ringWrite_msgStart : (ringWrite s i c v).msgStart = s.msgStart := rfl
@[simp] theorem ringWrite_msgEnd : (ringWrite s i c v).msgEnd = s.msgEnd := rfl
@[simp] theorem ringWrite_tickcount : (ringWrite s i c v).tickcount = s.tickcount := rfl
@[simp] theorem ringWrite_prevLevel : (ringWrite s i c v).prevLevel = s.prevLevel := rfl
@[simp] theorem ringWrite_mode : (ringWrite s i c v).mode = s.mode := rfl
@[simp] theorem ringWrite_ocieA : (ringWrite s i c v).ocieA = s.ocieA := rfl
@[simp] theorem ringWrite_ocieB : (ringWrite s i c v).ocieB = s.ocieB := rfl
@[simp] theorem ringWrite_antenna : (ringWrite s i c v).antenna = s.antenna := rfl
@[simp] theorem ringWrite_txPin : (ringWrite s i c v).txPin = s.txPin := rfl
@[simp] theorem ringWrite_txRemLow : (ringWrite s i c v).txRemLow = s.txRemLow := rfl
@[simp] theorem ringWrite_txRemHigh : (ringWrite s i c v).txRemHigh = s.txRemHigh := rfl
@[simp] theorem ringWrite_txBit : (ringWrite s i c v).txBit = s.txBit := rfl
@[simp] theorem ringWrite_runningState : (ringWrite s i c v).runningState = s.runningState := rfl
@[simp] theorem ringWrite_syncDuration : (ringWrite s i c v).syncDuration = s.syncDuration := rfl
@[simp] theorem ringWrite_syncLen : (ringWrite s i c v).syncLen = s.syncLen := rfl
@[simp] theorem ringWrite_manchesterHits : (ringWrite s i c v).manchesterHits = s.manchesterHits := rfl
@[simp] theorem ringWrite_syncStart : (ringWrite s i c v).syncStart = s.syncStart := rfl
@[simp] theorem ringWrite_ssPi : (ringWrite s i c v).ssPi = s.ssPi := rfl
@[simp] theorem ringWrite_ssPhase : (ringWrite s i c v).ssPhase = s.ssPhase := rfl
@[simp] theorem ringWrite_ssChoice : (ringWrite s i c v).ssChoice = s.ssChoice := rfl
@[simp] theorem ringWrite_ssRetried : (ringWrite s i c v).ssRetried = s.ssRetried := rfl
@[simp] theorem ringWrite_byteAccumulator : (ringWrite s i c v).byteAccumulator = s.byteAccumulator := rfl
@[simp] theorem ringWrite_bitCount : (ringWrite s i c v).bitCount = s.bitCount := rfl
@[simp] theorem ringWrite_checksum : (ringWrite s i c v).checksum = s.checksum := rfl
@[simp] theorem ringWrite_msgType : (ringWrite s i c v).msgType = s.msgType := rfl
@[simp] theorem ringWrite_decoded : (ringWrite s i c v).decoded = s.decoded := rfl
@[simp] theorem ringWrite_decPhase : (ringWrite s i c v).decPhase = s.decPhase := rfl
@[simp] theorem ringWrite_decPi : (ringWrite s i c v).decPi = s.decPi := rfl
@[simp] theorem ringWrite_decN : (ringWrite s i c v).decN = s.decN := rfl
@[simp] theorem ringWrite_mPhase : (ringWrite s i c v).mPhase = s.mPhase := rfl
@[simp] theorem ringWrite_mBit : (ringWrite s i c v).mBit = s.mBit := rfl
@[simp] theorem ringWrite_demiClock : (ringWrite s i c v).demiClock = s.demiClock := rfl
@[simp] theorem ringWrite_stuffClock : (ringWrite s i c v).stuffClock = s.stuffClock := rfl
@[simp] theorem ringWrite_displayPulses : (ringWrite s i c v).displayPulses = s.displayPulses := rfl
@[simp] theorem ringWrite_stackReq : (ringWrite s i c v).stackReq = s.stackReq := rfl
@[simp] theorem ringWrite_wake : (ringWrite s i c v).wake = s.wake := rfl
@[simp] theorem ringWrite_uartRxQ : (ringWrite s i c v).uartRxQ = s.uartRxQ := rfl
@[simp] theorem ringWrite_uartTx : (ringWrite s i c v).uartTx = s.uartTx := rfl
@[simp] theorem ringWrite_cpPhase : (ringWrite s i c v).cpPhase = s.cpPhase := rfl
@[simp] theorem ringWrite_cpType : (ringWrite s i c v).cpType = s.cpType := rfl
@[simp] theorem ringWrite_cpWr : (ringWrite s i c v).cpWr = s.cpWr := rfl
@[simp] theorem ringWrite_cpHold : (ringWrite s i c v).cpHold = s.cpHold := rfl
@[simp] theorem ringWrite_cpPhold : (ringWrite s i c v).cpPhold = s.cpPhold := rfl
@[simp] theorem ringWrite_cpK : (ringWrite s i c v).cpK = s.cpK := rfl
@[simp] theorem ringWrite_cpKw : (ringWrite s i c v).cpKw = s.cpKw := rfl
@[simp] theorem ringWrite_cpKi : (ringWrite s i c v).cpKi = s.cpKi := rfl
@[simp] theorem ringWrite_cpT0 : (ringWrite s i c v).cpT0 = s.cpT0 := rfl
@[simp] theorem ringWrite_cpRep : (ringWrite s i c v).cpRep = s.cpRep := rfl
@[simp] theorem ringWrite_script : (ringWrite s i c v).script = s.script := rfl
@[simp] theorem ringWrite_freeIx : (ringWrite s i c v).freeIx = s.freeIx := rfl

end ringWrite

section ringWriteSlot

variable (s : State) (i l h : Byte)

@[simp] theorem ringWriteSlot_ring : (ringWriteSlot s i l h).ring = Memory.write (Memory.write s.ring (ringAddr i false) l) (ringAddr i true) h := rfl
@[simp] theorem ringWriteSlot_current : (ringWriteSlot s i l h).current = s.current := rfl
@[simp] theorem ringWriteSlot_msgStart : (ringWriteSlot s i l h).msgStart = s.msgStart := rfl
@[simp] theorem ringWriteSlot_msgEnd : (ringWriteSlot s i l h).msgEnd = s.msgEnd := rfl
@[simp] theorem ringWriteSlot_tickcount : (ringWriteSlot s i l h).tickcount = s.tickcount := rfl
@[simp] theorem ringWriteSlot_prevLevel : (ringWriteSlot s i l h).prevLevel = s.prevLevel := rfl
@[simp] theorem ringWriteSlot_mode : (ringWriteSlot s i l h).mode = s.mode := rfl
@[simp] theorem ringWriteSlot_ocieA : (ringWriteSlot s i l h).ocieA = s.ocieA := rfl
@[simp] theorem ringWriteSlot_ocieB : (ringWriteSlot s i l h).ocieB = s.ocieB := rfl
@[simp] theorem ringWriteSlot_antenna : (ringWriteSlot s i l h).antenna = s.antenna := rfl
@[simp] theorem ringWriteSlot_txPin : (ringWriteSlot s i l h).txPin = s.txPin := rfl
@[simp] theorem ringWriteSlot_txRemLow : (ringWriteSlot s i l h).txRemLow = s.txRemLow := rfl
@[simp] theorem ringWriteSlot_txRemHigh : (ringWriteSlot s i l h).txRemHigh = s.txRemHigh := rfl
@[simp] theorem ringWriteSlot_txBit : (ringWriteSlot s i l h).txBit = s.txBit := rfl
@[simp] theorem ringWriteSlot_runningState : (ringWriteSlot s i l h).runningState = s.runningState := rfl
@[simp] theorem ringWriteSlot_syncDuration : (ringWriteSlot s i l h).syncDuration = s.syncDuration := rfl
@[simp] theorem ringWriteSlot_syncLen : (ringWriteSlot s i l h).syncLen = s.syncLen := rfl
@[simp] theorem ringWriteSlot_manchesterHits : (ringWriteSlot s i l h).manchesterHits = s.manchesterHits := rfl
@[simp] theorem ringWriteSlot_syncStart : (ringWriteSlot s i l h).syncStart = s.syncStart := rfl
@[simp] theorem ringWriteSlot_ssPi : (ringWriteSlot s i l h).ssPi = s.ssPi := rfl
@[simp] theorem ringWriteSlot_ssPhase : (ringWriteSlot s i l h).ssPhase = s.ssPhase := rfl
@[simp] theorem ringWriteSlot_ssChoice : (ringWriteSlot s i l h).ssChoice = s.ssChoice := rfl
@[simp] theorem ringWriteSlot_ssRetried : (ringWriteSlot s i l h).ssRetried = s.ssRetried := rfl
@[simp] theorem ringWriteSlot_byteAccumulator : (ringWriteSlot s i l h).byteAccumulator = s.byteAccumulator := rfl
@[simp] theorem ringWriteSlot_bitCount : (ringWriteSlot s i l h).bitCount = s.bitCount := rfl
@[simp] theorem ringWriteSlot_checksum : (ringWriteSlot s i l h).checksum = s.checksum := rfl
@[simp] theorem ringWriteSlot_msgType : (ringWriteSlot s i l h).msgType = s.msgType := rfl
@[simp] theorem ringWriteSlot_decoded : (ringWriteSlot s i l h).decoded = s.decoded := rfl
@[simp] theorem ringWriteSlot_decPhase : (ringWriteSlot s i l h).decPhase = s.decPhase := rfl
@[simp] theorem ringWriteSlot_decPi : (ringWriteSlot s i l h).decPi = s.decPi := rfl
@[simp] theorem ringWriteSlot_decN : (ringWriteSlot s i l h).decN = s.decN := rfl
@[simp] theorem ringWriteSlot_mPhase : (ringWriteSlot s i l h).mPhase = s.mPhase := rfl
@[simp] theorem ringWriteSlot_mBit : (ringWriteSlot s i l h).mBit = s.mBit := rfl
@[simp] theorem ringWriteSlot_demiClock : (ringWriteSlot s i l h).demiClock = s.demiClock := rfl
@[simp] theorem ringWriteSlot_stuffClock : (ringWriteSlot s i l h).stuffClock = s.stuffClock := rfl
@[simp] theorem ringWriteSlot_displayPulses : (ringWriteSlot s i l h).displayPulses = s.displayPulses := rfl
@[simp] theorem ringWriteSlot_stackReq : (ringWriteSlot s i l h).stackReq = s.stackReq := rfl
@[simp] theorem ringWriteSlot_wake : (ringWriteSlot s i l h).wake = s.wake := rfl
@[simp] theorem ringWriteSlot_uartRxQ : (ringWriteSlot s i l h).uartRxQ = s.uartRxQ := rfl
@[simp] theorem ringWriteSlot_uartTx : (ringWriteSlot s i l h).uartTx = s.uartTx := rfl
@[simp] theorem ringWriteSlot_cpPhase : (ringWriteSlot s i l h).cpPhase = s.cpPhase := rfl
@[simp] theorem ringWriteSlot_cpType : (ringWriteSlot s i l h).cpType = s.cpType := rfl
@[simp] theorem ringWriteSlot_cpWr : (ringWriteSlot s i l h).cpWr = s.cpWr := rfl
@[simp] theorem ringWriteSlot_cpHold : (ringWriteSlot s i l h).cpHold = s.cpHold := rfl
@[simp] theorem ringWriteSlot_cpPhold : (ringWriteSlot s i l h).cpPhold = s.cpPhold := rfl
@[simp] theorem ringWriteSlot_cpK : (ringWriteSlot s i l h).cpK = s.cpK := rfl
@[simp] theorem ringWriteSlot_cpKw : (ringWriteSlot s i l h).cpKw = s.cpKw := rfl
@[simp] theorem ringWriteSlot_cpKi : (ringWriteSlot s i l h).cpKi = s.cpKi := rfl
@[simp] theorem ringWriteSlot_cpT0 : (ringWriteSlot s i l h).cpT0 = s.cpT0 := rfl
@[simp] theorem ringWriteSlot_cpRep : (ringWriteSlot s i l h).cpRep = s.cpRep := rfl
@[simp] theorem ringWriteSlot_script : (ringWriteSlot s i l h).script = s.script := rfl
@[simp] theorem ringWriteSlot_freeIx : (ringWriteSlot s i l h).freeIx = s.freeIx := rfl

end ringWriteSlot

section foldChecksum

variable (v : Byte) (s : State)

@[simp] theorem foldChecksum_ring : (foldChecksum v s).ring = s.ring := rfl
@[simp] theorem foldChecksum_current : (foldChecksum v s).current = s.current := rfl
@[simp] theorem foldChecksum_msgStart : (foldChecksum v s).msgStart = s.msgStart := rfl
@[simp] theorem foldChecksum_msgEnd : (foldChecksum v s).msgEnd = s.msgEnd := rfl
@[simp] theorem foldChecksum_tickcount : (foldChecksum v s).tickcount = s.tickcount := rfl
@[simp] theorem foldChecksum_prevLevel : (foldChecksum v s).prevLevel = s.prevLevel := rfl
@[simp] theorem foldChecksum_mode : (foldChecksum v s).mode = s.mode := rfl
@[simp] theorem foldChecksum_ocieA : (foldChecksum v s).ocieA = s.ocieA := rfl
@[simp] theorem foldChecksum_ocieB : (foldChecksum v s).ocieB = s.ocieB := rfl
@[simp] theorem foldChecksum_antenna : (foldChecksum v s).antenna = s.antenna := rfl
@[simp] theorem foldChecksum_txPin : (foldChecksum v s).txPin = s.txPin := rfl
@[simp] theorem foldChecksum_txRemLow : (foldChecksum v s).txRemLow = s.txRemLow := rfl
@[simp] theorem foldChecksum_txRemHigh : (foldChecksum v s).txRemHigh = s.txRemHigh := rfl
@[simp] theorem foldChecksum_txBit : (foldChecksum v s).txBit = s.txBit := rfl
@[simp] theorem foldChecksum_runningState : (foldChecksum v s).runningState = s.runningState := rfl
@[simp] theorem foldChecksum_syncDuration : (foldChecksum v s).syncDuration = s.syncDuration := rfl
@[simp] theorem foldChecksum_syncLen : (foldChecksum v s).syncLen = s.syncLen := rfl
@[simp] theorem foldChecksum_manchesterHits : (foldChecksum v s).manchesterHits = s.manchesterHits := rfl
@[simp] theorem foldChecksum_syncStart : (foldChecksum v s).syncStart = s.syncStart := rfl
@[simp] theorem foldChecksum_ssPi : (foldChecksum v s).ssPi = s.ssPi := rfl
@[simp] theorem foldChecksum_ssPhase : (foldChecksum v s).ssPhase = s.ssPhase := rfl
@[simp] theorem foldChecksum_ssChoice : (foldChecksum v s).ssChoice = s.ssChoice := rfl
@[simp] theorem foldChecksum_ssRetried : (foldChecksum v s).ssRetried = s.ssRetried := rfl
@[simp] theorem foldChecksum_byteAccumulator : (foldChecksum v s).byteAccumulator = s.byteAccumulator := rfl
@[simp] theorem foldChecksum_bitCount : (foldChecksum v s).bitCount = s.bitCount := rfl
@[simp] theorem foldChecksum_checksum : (foldChecksum v s).checksum = BitVec.ofNat 8 (s.checksum.toNat + v.toNat) := rfl
@[simp] theorem foldChecksum_msgType : (foldChecksum v s).msgType = s.msgType := rfl
@[simp] theorem foldChecksum_decoded : (foldChecksum v s).decoded = s.decoded := rfl
@[simp] theorem foldChecksum_decPhase : (foldChecksum v s).decPhase = s.decPhase := rfl
@[simp] theorem foldChecksum_decPi : (foldChecksum v s).decPi = s.decPi := rfl
@[simp] theorem foldChecksum_decN : (foldChecksum v s).decN = s.decN := rfl
@[simp] theorem foldChecksum_mPhase : (foldChecksum v s).mPhase = s.mPhase := rfl
@[simp] theorem foldChecksum_mBit : (foldChecksum v s).mBit = s.mBit := rfl
@[simp] theorem foldChecksum_demiClock : (foldChecksum v s).demiClock = s.demiClock := rfl
@[simp] theorem foldChecksum_stuffClock : (foldChecksum v s).stuffClock = s.stuffClock := rfl
@[simp] theorem foldChecksum_displayPulses : (foldChecksum v s).displayPulses = s.displayPulses := rfl
@[simp] theorem foldChecksum_stackReq : (foldChecksum v s).stackReq = s.stackReq := rfl
@[simp] theorem foldChecksum_wake : (foldChecksum v s).wake = s.wake := rfl
@[simp] theorem foldChecksum_uartRxQ : (foldChecksum v s).uartRxQ = s.uartRxQ := rfl
@[simp] theorem foldChecksum_uartTx : (foldChecksum v s).uartTx = s.uartTx := rfl
@[simp] theorem foldChecksum_cpPhase : (foldChecksum v s).cpPhase = s.cpPhase := rfl
@[simp] theorem foldChecksum_cpType : (foldChecksum v s).cpType = s.cpType := rfl
@[simp] theorem foldChecksum_cpWr : (foldChecksum v s).cpWr = s.cpWr := rfl
@[simp] theorem foldChecksum_cpHold : (foldChecksum v s).cpHold = s.cpHold := rfl
@[simp] theorem foldChecksum_cpPhold : (foldChecksum v s).cpPhold = s.cpPhold := rfl
@[simp] theorem foldChecksum_cpK : (foldChecksum v s).cpK = s.cpK := rfl
@[simp] theorem foldChecksum_cpKw : (foldChecksum v s).cpKw = s.cpKw := rfl
@[simp] theorem foldChecksum_cpKi : (foldChecksum v s).cpKi = s.cpKi := rfl
@[simp] theorem foldChecksum_cpT0 : (foldChecksum v s).cpT0 = s.cpT0 := rfl
@[simp] theorem foldChecksum_cpRep : (foldChecksum v s).cpRep = s.cpRep := rfl
@[simp] theorem foldChecksum_script : (foldChecksum v s).script = s.script := rfl
@[simp] theorem foldChecksum_freeIx : (foldChecksum v s).freeIx = s.freeIx := rfl

end foldChecksum

section emitByte

variable (v : Byte) (s : State)

@[simp] theorem emitByte_ring : (emitByte v s).ring = s.ring := rfl
@[simp] theorem emitByte_current : (emitByte v s).current = s.current := rfl
@[simp] theorem emitByte_msgStart : (emitByte v s).msgStart = s.msgStart := rfl
@[simp] theorem emitByte_msgEnd : (emitByte v s).msgEnd = s.msgEnd := rfl
@[simp] theorem emitByte_tickcount : (emitByte v s).tickcount = s.tickcount := rfl
@[simp] theorem emitByte_prevLevel : (emitByte v s).prevLevel = s.prevLevel := rfl
@[simp] theorem emitByte_mode : (emitByte v s).mode = s.mode := rfl
@[simp] theorem emitByte_ocieA : (emitByte v s).ocieA = s.ocieA := rfl
@[simp] theorem emitByte_ocieB : (emitByte v s).ocieB = s.ocieB := rfl
@[simp] theorem emitByte_antenna : (emitByte v s).antenna = s.antenna := rfl
@[simp] theorem emitByte_txPin : (emitByte v s).txPin = s.txPin := rfl
@[simp] theorem emitByte_txRemLow : (emitByte v s).txRemLow = s.txRemLow := rfl
@[simp] theorem emitByte_txRemHigh : (emitByte v s).txRemHigh = s.txRemHigh := rfl
@[simp] theorem emitByte_txBit : (emitByte v s).txBit = s.txBit := rfl
@[simp] theorem emitByte_runningState : (emitByte v s).runningState = s.runningState := rfl
@[simp] theorem emitByte_syncDuration : (emitByte v s).syncDuration = s.syncDuration := rfl
@[simp] theorem emitByte_syncLen : (emitByte v s).syncLen = s.syncLen := rfl
@[simp] theorem emitByte_manchesterHits : (emitByte v s).manchesterHits = s.manchesterHits := rfl
@[simp] theorem emitByte_syncStart : (emitByte v s).syncStart = s.syncStart := rfl
@[simp] theorem emitByte_ssPi : (emitByte v s).ssPi = s.ssPi := rfl
@[simp] theorem emitByte_ssPhase : (emitByte v s).ssPhase = s.ssPhase := rfl
@[simp] theorem emitByte_ssChoice : (emitByte v s).ssChoice = s.ssChoice := rfl
@[simp] theorem emitByte_ssRetried : (emitByte v s).ssRetried = s.ssRetried := rfl
@[simp] theorem emitByte_byteAccumulator : (emitByte v s).byteAccumulator = s.byteAccumulator := rfl
@[simp] theorem emitByte_bitCount : (emitByte v s).bitCount = s.bitCount := rfl
@[simp] theorem emitByte_checksum : (emitByte v s).checksum = BitVec.ofNat 8 (s.checksum.toNat + v.toNat) := rfl
@[simp] theorem emitByte_msgType : (emitByte v s).msgType = s.msgType := rfl
@[simp] theorem emitByte_decoded : (emitByte v s).decoded = s.decoded := rfl
@[simp] theorem emitByte_decPhase : (emitByte v s).decPhase = s.decPhase := rfl
@[simp] theorem emitByte_decPi : (emitByte v s).decPi = s.decPi := rfl
@[simp] theorem emitByte_decN : (emitByte v s).decN = s.decN := rfl
@[simp] theorem emitByte_mPhase : (emitByte v s).mPhase = s.mPhase := rfl
@[simp] theorem emitByte_mBit : (emitByte v s).mBit = s.mBit := rfl
@[simp] theorem emitByte_demiClock : (emitByte v s).demiClock = s.demiClock := rfl
@[simp] theorem emitByte_stuffClock : (emitByte v s).stuffClock = s.stuffClock := rfl
@[simp] theorem emitByte_displayPulses : (emitByte v s).displayPulses = s.displayPulses := rfl
@[simp] theorem emitByte_stackReq : (emitByte v s).stackReq = s.stackReq := rfl
@[simp] theorem emitByte_wake : (emitByte v s).wake = s.wake := rfl
@[simp] theorem emitByte_uartRxQ : (emitByte v s).uartRxQ = s.uartRxQ := rfl
@[simp] theorem emitByte_uartTx : (emitByte v s).uartTx = s.uartTx ++ hex2 v := rfl
@[simp] theorem emitByte_cpPhase : (emitByte v s).cpPhase = s.cpPhase := rfl
@[simp] theorem emitByte_cpType : (emitByte v s).cpType = s.cpType := rfl
@[simp] theorem emitByte_cpWr : (emitByte v s).cpWr = s.cpWr := rfl
@[simp] theorem emitByte_cpHold : (emitByte v s).cpHold = s.cpHold := rfl
@[simp] theorem emitByte_cpPhold : (emitByte v s).cpPhold = s.cpPhold := rfl
@[simp] theorem emitByte_cpK : (emitByte v s).cpK = s.cpK := rfl
@[simp] theorem emitByte_cpKw : (emitByte v s).cpKw = s.cpKw := rfl
@[simp] theorem emitByte_cpKi : (emitByte v s).cpKi = s.cpKi := rfl
@[simp] theorem emitByte_cpT0 : (emitByte v s).cpT0 = s.cpT0 := rfl
@[simp] theorem emitByte_cpRep : (emitByte v s).cpRep = s.cpRep := rfl
@[simp] theorem emitByte_script : (emitByte v s).script = s.script := rfl
@[simp] theorem emitByte_freeIx : (emitByte v s).freeIx = s.freeIx := rfl

end emitByte

section exitPath

variable (s : State)

@[simp] theorem exitPath_ring : (exitPath s).ring = s.ring := rfl
@[simp] theorem exitPath_current : (exitPath s).current = 0 := rfl
@[simp] theorem exitPath_msgStart : (exitPath s).msgStart = 0 := rfl
@[simp] theorem exitPath_msgEnd : (exitPath s).msgEnd = 0 := rfl
@[simp] theorem exitPath_tickcount : (exitPath s).tickcount = s.tickcount := rfl
@[simp] theorem exitPath_prevLevel : (exitPath s).prevLevel = s.prevLevel := rfl
@[simp] theorem exitPath_mode : (exitPath s).mode = .receiving := rfl
@[simp] theorem exitPath_ocieA : (exitPath s).ocieA = true := rfl
@[simp] theorem exitPath_ocieB : (exitPath s).ocieB = false := rfl
@[simp] theorem exitPath_antenna : (exitPath s).antenna = false := rfl
@[simp] theorem exitPath_txPin : (exitPath s).txPin = s.txPin := rfl
@[simp] theorem exitPath_txRemLow : (exitPath s).txRemLow = s.txRemLow := rfl
@[simp] theorem exitPath_txRemHigh : (exitPath s).txRemHigh = s.txRemHigh := rfl
@[simp] theorem exitPath_txBit : (exitPath s).txBit = s.txBit := rfl
@[simp] theorem exitPath_runningState : (exitPath s).runningState = .syncSearch := rfl
@[simp] theorem exitPath_syncDuration : (exitPath s).syncDuration = s.syncDuration := rfl
@[simp] theorem exitPath_syncLen : (exitPath s).syncLen = s.syncLen := rfl
@[simp] theorem exitPath_manchesterHits : (exitPath s).manchesterHits = s.manchesterHits := rfl
@[simp] theorem exitPath_syncStart : (exitPath s).syncStart = s.syncStart := rfl
@[simp] theorem exitPath_ssPi : (exitPath s).ssPi = s.ssPi := rfl
@[simp] theorem exitPath_ssPhase : (exitPath s).ssPhase = .restart := rfl
@[simp] theorem exitPath_ssChoice : (exitPath s).ssChoice = s.ssChoice := rfl
@[simp] theorem exitPath_ssRetried : (exitPath s).ssRetried = s.ssRetried := rfl
@[simp] theorem exitPath_byteAccumulator : (exitPath s).byteAccumulator = 0 := rfl
@[simp] theorem exitPath_bitCount : (exitPath s).bitCount = 0 := rfl
@[simp] theorem exitPath_checksum : (exitPath s).checksum = 0 := rfl
@[simp] theorem exitPath_msgType : (exitPath s).msgType = s.msgType := rfl
@[simp] theorem exitPath_decoded : (exitPath s).decoded = s.decoded := rfl
@[simp] theorem exitPath_decPhase : (exitPath s).decPhase = s.decPhase := rfl
@[simp] theorem exitPath_decPi : (exitPath s).decPi = s.decPi := rfl
@[simp] theorem exitPath_decN : (exitPath s).decN = s.decN := rfl
@[simp] theorem exitPath_mPhase : (exitPath s).mPhase = s.mPhase := rfl
@[simp] theorem exitPath_mBit : (exitPath s).mBit = s.mBit := rfl
@[simp] theorem exitPath_demiClock : (exitPath s).demiClock = s.demiClock := rfl
@[simp] theorem exitPath_stuffClock : (exitPath s).stuffClock = s.stuffClock := rfl
@[simp] theorem exitPath_displayPulses : (exitPath s).displayPulses = s.displayPulses := rfl
@[simp] theorem exitPath_stackReq : (exitPath s).stackReq = s.stackReq := rfl
@[simp] theorem exitPath_wake : (exitPath s).wake = s.wake := rfl
@[simp] theorem exitPath_uartRxQ : (exitPath s).uartRxQ = s.uartRxQ := rfl
@[simp] theorem exitPath_uartTx : (exitPath s).uartTx = s.uartTx := rfl
@[simp] theorem exitPath_cpPhase : (exitPath s).cpPhase = .entry := rfl
@[simp] theorem exitPath_cpType : (exitPath s).cpType = s.cpType := rfl
@[simp] theorem exitPath_cpWr : (exitPath s).cpWr = s.cpWr := rfl
@[simp] theorem exitPath_cpHold : (exitPath s).cpHold = s.cpHold := rfl
@[simp] theorem exitPath_cpPhold : (exitPath s).cpPhold = s.cpPhold := rfl
@[simp] theorem exitPath_cpK : (exitPath s).cpK = s.cpK := rfl
@[simp] theorem exitPath_cpKw : (exitPath s).cpKw = s.cpKw := rfl
@[simp] theorem exitPath_cpKi : (exitPath s).cpKi = s.cpKi := rfl
@[simp] theorem exitPath_cpT0 : (exitPath s).cpT0 = s.cpT0 := rfl
@[simp] theorem exitPath_cpRep : (exitPath s).cpRep = s.cpRep := rfl
@[simp] theorem exitPath_script : (exitPath s).script = s.script := rfl
@[simp] theorem exitPath_freeIx : (exitPath s).freeIx = s.freeIx := rfl

end exitPath

end Sys2Proof.Machine
end

