-- ==== Sys2Proof/Laws/Reader.lean ====
section
/-! SUPPORT. The readers' loops: the distance to the sampler bounds them (R78, R79), so the fuel never runs out; one unfolding
equation and one induction rule per loop. -/

namespace Sys2Proof.Machine

/-! ## The distance to the sampler (R79) -/

theorem ovfSub_self (a : Byte) : ovfSub a a = 0 := by simp [ovfSub]

/-- A step of the reader shortens the distance by one. -/
theorem ovfSub_inc8 {a b : Byte} (h : a ≠ b) : (ovfSub (inc8 a) b).toNat + 1 = (ovfSub a b).toNat := by
  unfold ovfSub inc8
  have h' : a.toNat ≠ b.toNat := fun e => h (BitVec.eq_of_toNat_eq e)
  have := a.isLt
  have := b.isLt
  simp only [BitVec.toNat_sub, BitVec.toNat_ofNat]
  omega

theorem ovfSub_le (a b : Byte) : (ovfSub a b).toNat ≤ 255 := by
  have := (ovfSub a b).isLt
  omega

/-! ## The searcher's loop (R202) -/

@[simp] theorem ssSeed_ssPi (d : Nat) (s : State) : (ssSeed d s).ssPi = s.ssPi := rfl
@[simp] theorem ssSeed_current (d : Nat) (s : State) : (ssSeed d s).current = s.current := rfl
@[simp] theorem ssMatch_ssPi (p q : Nat) (s : State) : (ssMatch p q s).ssPi = s.ssPi := rfl
@[simp] theorem ssMatch_current (p q : Nat) (s : State) : (ssMatch p q s).current = s.current := rfl

@[simp] theorem ssExamine_ssPi (s : State) : (ssExamine s).ssPi = inc8 s.ssPi := by
  unfold ssExamine
  simp only
  split <;> rfl

@[simp] theorem ssExamine_current (s : State) : (ssExamine s).current = s.current := by
  unfold ssExamine
  simp only
  split <;> rfl

/-- The fuel of the searcher's loop does not matter once it covers the distance. -/
theorem ssLoop_fuel (n m : Nat) (s : State) (hn : (ovfSub s.ssPi s.current).toNat ≤ n)
    (hm : (ovfSub s.ssPi s.current).toNat ≤ m) : ssLoop n s = ssLoop m s := by
  induction n generalizing m s with
  | zero =>
    have h0 : s.ssPi = s.current := by
      by_contra h
      have := ovfSub_inc8 h
      omega
    unfold ssLoop
    simp [h0]
  | succ k ih =>
    unfold ssLoop
    split
    · rfl
    · split
      · rfl
      · next h =>
        have hd := ovfSub_inc8 h
        cases m with
        | zero => omega
        | succ j =>
          simp only
          split
          · rfl
          · apply ih <;> simp only [ssExamine_ssPi, ssExamine_current] <;> omega

/-- One iteration of the searcher's loop (R202). -/
theorem ssLoop_unfold (s : State) :
    ssLoop Config.ringSlots s =
      if s.syncLen = 0 ∧ rxAvail s then ssPickup s
      else if s.ssPi = s.current then s
      else if (ssExamine s).syncLen = Config.syncLen then ssClassify (ssExamine s)
      else ssLoop Config.ringSlots (ssExamine s) := by
  conv_lhs => unfold ssLoop
  split
  · rfl
  · split
    · rfl
    · next h =>
      have hd := ovfSub_inc8 h
      have hl := ovfSub_le s.ssPi s.current
      simp only [Config.ringSlots]
      split
      · rfl
      · apply ssLoop_fuel <;> simp only [ssExamine_ssPi, ssExamine_current] <;> omega

/-- What holds of the searcher's loop: an invariant of one pulse, and the three ways it ends. -/
theorem ssLoop_induct {P Q : State → Prop} {n : Nat} {s : State}
    (hn : (ovfSub s.ssPi s.current).toNat ≤ n) (start : P s)
    (pulse : ∀ s, P s → s.ssPi ≠ s.current → (ssExamine s).syncLen ≠ Config.syncLen → P (ssExamine s))
    (pickup : ∀ s, P s → s.syncLen = 0 → rxAvail s = true → Q (ssPickup s))
    (wait : ∀ s, P s → ¬(s.syncLen = 0 ∧ rxAvail s = true) → s.ssPi = s.current → Q s)
    (classify : ∀ s, P s → s.ssPi ≠ s.current → (ssExamine s).syncLen = Config.syncLen →
      Q (ssClassify (ssExamine s))) :
    Q (ssLoop n s) := by
  induction n generalizing s with
  | zero =>
    have h0 : s.ssPi = s.current := by
      by_contra h
      have := ovfSub_inc8 h
      omega
    unfold ssLoop
    split
    · next h => exact pickup s start h.1 h.2
    · next h => simpa [h0] using wait s start h h0
  | succ k ih =>
    unfold ssLoop
    split
    · next h => exact pickup s start h.1 h.2
    · next h =>
      split
      · next h0 => exact wait s start h h0
      · next h0 =>
        have hd := ovfSub_inc8 h0
        simp only
        split
        · next h8 => exact classify s start h0 h8
        · next h8 =>
          exact ih (by simp only [ssExamine_ssPi, ssExamine_current]; omega) (pulse s start h0 h8)

/-! ## The decoders' emission loop (R214, R224, R246) -/

/-- A body of the emission loop moves neither cursor. -/
def KeepsCursors (body : Byte → Byte → State → State) : Prop :=
  ∀ p0 p1 s, (body p0 p1 s).decPi = s.decPi ∧ (body p0 p1 s).current = s.current

theorem decAdvance_dist {body : Byte → Byte → State → State} (hb : KeepsCursors body) (p0 p1 : Byte) {s : State}
    (h : s.decPi ≠ s.current) :
    (ovfSub (decAdvance (body p0 p1 s)).decPi (decAdvance (body p0 p1 s)).current).toNat + 1 =
      (ovfSub s.decPi s.current).toNat := by
  obtain ⟨h1, h2⟩ := hb p0 p1 s
  change (ovfSub (inc8 (body p0 p1 s).decPi) (body p0 p1 s).current).toNat + 1 = _
  rw [h1, h2]
  exact ovfSub_inc8 h

theorem pulseLoop_fuel {body : Byte → Byte → State → State} (hb : KeepsCursors body) (finish : State → State)
    (n m : Nat) (s : State) (hn : (ovfSub s.decPi s.current).toNat ≤ n)
    (hm : (ovfSub s.decPi s.current).toNat ≤ m) : pulseLoop body finish n s = pulseLoop body finish m s := by
  induction n generalizing m s with
  | zero =>
    have h0 : s.decPi = s.current := by
      by_contra h
      have := ovfSub_inc8 h
      omega
    unfold pulseLoop
    simp [h0]
  | succ k ih =>
    unfold pulseLoop
    split
    · rfl
    · next h =>
      split
      · rfl
      · have hd := decAdvance_dist hb (ringRead s s.decPi false) (ringRead s s.decPi true) h
        cases m with
        | zero => omega
        | succ j => apply ih <;> omega

/-- One iteration of the emission loop. -/
theorem pulseLoop_unfold {body : Byte → Byte → State → State} (hb : KeepsCursors body) (finish : State → State)
    (s : State) :
    pulseLoop body finish Config.ringSlots s =
      if s.decPi = s.current then s
      else if ringRead s s.decPi false = 255 then finish s
      else pulseLoop body finish Config.ringSlots
        (decAdvance (body (ringRead s s.decPi false) (ringRead s s.decPi true) s)) := by
  conv_lhs => unfold pulseLoop
  split
  · rfl
  · next h =>
    split
    · rfl
    · have hd := decAdvance_dist hb (ringRead s s.decPi false) (ringRead s s.decPi true) h
      have hl := ovfSub_le s.decPi s.current
      simp only [Config.ringSlots]
      apply pulseLoop_fuel hb <;> omega

/-- What holds of the emission loop: an invariant of one pulse, and the two ways it ends. -/
theorem pulseLoop_induct {body : Byte → Byte → State → State} {finish : State → State} {P Q : State → Prop} {n : Nat}
    {s : State} (hb : KeepsCursors body) (hn : (ovfSub s.decPi s.current).toNat ≤ n) (start : P s)
    (pulse : ∀ s, P s → s.decPi ≠ s.current → ringRead s s.decPi false ≠ 255 →
      P (decAdvance (body (ringRead s s.decPi false) (ringRead s s.decPi true) s)))
    (wait : ∀ s, P s → s.decPi = s.current → Q s)
    (stop : ∀ s, P s → s.decPi ≠ s.current → ringRead s s.decPi false = 255 → Q (finish s)) :
    Q (pulseLoop body finish n s) := by
  induction n generalizing s with
  | zero =>
    have h0 : s.decPi = s.current := by
      by_contra h
      have := ovfSub_inc8 h
      omega
    unfold pulseLoop
    simpa [h0] using wait s start h0
  | succ k ih =>
    unfold pulseLoop
    split
    · next h => exact wait s start h
    · next h =>
      split
      · next h255 => exact stop s start h h255
      · next h255 =>
        have hd := decAdvance_dist hb (ringRead s s.decPi false) (ringRead s s.decPi true) h
        exact ih (by omega) (pulse s start h h255)

/-! ## What the emitter keeps -/

/-- The emitter's elements: `StuffBit` writes no other (R252). -/
theorem stuffBit_frame (b : Bool) (s : State) :
    ∃ acc n c out, stuffBit b s =
      { s with byteAccumulator := acc, bitCount := n, checksum := c, uartTx := out } := by
  unfold stuffBit
  simp only
  split <;> exact ⟨_, _, _, _, rfl⟩

/-- `FlushPartial` writes no other element (R253). -/
theorem flushPartial_frame (s : State) :
    ∃ acc c out, flushPartial s = { s with byteAccumulator := acc, checksum := c, uartTx := out } := by
  unfold flushPartial
  split
  · exact ⟨_, _, _, rfl⟩
  · exact ⟨s.byteAccumulator, s.checksum, s.uartTx, rfl⟩

theorem askPulse_keepsCursors : KeepsCursors askPulse := by
  intro p0 p1 s
  unfold askPulse
  obtain ⟨_, _, _, _, h⟩ := stuffBit_frame (decide (p0.toNat < p1.toNat)) s
  rw [h]
  exact ⟨rfl, rfl⟩

/-- A conditional bit writes the emitter's elements only. -/
theorem stuffIf_frame (p : Prop) [Decidable p] (b : Bool) (s : State) :
    ∃ acc n c out, (if p then stuffBit b s else s) =
      { s with byteAccumulator := acc, bitCount := n, checksum := c, uartTx := out } := by
  by_cases h : p
  · rw [if_pos h]
    exact stuffBit_frame b s
  · rw [if_neg h]
    exact ⟨s.byteAccumulator, s.bitCount, s.checksum, s.uartTx, rfl⟩

/-- The bits of an OOK pulse write the emitter's elements only. -/
theorem ookPulse_frame (p0 p1 : Byte) (s : State) :
    ∃ acc n c out, ookPulse p0 p1 s =
      { s with byteAccumulator := acc, bitCount := n, checksum := c, uartTx := out } := by
  obtain ⟨a, n, c, o, h⟩ := stuffIf_frame (ookNear s.syncDuration p0.toNat s.syncDuration.toNat = true) false s
  obtain ⟨a', n', c', o', h'⟩ := stuffIf_frame (ookNear s.syncDuration p1.toNat s.syncDuration.toNat = true) true
    { s with byteAccumulator := a, bitCount := n, checksum := c, uartTx := o }
  refine ⟨a', n', c', o', ?_⟩
  unfold ookPulse
  simp only [h]
  exact h'

theorem ookPulse_keepsCursors : KeepsCursors ookPulse := by
  intro p0 p1 s
  obtain ⟨_, _, _, _, h⟩ := ookPulse_frame p0 p1 s
  rw [h]
  exact ⟨rfl, rfl⟩

/-- A printed pulse writes the checksum, the count and the output (R246). -/
theorem rawPulse_frame (p0 p1 : Byte) (s : State) :
    ∃ n c out, rawPulse p0 p1 s = { s with bitCount := n, checksum := c, uartTx := out } := by
  unfold rawPulse
  rw [emitByte_eq p1, emitByte_eq]
  exact ⟨_, _, _, rfl⟩

theorem rawPulse_keepsCursors : KeepsCursors rawPulse := by
  intro p0 p1 s
  obtain ⟨_, _, _, h⟩ := rawPulse_frame p0 p1 s
  rw [h]
  exact ⟨rfl, rfl⟩

/-! ## The Manchester loop (R235) -/

/-- `CatchUp` writes the emitter's elements and `stuff_clock` (R237). -/
theorem catchUp_frame (s : State) :
    ∃ acc n c out k, catchUp s =
      { s with byteAccumulator := acc, bitCount := n, checksum := c, uartTx := out, stuffClock := k } := by
  unfold catchUp
  by_cases he : s.stuffClock ≠ s.demiClock
  · rw [if_pos he]
    obtain ⟨a, n, c, o, h⟩ := stuffIf_frame (s.stuffClock.toNat % 2 = 1) s.mBit s
    rw [show catchUpBit s = _ from h]
    exact ⟨a, n, c, o, inc8 s.stuffClock, rfl⟩
  · rw [if_neg he]
    exact ⟨s.byteAccumulator, s.bitCount, s.checksum, s.uartTx, s.stuffClock, rfl⟩

/-- The consumption of a half-pulse writes the latch and `demi_clock` (R236). -/
theorem manLatch_frame (h : Byte) (s : State) :
    ∃ d b, manLatch h s = { s with demiClock := d, mBit := b } := by
  unfold manLatch
  split
  · exact ⟨_, _, rfl⟩
  · exact ⟨_, s.mBit, rfl⟩

/-- A half-pulse before the phase flips: the emitter's elements, the clocks and the latch. -/
theorem manHalf_frame (s : State) :
    ∃ acc n c out k d b, manHalf s = manFlip
      { s with byteAccumulator := acc, bitCount := n, checksum := c, uartTx := out, stuffClock := k,
               demiClock := d, mBit := b } := by
  obtain ⟨a, n, c, o, k, h⟩ := catchUp_frame s
  obtain ⟨d, b, h1⟩ := manLatch_frame (ringRead s s.decPi s.mPhase)
    { s with byteAccumulator := a, bitCount := n, checksum := c, uartTx := o, stuffClock := k }
  obtain ⟨a', n', c', o', k', h2⟩ := catchUp_frame
    { s with byteAccumulator := a, bitCount := n, checksum := c, uartTx := o, stuffClock := k, demiClock := d,
             mBit := b }
  refine ⟨a', n', c', o', k', d, b, ?_⟩
  unfold manHalf
  simp only [h, h1, h2]

/-- The half-pulses between `dec_pi` and the sampler. -/
def manLeft (s : State) : Nat := 2 * (ovfSub s.decPi s.current).toNat - (if s.mPhase then 1 else 0)

theorem manHalf_left {s : State} (h : s.decPi ≠ s.current) : manLeft (manHalf s) + 1 = manLeft s := by
  obtain ⟨_, _, _, _, _, _, _, hf⟩ := manHalf_frame s
  rw [hf]
  unfold manFlip
  have hd := ovfSub_inc8 h
  by_cases hp : s.mPhase = true
  · simp only [hp, if_true, manLeft]
    simp
    omega
  · simp only [hp, manLeft]
    simp
    omega

theorem manLeft_zero {s : State} (h : manLeft s = 0) : s.decPi = s.current := by
  by_contra hne
  have hd := ovfSub_inc8 hne
  unfold manLeft at h
  split at h <;> omega

theorem manLeft_le (s : State) : manLeft s ≤ 510 := by
  have := ovfSub_le s.decPi s.current
  unfold manLeft
  omega

theorem manLoop_fuel (n m : Nat) (s : State) (hn : manLeft s ≤ n) (hm : manLeft s ≤ m) :
    manLoop n s = manLoop m s := by
  induction n generalizing m s with
  | zero =>
    have h0 := manLeft_zero (Nat.le_zero.mp hn)
    unfold manLoop
    simp [h0]
  | succ k ih =>
    unfold manLoop
    split
    · rfl
    · split
      · rfl
      · next h =>
        split
        · rfl
        · have hd := manHalf_left h
          cases m with
          | zero => omega
          | succ j => apply ih <;> omega

/-- One iteration of the Manchester loop (R235, R236). -/
theorem manEmit_unfold (s : State) :
    manEmit s =
      if Config.manGuard ≤ s.bitCount.toNat then decoderEnd s.decPi (flushPartial s)
      else if s.decPi = s.current then s
      else if s.mPhase = false ∧ ringRead s s.decPi false = 255 then finishBits s
      else manEmit (manHalf s) := by
  unfold manEmit
  conv_lhs => unfold manLoop
  split
  · rfl
  · split
    · rfl
    · next h =>
      split
      · rfl
      · have hd := manHalf_left h
        have hl := manLeft_le s
        simp only [Config.ringSlots]
        apply manLoop_fuel <;> omega

/-- What holds of the Manchester loop: an invariant of one half-pulse, and the three ways it ends. -/
theorem manLoop_induct {P Q : State → Prop} {n : Nat} {s : State} (hn : manLeft s ≤ n) (start : P s)
    (half : ∀ s, P s → ¬(Config.manGuard ≤ s.bitCount.toNat) → s.decPi ≠ s.current →
      ¬(s.mPhase = false ∧ ringRead s s.decPi false = 255) → P (manHalf s))
    (guard : ∀ s, P s → Config.manGuard ≤ s.bitCount.toNat → Q (decoderEnd s.decPi (flushPartial s)))
    (wait : ∀ s, P s → s.decPi = s.current → Q s)
    (stop : ∀ s, P s → s.decPi ≠ s.current → Q (finishBits s)) :
    Q (manLoop n s) := by
  induction n generalizing s with
  | zero =>
    have h0 := manLeft_zero (Nat.le_zero.mp hn)
    unfold manLoop
    split
    · next h => exact guard s start h
    · simpa [h0] using wait s start h0
  | succ k ih =>
    unfold manLoop
    split
    · next h => exact guard s start h
    · next hg =>
      split
      · next h => exact wait s start h
      · next h =>
        split
        · exact stop s start h
        · next h255 =>
          have hd := manHalf_left h
          exact ih (by omega) (half s start hg h h255)

end Sys2Proof.Machine
end

