-- ==== Sys2Proof/Laws/Decoders.lean ====
section
/-! SUPPORT. The decoders' steps as equations: entry, one lock-in pulse, commit, one emitted pulse, termination (R210 to R248). -/

namespace Sys2Proof.Machine

/-! ## Tests over the integers -/

theorem askValid_eq (sd p0 p1 : Byte) :
    askValid sd p0 p1 = LockDecoder.good .ask sd.toNat p0.toNat p1.toNat := by
  simp only [askValid, LockDecoder.good, absdiff_eq, Config.syncTol, Nat.cast_add]

theorem ookNear_eq (sd : Byte) (x y : Nat) : ookNear sd x y = near sd.toNat x y := by
  unfold ookNear near
  rw [absdiff_eq]
  exact decide_eq_decide.mpr (by omega)

theorem ookValid_eq (sd p0 p1 : Byte) :
    ookValid sd p0 p1 = LockDecoder.good .ook sd.toNat p0.toNat p1.toNat := by
  simp only [ookValid, LockDecoder.good, ookNear_eq, Nat.cast_ofNat, Int.natCast_ediv]

theorem manFull_iff (sd x : Byte) :
    manFull sd x = true ↔ (((x.toNat : Int) - sd.toNat).natAbs : Int) < (sd.toNat : Int) / 4 := by
  unfold manFull
  rw [absdiff_eq, decide_eq_true_eq]
  omega

theorem manPlausible_eq (sd x : Byte) : manPlausible sd x = plausible sd.toNat x.toNat := by
  rw [Bool.eq_iff_iff]
  unfold manPlausible plausible
  rw [Bool.or_eq_true, manFull_iff, absdiff_eq, decide_eq_true_eq, decide_eq_true_eq]
  omega

theorem manValid_eq (sd p0 p1 : Byte) :
    manValid sd p0 p1 = LockDecoder.good .man sd.toNat p0.toNat p1.toNat := by
  simp only [manValid, LockDecoder.good, manPlausible_eq]

/-! ## The three decoders with a lock-in, as one -/

/-- The validity test of the model. -/
def LockDecoder.valid : LockDecoder → Byte → Byte → Byte → Bool
  | .ask => askValid
  | .ook => ookValid
  | .man => manValid

/-- The commit of the model. -/
def LockDecoder.commitOf : LockDecoder → State → State
  | .ask => commit .a
  | .ook => commit .o
  | .man => manCommit

/-- The emission loop of the model. -/
def LockDecoder.emission : LockDecoder → State → State
  | .ask => askEmit
  | .ook => ookEmit
  | .man => manEmit

/-- The task step of the model. -/
def LockDecoder.run (k : LockDecoder) (s : State) : State := withLockIn k.valid k.need k.commitOf k.emission s

theorem LockDecoder.valid_eq (k : LockDecoder) (sd p0 p1 : Byte) :
    k.valid sd p0 p1 = k.good sd.toNat p0.toNat p1.toNat := by
  cases k
  · exact askValid_eq sd p0 p1
  · exact ookValid_eq sd p0 p1
  · exact manValid_eq sd p0 p1

theorem LockDecoder.commitOf_eq (k : LockDecoder) (s : State) : k.commitOf s = k.committed s := by
  cases k <;> rfl

theorem LockDecoder.need_le (k : LockDecoder) : k.need ≤ 32 := by cases k <;> decide

theorem LockDecoder.exec_op {k : LockDecoder} {s : State} (h : s.runningState = k.state) :
    exec k.op s = .next (k.run s) := by
  cases k <;> exact congrArg _ (if_pos h)

/-! ## Entry and lock-in (R210 to R212) -/

theorem decoderEntry_other {s : State} (h : s.decPhase ≠ .idle) : decoderEntry s = s := if_neg h

/-- Entry (R210). -/
theorem LockDecoder.run_idle (k : LockDecoder) {s : State} (h : s.decPhase = .idle) :
    k.run s = k.run { s with decPi := s.msgStart, decN := 0, decPhase := .lockIn } := by
  unfold LockDecoder.run withLockIn
  rw [show decoderEntry s = { s with decPi := s.msgStart, decN := 0, decPhase := .lockIn } from if_pos h]
  rfl

/-- A decoder resumed in its emission loop. -/
theorem LockDecoder.run_emit (k : LockDecoder) {s : State} (h : s.decPhase = .emit) : k.run s = k.emission s := by
  unfold LockDecoder.run withLockIn
  rw [decoderEntry_other (by simp [h])]
  simp only [h]

theorem LockDecoder.exec_emit {k : LockDecoder} {s : State} (h : s.runningState = k.state) (h' : s.decPhase = .emit) :
    exec k.op s = .next (k.emission s) := by
  rw [LockDecoder.exec_op h, k.run_emit h']

/-- What a lock-in ends in, as the state the decoder goes on with. -/
def LockDecoder.after (k : LockDecoder) : LockIn → State
  | .waiting t => t
  | .failed t => t
  | .locked t => k.emission (k.commitOf t)

theorem LockDecoder.run_lockIn (k : LockDecoder) {s : State} (h : s.decPhase = .lockIn) :
    k.run s = k.after (lockLoop (k.valid s.syncDuration) (k.need - s.decN.toNat) s) := by
  unfold LockDecoder.run withLockIn
  rw [decoderEntry_other (by simp [h])]
  simp only [h]
  unfold lockIn LockDecoder.after
  rfl

theorem LockDecoder.run_waits (k : LockDecoder) {s : State} (h : s.decPhase = .lockIn) (hn : s.decN.toNat < k.need)
    (hp : s.decPi = s.current) : k.run s = s := by
  obtain ⟨n, he⟩ : ∃ n, k.need - s.decN.toNat = n + 1 := ⟨k.need - s.decN.toNat - 1, by omega⟩
  rw [k.run_lockIn h, he]
  unfold lockLoop
  rw [if_pos hp]
  rfl

/-- E1 (R312). -/
theorem LockDecoder.run_fails (k : LockDecoder) {s : State} (h : s.decPhase = .lockIn) (hn : s.decN.toNat < k.need)
    (hp : s.decPi ≠ s.current)
    (hv : k.valid s.syncDuration (ringRead s s.decPi false) (ringRead s s.decPi true) = false) :
    k.run s = raiseLockInFailure s := by
  obtain ⟨n, he⟩ : ∃ n, k.need - s.decN.toNat = n + 1 := ⟨k.need - s.decN.toNat - 1, by omega⟩
  rw [k.run_lockIn h, he]
  unfold lockLoop
  rw [if_neg hp, if_neg (by simp [hv])]
  rfl

theorem succ_toNat6 {n : BitVec 6} (h : n.toNat < 32) : (n + 1).toNat = n.toNat + 1 := by
  rw [BitVec.toNat_add, show (1 : BitVec 6).toNat = 1 from rfl]
  omega

/-- One valid pulse (R211). -/
theorem LockDecoder.run_counts (k : LockDecoder) {s : State} (h : s.decPhase = .lockIn) (hn : s.decN.toNat < k.need)
    (hp : s.decPi ≠ s.current)
    (hv : k.valid s.syncDuration (ringRead s s.decPi false) (ringRead s s.decPi true) = true) :
    k.run s = k.run { s with decN := s.decN + 1, decPi := inc8 s.decPi } := by
  have hle := k.need_le
  obtain ⟨n, he⟩ : ∃ n, k.need - s.decN.toNat = n + 1 := ⟨k.need - s.decN.toNat - 1, by omega⟩
  have he' : k.need - (s.decN + 1).toNat = n := by
    rw [succ_toNat6 (by omega)]
    omega
  have h2 := k.run_lockIn (s := { s with decN := s.decN + 1, decPi := inc8 s.decPi }) h
  rw [h2]
  simp only [he']
  rw [k.run_lockIn h, he]
  conv_lhs => unfold lockLoop
  rw [if_neg hp, if_pos hv]

/-- The commit (R213, R223, R234). -/
theorem LockDecoder.run_commits (k : LockDecoder) {s : State} (h : s.decPhase = .lockIn) (hn : k.need ≤ s.decN.toNat) :
    k.run s = k.run (k.committed s) := by
  rw [k.run_lockIn h, show k.need - s.decN.toNat = 0 by omega]
  rw [k.run_emit (s := k.committed s) (by cases k <;> rfl), ← k.commitOf_eq]
  rfl

/-! ## The emission loops -/

theorem askEmit_unfold (s : State) :
    askEmit s =
      if s.decPi = s.current then s
      else if ringRead s s.decPi false = 255 then finishBits s
      else askEmit (decAdvance (askPulse (ringRead s s.decPi false) (ringRead s s.decPi true) s)) :=
  pulseLoop_unfold askPulse_keepsCursors finishBits s

theorem ookEmit_unfold (s : State) :
    ookEmit s =
      if s.decPi = s.current then s
      else if ringRead s s.decPi false = 255 then finishBits s
      else ookEmit (decAdvance (ookPulse (ringRead s s.decPi false) (ringRead s s.decPi true) s)) :=
  pulseLoop_unfold ookPulse_keepsCursors finishBits s

/-- The raw dumper (R248). -/
theorem exec_dispatchDecodePulses {s : State} (h : s.runningState = .decodeRawPulses) :
    exec .dispatchDecodePulses s = .next (decodePulses s) :=
  congrArg _ (if_pos h)

theorem decodePulses_idle {s : State} (h : s.decPhase = .idle) : decodePulses s = decodePulses (commit .p s) := by
  unfold decodePulses
  rw [if_pos h]
  rfl

theorem decodePulses_unfold {s : State} (h : s.decPhase ≠ .idle) :
    decodePulses s =
      if s.decPi = s.current then s
      else if ringRead s s.decPi false = 255 then finishRaw s
      else decodePulses (decAdvance (rawPulse (ringRead s s.decPi false) (ringRead s s.decPi true) s)) := by
  have h' : ¬((decAdvance (rawPulse (ringRead s s.decPi false) (ringRead s s.decPi true) s)).decPhase = .idle) := by
    obtain ⟨_, _, _, hf⟩ := rawPulse_frame (ringRead s s.decPi false) (ringRead s s.decPi true) s
    rw [hf]
    exact h
  unfold decodePulses
  rw [if_neg h, if_neg h']
  exact pulseLoop_unfold rawPulse_keepsCursors finishRaw s

/-- A dumped pulse (R246). -/
theorem rawPulse_eq (p0 p1 : Byte) (s : State) :
    rawPulse p0 p1 s =
      { s with
        uartTx := s.uartTx ++ hex2 p1 ++ hex2 p0, checksum := s.checksum + p1 + p0, bitCount := s.bitCount + 1 } := by
  unfold rawPulse
  rw [inc8_eq, emitByte_eq p1, emitByte_eq p0]

/-! ## Bits (R252, R253) -/

theorem placeBit_eq (acc : Byte) (k : Nat) (b : Bool) :
    placeBit acc k b = acc ||| BitVec.ofNat 8 (if b then 2 ^ (7 - k) else 0) := by
  unfold placeBit
  congr 1
  cases b
  · simp
  · apply BitVec.eq_of_toNat_eq
    simp [BitVec.toNat_shiftLeft, Nat.shiftLeft_eq]

/-- `StuffBit` inside a byte. -/
theorem stuffBit_inside (b : Bool) {s : State} (h : (s.bitCount + 1).toNat % 8 ≠ 0) :
    stuffBit b s =
      { s with
        byteAccumulator := placeBit s.byteAccumulator (s.bitCount.toNat % 8) b, bitCount := s.bitCount + 1 } := by
  unfold stuffBit
  rw [inc8_eq]
  exact if_neg h

/-- `StuffBit` at the end of a byte. -/
theorem stuffBit_full (b : Bool) {s : State} (h : (s.bitCount + 1).toNat % 8 = 0) :
    stuffBit b s =
      { s with
        byteAccumulator := 0, bitCount := s.bitCount + 1
        uartTx := s.uartTx ++ hex2 (placeBit s.byteAccumulator (s.bitCount.toNat % 8) b)
        checksum := s.checksum + placeBit s.byteAccumulator (s.bitCount.toNat % 8) b } := by
  unfold stuffBit
  rw [inc8_eq]
  refine (if_pos h).trans ?_
  rw [emitByte_eq]

theorem flushPartial_none {s : State} (h : s.bitCount.toNat % 8 = 0) : flushPartial s = s := if_neg (by simp [h])

theorem flushPartial_some {s : State} (h : s.bitCount.toNat % 8 ≠ 0) :
    flushPartial s =
      { s with
        byteAccumulator := 0, uartTx := s.uartTx ++ hex2 s.byteAccumulator
        checksum := s.checksum + s.byteAccumulator } := by
  unfold flushPartial
  rw [if_pos h, emitByte_eq]

theorem finishBits_eq (s : State) : finishBits s = endedAt (s.decPi + 1) s := by
  unfold finishBits decoderEnd endedAt
  rw [inc8_eq]

end Sys2Proof.Machine
end

