-- ==== Sys2Proof/Laws/Dispatch.lean ====
section
/-! SUPPORT. DISPATCH and its targets as equations: which task runs, on which state. -/

namespace Sys2Proof.Machine

/-- The target a state names runs its task (R173). -/
theorem exec_targetOf {r : RunningState} {s : State} (h : s.runningState = r) :
    exec (targetOf r) s = .next (runTask s) := by
  subst h
  unfold runTask
  cases hr : s.runningState <;> exact congrArg _ (if_pos hr)

/-- A target the state does not name changes nothing (log 4). -/
theorem exec_targetOf_other {r : RunningState} {s : State} (h : s.runningState ≠ r) :
    exec (targetOf r) s = .next s := by
  cases r <;> exact congrArg _ (if_neg h)

theorem cancelDue_iff {s : State} :
    cancelDue s = true ↔ isDecoding s.runningState = true ∧ s.uartRxQ ≠ [] := by
  simp [cancelDue, rxAvail]

theorem exec_dispatchCancel {sss : BitVec 3} {s : State} (h : runningCode s.runningState = sss)
    (hc : cancelDue s = true) : exec (.dispatchCancel sss) s = .next (receiveCommand (cancelDecode s)) :=
  congrArg Host.Outcome.next (if_pos ⟨h, hc⟩)

theorem exec_dispatchCancel_other {sss : BitVec 3} {s : State}
    (h : ¬(runningCode s.runningState = sss ∧ cancelDue s = true)) : exec (.dispatchCancel sss) s = .next s :=
  congrArg Host.Outcome.next (if_neg h)

theorem dispatchEvent_asleep {s : State} (h : s.wake = false) : dispatchEvent s = s := by
  unfold dispatchEvent
  rw [h]
  rfl

theorem dispatchEvent_awake {s : State} (h : s.wake = true) :
    dispatchEvent s = dispatchTask { s with wake := false } := by
  unfold dispatchEvent
  rw [if_pos h]

theorem dispatchTask_cancel {s : State} (h : cancelDue s = true) :
    dispatchTask s = receiveCommand (cancelDecode s) := by
  unfold dispatchTask
  rw [if_pos h]
  rfl

theorem dispatchTask_task {s : State} (h : ¬(cancelDue s = true)) : dispatchTask s = runTask s := by
  unfold dispatchTask
  rw [if_neg h]

end Sys2Proof.Machine
end

