-- ==== Sys2Proof/Laws/Emission.lean ====
section
/-! SUPPORT. All that a run of a decoder can do, said once: it stays in lock-in, fails it, or emits payload bytes that it adds to
the checksum and perhaps ends the message. Frames, the checksum law and the growth of the output follow from this. -/

namespace Sys2Proof.Machine

/-! ## Sums and texts of payload bytes -/

theorem byteSum_append (as bs : List Byte) : byteSum (as ++ bs) = byteSum as + byteSum bs := by
  induction as with
  | nil => simp [byteSum]
  | cons a as ih =>
    rw [List.cons_append, byteSum, byteSum, ih, BitVec.add_assoc]

theorem payloadText_append (as bs : List Byte) : payloadText (as ++ bs) = payloadText as ++ payloadText bs := by
  induction as with
  | nil => rfl
  | cons a as ih => rw [List.cons_append, payloadText, payloadText, ih, List.append_assoc]

/-! ## Emitting payload bytes -/

/-- `t` is `s` after some payload bytes: the emitter's elements and the decoder's locals moved, nothing else. -/
def Emitted (s t : State) : Prop :=
  ∃ bs acc n pi ph b d k, t =
    { s with
      byteAccumulator := acc, bitCount := n, decPi := pi, mPhase := ph, mBit := b, demiClock := d, stuffClock := k
      uartTx := s.uartTx ++ payloadText bs, checksum := s.checksum + byteSum bs }

theorem Emitted.refl (s : State) : Emitted s s := by
  refine ⟨[], s.byteAccumulator, s.bitCount, s.decPi, s.mPhase, s.mBit, s.demiClock, s.stuffClock, ?_⟩
  simp only [payloadText, byteSum, List.append_nil, add_zero]

theorem Emitted.trans {s t u : State} (h : Emitted s t) (h' : Emitted t u) : Emitted s u := by
  obtain ⟨bs, acc, n, pi, ph, b, d, k, rfl⟩ := h
  obtain ⟨bs', acc', n', pi', ph', b', d', k', rfl⟩ := h'
  refine ⟨bs ++ bs', acc', n', pi', ph', b', d', k', ?_⟩
  rw [payloadText_append, byteSum_append]
  simp only [List.append_assoc, BitVec.add_assoc]

/-- Moving the emitter's registers and the decoder's locals emits nothing. -/
theorem Emitted.move (s : State) (acc n pi : Byte) (ph b : Bool) (d k : Byte) :
    Emitted s { s with
      byteAccumulator := acc, bitCount := n, decPi := pi, mPhase := ph, mBit := b, demiClock := d
      stuffClock := k } := by
  refine ⟨[], acc, n, pi, ph, b, d, k, ?_⟩
  simp only [payloadText, byteSum, List.append_nil, add_zero]

/-- One payload byte. -/
theorem Emitted.byte (s : State) (v acc n : Byte) :
    Emitted s { s with
      byteAccumulator := acc, bitCount := n, uartTx := s.uartTx ++ hex2 v, checksum := s.checksum + v } := by
  refine ⟨[v], acc, n, s.decPi, s.mPhase, s.mBit, s.demiClock, s.stuffClock, ?_⟩
  simp only [payloadText, byteSum, List.append_nil, add_zero]

theorem stuffBit_emitted (b : Bool) (s : State) : Emitted s (stuffBit b s) := by
  by_cases h : (s.bitCount + 1).toNat % 8 = 0
  · rw [stuffBit_full b h]
    exact Emitted.byte s _ _ _
  · rw [stuffBit_inside b h]
    exact Emitted.move s _ _ s.decPi s.mPhase s.mBit s.demiClock s.stuffClock

theorem flushPartial_emitted (s : State) : Emitted s (flushPartial s) := by
  by_cases h : s.bitCount.toNat % 8 = 0
  · rw [flushPartial_none h]
    exact Emitted.refl s
  · rw [flushPartial_some h]
    exact Emitted.byte s _ _ s.bitCount

theorem decAdvance_emitted (s : State) : Emitted s (decAdvance s) :=
  Emitted.move s s.byteAccumulator s.bitCount _ s.mPhase s.mBit s.demiClock s.stuffClock

theorem stuffIf_emitted (p : Prop) [Decidable p] (b : Bool) (s : State) :
    Emitted s (if p then stuffBit b s else s) := by
  split
  · exact stuffBit_emitted b s
  · exact Emitted.refl s

theorem askPulse_emitted (p0 p1 : Byte) (s : State) : Emitted s (askPulse p0 p1 s) := stuffBit_emitted _ s

theorem ookPulse_emitted (p0 p1 : Byte) (s : State) : Emitted s (ookPulse p0 p1 s) := by
  unfold ookPulse
  simp only
  exact (stuffIf_emitted _ false s).trans (stuffIf_emitted _ true _)

theorem rawPulse_emitted (p0 p1 : Byte) (s : State) : Emitted s (rawPulse p0 p1 s) := by
  unfold rawPulse
  rw [emitByte_eq p1, emitByte_eq p0]
  exact (Emitted.byte s p1 s.byteAccumulator (inc8 s.bitCount)).trans
    (Emitted.byte _ p0 s.byteAccumulator (inc8 s.bitCount))

theorem catchUp_emitted (s : State) : Emitted s (catchUp s) := by
  unfold catchUp
  split
  · refine Emitted.trans (t := catchUpBit s) (stuffIf_emitted _ _ s) ?_
    exact Emitted.move _ (catchUpBit s).byteAccumulator (catchUpBit s).bitCount (catchUpBit s).decPi
      (catchUpBit s).mPhase (catchUpBit s).mBit (catchUpBit s).demiClock _
  · exact Emitted.refl s

theorem manLatch_emitted (h : Byte) (s : State) : Emitted s (manLatch h s) := by
  unfold manLatch
  split
  · exact Emitted.move s s.byteAccumulator s.bitCount s.decPi s.mPhase _ _ s.stuffClock
  · exact Emitted.move s s.byteAccumulator s.bitCount s.decPi s.mPhase s.mBit _ s.stuffClock

theorem manFlip_emitted (s : State) : Emitted s (manFlip s) := by
  unfold manFlip
  split
  · exact Emitted.move s s.byteAccumulator s.bitCount _ _ s.mBit s.demiClock s.stuffClock
  · exact Emitted.move s s.byteAccumulator s.bitCount s.decPi _ s.mBit s.demiClock s.stuffClock

theorem manHalf_emitted (s : State) : Emitted s (manHalf s) := by
  unfold manHalf
  exact (((catchUp_emitted s).trans (manLatch_emitted _ _)).trans (catchUp_emitted _)).trans (manFlip_emitted _)

/-! ## A run of the emission loop -/

/-- `t` is `s` after payload bytes, or after payload bytes and the end of the message. -/
def EmittedTo (s t : State) : Prop := Emitted s t ∨ ∃ u next, Emitted s u ∧ t = decoderEnd next u

theorem finishBits_emittedTo {s t : State} (h : Emitted s t) : EmittedTo s (finishBits t) :=
  .inr ⟨flushPartial t, inc8 t.decPi, h.trans (flushPartial_emitted t), rfl⟩

theorem pulseLoop_emittedTo {body : Byte → Byte → State → State} {finish : State → State} (s : State)
    (hb : KeepsCursors body) (he : ∀ p0 p1 t, Emitted t (body p0 p1 t))
    (hf : ∀ t, Emitted s t → EmittedTo s (finish t)) : EmittedTo s (pulseLoop body finish Config.ringSlots s) := by
  refine pulseLoop_induct (P := fun t => Emitted s t) (Q := fun t => EmittedTo s t) hb ?_ (Emitted.refl s) ?_ ?_ ?_
  · have := ovfSub_le s.decPi s.current
    simp only [Config.ringSlots]
    omega
  · intro t h _ _
    exact (h.trans (he _ _ t)).trans (decAdvance_emitted _)
  · intro t h _
    exact .inl h
  · intro t h _ _
    exact hf t h

theorem LockDecoder.emission_emittedTo (k : LockDecoder) (s : State) : EmittedTo s (k.emission s) := by
  cases k
  · exact pulseLoop_emittedTo s askPulse_keepsCursors askPulse_emitted fun _ h => finishBits_emittedTo h
  · exact pulseLoop_emittedTo s ookPulse_keepsCursors ookPulse_emitted fun _ h => finishBits_emittedTo h
  · refine manLoop_induct (P := fun t => Emitted s t) (Q := fun t => EmittedTo s t) ?_ (Emitted.refl s) ?_ ?_ ?_ ?_
    · have := manLeft_le s
      simp only [Config.ringSlots]
      omega
    · intro t h _ _ _
      exact h.trans (manHalf_emitted t)
    · intro t h _
      exact .inr ⟨flushPartial t, t.decPi, h.trans (flushPartial_emitted t), rfl⟩
    · intro t h _
      exact .inl h
    · intro t h _
      exact finishBits_emittedTo h

theorem rawLoop_emittedTo (s : State) : EmittedTo s (pulseLoop rawPulse finishRaw Config.ringSlots s) :=
  pulseLoop_emittedTo s rawPulse_keepsCursors rawPulse_emitted fun t h => .inr ⟨t, inc8 t.decPi, h, rfl⟩

/-! ## A run of a decoder -/

/-- What the lock-in loop leaves: the cursor and the count moved, and E1 if it failed. -/
theorem lockLoop_cases (valid : Byte → Byte → Bool) (n : Nat) (s : State) :
    ∃ a c, let u : State := { s with decPi := a, decN := c }
      lockLoop valid n s = .waiting u ∨ lockLoop valid n s = .failed (raiseLockInFailure u) ∨
        lockLoop valid n s = .locked u := by
  induction n generalizing s with
  | zero => exact ⟨s.decPi, s.decN, .inr (.inr rfl)⟩
  | succ n ih =>
    unfold lockLoop
    split
    · exact ⟨s.decPi, s.decN, .inl rfl⟩
    · split
      · obtain ⟨a, c, h⟩ := ih { s with decN := s.decN + 1, decPi := inc8 s.decPi }
        exact ⟨a, c, h⟩
      · exact ⟨s.decPi, s.decN, .inr (.inl rfl)⟩

/-- A run of a decoder with a lock-in (R216, R226, R239). -/
theorem LockDecoder.run_cases (k : LockDecoder) (s : State) :
    (s.decPhase = .emit ∧ k.run s = k.emission s) ∨
    (s.decPhase ≠ .emit ∧ ∃ a c, let u : State := { s with decPi := a, decN := c, decPhase := .lockIn }
      k.run s = u ∨ k.run s = raiseLockInFailure u ∨ k.run s = k.emission (k.committed u)) := by
  have key : ∀ t : State, t.decPhase = .lockIn → ∃ a c, let u : State := { t with decPi := a, decN := c, decPhase := .lockIn }
      k.run t = u ∨ k.run t = raiseLockInFailure u ∨ k.run t = k.emission (k.committed u) := by
    intro t ht
    obtain ⟨a, c, h⟩ := lockLoop_cases (k.valid t.syncDuration) (k.need - t.decN.toNat) t
    refine ⟨a, c, ?_⟩
    rw [k.run_lockIn ht, ← ht]
    rcases h with h | h | h
    · exact .inl (by rw [h]; rfl)
    · exact .inr (.inl (by rw [h]; rfl))
    · exact .inr (.inr (by rw [h, ← k.commitOf_eq]; rfl))
  cases h : s.decPhase with
  | emit => exact .inl ⟨rfl, k.run_emit h⟩
  | lockIn => exact .inr ⟨by simp, key s h⟩
  | idle =>
    refine .inr ⟨by simp, ?_⟩
    rw [k.run_idle h]
    exact key { s with decPi := s.msgStart, decN := 0, decPhase := .lockIn } rfl

/-- A run of the raw dumper (R248). -/
theorem decodePulses_cases (s : State) :
    (s.decPhase ≠ .idle ∧ EmittedTo s (decodePulses s)) ∨
    (s.decPhase = .idle ∧ EmittedTo (commit .p s) (decodePulses s)) := by
  by_cases h : s.decPhase = .idle
  · refine .inr ⟨h, ?_⟩
    unfold decodePulses
    rw [if_pos h]
    exact rawLoop_emittedTo _
  · refine .inl ⟨h, ?_⟩
    unfold decodePulses
    rw [if_neg h]
    exact rawLoop_emittedTo _

/-! ## The Manchester clocks (R237) -/

theorem catchUp_clocks (s : State) :
    (catchUp s).demiClock = s.demiClock ∧
    (catchUp s).stuffClock = if s.stuffClock = s.demiClock then s.stuffClock else s.stuffClock + 1 := by
  unfold catchUp
  by_cases h : s.stuffClock = s.demiClock
  · rw [if_neg (by simp [h]), if_pos h]
    exact ⟨rfl, rfl⟩
  · rw [if_pos h, if_neg h]
    obtain ⟨_, _, _, _, hf⟩ := stuffIf_frame (s.stuffClock.toNat % 2 = 1) s.mBit s
    unfold stuffAdvance
    rw [show catchUpBit s = _ from hf]
    exact ⟨rfl, inc8_eq _⟩

theorem manLatch_clocks (h : Byte) (s : State) :
    (manLatch h s).stuffClock = s.stuffClock ∧
    ((manLatch h s).demiClock = s.demiClock + 1 ∨ (manLatch h s).demiClock = s.demiClock + 2) := by
  unfold manLatch
  split
  · refine ⟨rfl, .inr ?_⟩
    simp only [inc8_eq, BitVec.add_assoc]
    rfl
  · exact ⟨rfl, .inl (by simp only [inc8_eq])⟩

theorem manFlip_clocks (s : State) :
    (manFlip s).stuffClock = s.stuffClock ∧ (manFlip s).demiClock = s.demiClock := by
  unfold manFlip
  split <;> exact ⟨rfl, rfl⟩

/-! ## What single decoders leave alone (R122) -/

/-- What every building block of a pulse loop keeps, the loop keeps. -/
theorem pulseLoop_keeps {α : Type} (f : State → α) {body : Byte → Byte → State → State} {finish : State → State}
    (hb : ∀ p0 p1 s, f (body p0 p1 s) = f s) (ha : ∀ s, f (decAdvance s) = f s) (hf : ∀ s, f (finish s) = f s)
    (n : Nat) (s : State) : f (pulseLoop body finish n s) = f s := by
  induction n generalizing s with
  | zero =>
    unfold pulseLoop
    split
    · rfl
    · split
      · exact hf s
      · rfl
  | succ n ih =>
    unfold pulseLoop
    split
    · rfl
    · split
      · exact hf s
      · rw [ih, ha, hb]

/-- The Manchester decoder's own elements. -/
def manLocals (s : State) : Bool × Bool × Byte × Byte := (s.mPhase, s.mBit, s.demiClock, s.stuffClock)

theorem stuffBit_manLocals (b : Bool) (s : State) : manLocals (stuffBit b s) = manLocals s := by
  obtain ⟨_, _, _, _, h⟩ := stuffBit_frame b s
  rw [h]
  rfl

theorem finishBits_manLocals (s : State) : manLocals (finishBits s) = manLocals s := by
  unfold finishBits
  obtain ⟨_, _, _, h⟩ := flushPartial_frame s
  rw [h]
  rfl

theorem rawPulse_manLocals (p0 p1 : Byte) (s : State) : manLocals (rawPulse p0 p1 s) = manLocals s := by
  obtain ⟨_, _, _, h⟩ := rawPulse_frame p0 p1 s
  rw [h]
  rfl

/-- The ASK emission loop keeps the Manchester decoder's elements. -/
theorem askEmit_manLocals (s : State) : manLocals (askEmit s) = manLocals s :=
  pulseLoop_keeps manLocals (fun _ _ s => stuffBit_manLocals _ s) (fun _ => rfl) finishBits_manLocals _ s

/-- The OOK emission loop keeps the Manchester decoder's elements. -/
theorem ookEmit_manLocals (s : State) : manLocals (ookEmit s) = manLocals s := by
  refine pulseLoop_keeps manLocals (fun p0 p1 s => ?_) (fun _ => rfl) finishBits_manLocals _ s
  obtain ⟨_, _, _, _, h⟩ := ookPulse_frame p0 p1 s
  rw [h]
  rfl

/-- The dump loop keeps the Manchester decoder's elements and the accumulator (R246). -/
theorem rawLoop_keeps (n : Nat) (s : State) :
    manLocals (pulseLoop rawPulse finishRaw n s) = manLocals s ∧
      (pulseLoop rawPulse finishRaw n s).byteAccumulator = s.byteAccumulator := by
  refine ⟨pulseLoop_keeps manLocals (finish := finishRaw) rawPulse_manLocals (fun _ => rfl) (fun _ => rfl) n s,
    pulseLoop_keeps (·.byteAccumulator) (finish := finishRaw) (fun p0 p1 s => ?_) (fun _ => rfl) (fun _ => rfl) n s⟩
  obtain ⟨_, _, _, h⟩ := rawPulse_frame p0 p1 s
  rw [h]

end Sys2Proof.Machine
end

