-- ==== Sys2Proof/Laws/Memory.lean ====
section
/-! SUPPORT. The laws of the ring's memory: reading after a write, and that every operation keeps the canonical form. -/

namespace Sys2Proof.Machine

/-! ## The canonical form -/

theorem Memory.wfFrom_cons {lo k : Nat} {w : Byte} {rest : Memory} :
    Memory.wfFrom lo ((k, w) :: rest) = true ↔
      lo ≤ k ∧ k < 2 * Config.ringSlots ∧ w ≠ 0 ∧ Memory.wfFrom (k + 1) rest = true := by
  simp [Memory.wfFrom, and_assoc]

theorem Memory.wfFrom_mono {lo lo' : Nat} {m : Memory} (h : Memory.wfFrom lo m = true) (hl : lo' ≤ lo) :
    Memory.wfFrom lo' m = true := by
  cases m with
  | nil => rfl
  | cons c rest =>
    obtain ⟨h1, h2, h3, h4⟩ := Memory.wfFrom_cons.mp h
    exact Memory.wfFrom_cons.mpr ⟨le_trans hl h1, h2, h3, h4⟩

/-- In canonical form an address below the first cell is unlisted. -/
theorem Memory.read_of_lt {lo a : Nat} {m : Memory} (h : Memory.wfFrom lo m = true) (ha : a < lo) :
    Memory.read m a = 0 := by
  induction m generalizing lo with
  | nil => rfl
  | cons c rest ih =>
    obtain ⟨h1, -, -, h4⟩ := Memory.wfFrom_cons.mp h
    have hne : c.1 ≠ a := by omega
    simp only [Memory.read, hne, if_false]
    exact ih h4 (by omega)

/-- A write keeps the canonical form. -/
theorem Memory.write_wfFrom {lo a : Nat} {m : Memory} {v : Byte} (h : Memory.wfFrom lo m = true)
    (hlo : lo ≤ a) (ha : a < 2 * Config.ringSlots) : Memory.wfFrom lo (Memory.write m a v) = true := by
  induction m generalizing lo with
  | nil =>
    by_cases hv : v = 0
    · simp [Memory.write, hv, Memory.wfFrom]
    · simp only [Memory.write, hv, if_false]
      exact Memory.wfFrom_cons.mpr ⟨hlo, ha, hv, rfl⟩
  | cons c rest ih =>
    obtain ⟨k, w⟩ := c
    obtain ⟨h1, h2, h3, h4⟩ := Memory.wfFrom_cons.mp h
    simp only [Memory.write]
    split
    · split
      · exact h
      · next hv => exact Memory.wfFrom_cons.mpr ⟨hlo, ha, hv, Memory.wfFrom_cons.mpr ⟨by omega, h2, h3, h4⟩⟩
    · split
      · next heq =>
        split
        · exact Memory.wfFrom_mono h4 (by omega)
        · next hv => exact Memory.wfFrom_cons.mpr ⟨hlo, ha, hv, by rw [heq]; exact h4⟩
      · exact Memory.wfFrom_cons.mpr ⟨h1, h2, h3, ih h4 (by omega)⟩

/-- Reading after a write: the byte written, or what was there before. -/
theorem Memory.read_write {lo a b : Nat} {m : Memory} {v : Byte} (h : Memory.wfFrom lo m = true) :
    Memory.read (Memory.write m a v) b = if b = a then v else Memory.read m b := by
  induction m generalizing lo with
  | nil =>
    by_cases hv : v = 0
    · simp [Memory.write, Memory.read, hv]
    · rw [show Memory.write [] a v = [(a, v)] from if_neg hv]
      by_cases hb : b = a
      · simp [Memory.read, hb]
      · simp [Memory.read, hb, Ne.symm hb]
  | cons c rest ih =>
    obtain ⟨k, w⟩ := c
    obtain ⟨h1, h2, h3, h4⟩ := Memory.wfFrom_cons.mp h
    simp only [Memory.write]
    split
    · next hlt =>
      split
      · next hv =>
        subst hv
        by_cases hb : b = a
        · subst hb
          simpa using Memory.read_of_lt (Memory.wfFrom_cons.mpr ⟨le_refl k, h2, h3, h4⟩) hlt
        · simp [hb]
      · by_cases hb : b = a
        · simp [Memory.read, hb]
        · simp [Memory.read, hb, Ne.symm hb]
    · split
      · next heq =>
        subst heq
        by_cases hb : b = a
        · subst hb
          split
          · next hv =>
            subst hv
            simpa using Memory.read_of_lt h4 (Nat.lt_succ_self b)
          · simp [Memory.read]
        · have hb' : a ≠ b := Ne.symm hb
          split
          · simp [Memory.read, hb']
          · simp [Memory.read, hb']
      · next hge hne =>
        by_cases hk : k = b
        · subst hk
          have : k ≠ a := fun e => hne e.symm
          simp [Memory.read, this]
        · simp only [Memory.read, hk, if_false]
          exact ih h4

/-! ## The ring -/

theorem ringAddr_lt (i : Byte) (c : Bool) : ringAddr i c < 2 * Config.ringSlots := by
  have := i.isLt
  unfold ringAddr Config.ringSlots
  cases c <;> simp <;> omega

theorem ringAddr_inj {i j : Byte} {c d : Bool} : ringAddr i c = ringAddr j d ↔ i = j ∧ c = d := by
  constructor
  · intro h
    unfold ringAddr at h
    have hij : i.toNat = j.toNat := by cases c <;> cases d <;> simp at h <;> omega
    refine ⟨BitVec.eq_of_toNat_eq hij, ?_⟩
    cases c <;> cases d <;> simp at h ⊢ <;> omega
  · rintro ⟨rfl, rfl⟩
    rfl

/-- A write to the ring keeps the canonical form. -/
theorem ringWrite_wf {s : State} (h : Memory.wf s.ring = true) (i : Byte) (c : Bool) (v : Byte) :
    Memory.wf (ringWrite s i c v).ring = true :=
  Memory.write_wfFrom h (Nat.zero_le _) (ringAddr_lt i c)

theorem ringWriteSlot_wf {s : State} (h : Memory.wf s.ring = true) (i l r : Byte) :
    Memory.wf (ringWriteSlot s i l r).ring = true :=
  ringWrite_wf (ringWrite_wf h i false l) i true r

/-- Reading the ring after a write to one component (R71). -/
theorem ringRead_ringWrite {s : State} (h : Memory.wf s.ring = true) (i j : Byte) (c d : Bool) (v : Byte) :
    ringRead (ringWrite s i c v) j d = if j = i ∧ d = c then v else ringRead s j d := by
  unfold ringRead
  rw [ringWrite_ring, Memory.read_write h]
  simp only [ringAddr_inj]

/-- Reading the ring after a write to a slot (R71). -/
theorem ringRead_ringWriteSlot {s : State} (h : Memory.wf s.ring = true) (i j : Byte) (d : Bool) (l r : Byte) :
    ringRead (ringWriteSlot s i l r) j d = if j = i then (if d then r else l) else ringRead s j d := by
  unfold ringWriteSlot
  rw [ringRead_ringWrite (ringWrite_wf h i false l), ringRead_ringWrite h]
  by_cases hj : j = i <;> cases d <;> simp [hj]

/-- The reset memory has the canonical form. -/
theorem reset_ring_wf : Memory.wf State.reset.ring = true := rfl

end Sys2Proof.Machine
end

