-- ==== Sys2Proof/Laws/Parser.lean ====
section
/-! SUPPORT. All that a run of the parser can do, said once: bytes of a line move the line's elements, the line is left by the exit
path, or a transmit cycle starts. Frames and invariants follow from this. -/

namespace Sys2Proof.Machine

/-! ## Inside a line -/

/-- `t` is `s` after something inside a line: the elements a line moves, more output, the ring in canonical form. -/
def InLine (s t : State) : Prop :=
  t = { s with
        ring := t.ring, msgStart := t.msgStart, msgEnd := t.msgEnd, syncDuration := t.syncDuration
        byteAccumulator := t.byteAccumulator, bitCount := t.bitCount, checksum := t.checksum, msgType := t.msgType
        displayPulses := t.displayPulses, stackReq := t.stackReq, uartTx := t.uartTx, cpPhase := t.cpPhase
        cpType := t.cpType, cpWr := t.cpWr, cpHold := t.cpHold, cpPhold := t.cpPhold, cpK := t.cpK, cpKw := t.cpKw
        cpKi := t.cpKi, cpT0 := t.cpT0, cpRep := t.cpRep } ∧
  s.uartTx <+: t.uartTx ∧ (Memory.wf s.ring = true → Memory.wf t.ring = true) ∧ t.cpPhase ≠ .entry

theorem InLine.refl {s : State} (h : s.cpPhase ≠ .entry) : InLine s s :=
  ⟨rfl, List.prefix_rfl, id, h⟩

theorem InLine.trans {s t u : State} (h : InLine s t) (h' : InLine t u) : InLine s u := by
  obtain ⟨h1, h2, h3, -⟩ := h
  obtain ⟨h1', h2', h3', h4'⟩ := h'
  refine ⟨?_, h2.trans h2', h3' ∘ h3, h4'⟩
  conv_lhs => rw [h1', h1]

theorem emit_inLine (str : List Byte) {s : State} (h : s.cpPhase ≠ .entry) : InLine s (emit str s) :=
  ⟨rfl, List.prefix_append _ _, id, h⟩

/-- An unexpected byte inside a line (R297). -/
theorem raiseUnexpectedByte_cases (c : Byte) {s : State} (h : s.cpPhase ≠ .entry) :
    InLine s (raiseUnexpectedByte c s) ∨ ∃ u, InLine s u ∧ raiseUnexpectedByte c s = exitPath u := by
  unfold raiseUnexpectedByte
  split
  · exact .inr ⟨_, emit_inLine _ h, rfl⟩
  · exact .inl ⟨rfl, List.prefix_append _ _, id, by simp⟩

theorem cpTokenByte_cases (c : Byte) {s : State} (h : s.cpPhase ≠ .entry) :
    InLine s (cpTokenByte c s) ∨ ∃ u, InLine s u ∧ cpTokenByte c s = exitPath u := by
  unfold cpTokenByte cpBeginArg cpEndOfLine
  split
  · exact .inl ⟨rfl, List.prefix_rfl, id, by simp⟩
  split
  · exact .inl ⟨rfl, List.prefix_rfl, id, by simp⟩
  split
  · exact .inl ⟨rfl, List.prefix_rfl, id, by simp⟩
  split
  · exact .inl ⟨rfl, List.prefix_rfl, id, by simp⟩
  split
  · exact .inr ⟨_, emit_inLine _ h, rfl⟩
  · exact raiseUnexpectedByte_cases c h

theorem cpStartByte_cases (c : Byte) {s : State} (h : s.cpPhase ≠ .entry) :
    InLine s (cpStartByte c s) ∨ ∃ u, InLine s u ∧ cpStartByte c s = exitPath u := by
  unfold cpStartByte cpBeginKeyword
  split
  · exact .inl ⟨rfl, List.prefix_rfl, id, by simp⟩
  split
  · exact .inl ⟨rfl, List.prefix_rfl, id, by simp⟩
  split
  · exact .inl ⟨rfl, List.prefix_rfl, id, by simp⟩
  split
  · exact .inl ⟨rfl, List.prefix_rfl, id, by simp⟩
  · exact raiseUnexpectedByte_cases c h

theorem cpMTypeByte_cases (c : Byte) {s : State} (h : s.cpPhase ≠ .entry) :
    InLine s (cpMTypeByte c s) ∨ ∃ u, InLine s u ∧ cpMTypeByte c s = exitPath u := by
  unfold cpMTypeByte cpHeader
  split
  · exact .inl ⟨rfl, List.prefix_rfl, id, by simp⟩
  split
  · exact .inl ⟨rfl, List.prefix_rfl, id, by simp⟩
  split
  · exact .inl ⟨rfl, List.prefix_rfl, id, by simp⟩
  · exact raiseUnexpectedByte_cases c h

/-- A stored pulse (R283, R285). -/
theorem cpStore_inLine (low high : Byte) {s : State} (h : s.cpPhase ≠ .entry) : InLine s (cpStore low high s) :=
  ⟨rfl, List.prefix_rfl, fun hw => ringWriteSlot_wf hw _ _ _, h⟩

theorem cpStoreBits_inLine (v : Byte) (n : Nat) {s : State} (h : s.cpPhase ≠ .entry) :
    InLine s (cpStoreBits v n s) := by
  induction n generalizing s with
  | zero => exact InLine.refl h
  | succ n ih =>
    have h1 : InLine s (cpStoreBit (v.getLsbD n) s) := cpStore_inLine _ _ h
    exact h1.trans (ih h1.2.2.2)

theorem foldChecksum_inLine (v : Byte) {s : State} (h : s.cpPhase ≠ .entry) : InLine s (foldChecksum v s) :=
  ⟨rfl, List.prefix_rfl, id, h⟩

theorem cpPayloadByte_inLine (v : Byte) {s : State} (h : s.cpPhase ≠ .entry) : InLine s (cpPayloadByte v s) := by
  have hf := foldChecksum_inLine v h
  unfold cpPayloadByte
  split
  · exact hf.trans (cpStoreBits_inLine v 8 h)
  · exact hf
  · refine hf.trans ?_
    unfold cpRawByte
    split
    · exact ⟨rfl, List.prefix_rfl, id, h⟩
    · next p1 _ =>
      have h1 : InLine (foldChecksum v s) { foldChecksum v s with cpPhold := none } := ⟨rfl, List.prefix_rfl, id, h⟩
      exact h1.trans (cpStore_inLine v p1 h)

theorem cpCheck_inLine (v : Byte) (s : State) : InLine s (cpCheck v s) := by
  unfold cpCheck cpTrigger
  split
  · simp only
    split
    · exact ⟨rfl, List.prefix_rfl, fun hw => ringWriteSlot_wf hw _ _ _, by simp⟩
    · exact ⟨rfl, List.prefix_rfl, fun hw => ringWriteSlot_wf hw _ _ _, by simp⟩
  · exact ⟨rfl, List.prefix_append _ _, id, by simp [raiseChecksumMismatch]⟩

theorem cpArg_inLine (v : Byte) (s : State) : InLine s (cpArg v s) := by
  unfold cpArg
  split
  · exact ⟨rfl, List.prefix_rfl, id, by simp [cpSyncDur]⟩
  · exact ⟨rfl, List.prefix_rfl, id, by simp [cpBitCount]⟩
  · exact cpCheck_inLine v s

theorem cpKwByte_cases (c : Byte) {s : State} (h : s.cpPhase ≠ .entry) :
    InLine s (cpKwByte c s) ∨ ∃ u, InLine s u ∧ cpKwByte c s = exitPath u := by
  unfold cpKwByte
  split
  · split
    · unfold cpKeyword cpEndOfLine
      have hk : ∀ d q, InLine s { s with cpKi := 6, displayPulses := d, stackReq := q } :=
        fun d q => ⟨rfl, List.prefix_rfl, id, h⟩
      split
      · exact .inr ⟨_, (hk true s.stackReq).trans (emit_inLine _ h), rfl⟩
      · exact .inr ⟨_, (hk false s.stackReq).trans (emit_inLine _ h), rfl⟩
      · exact .inr ⟨_, (hk s.displayPulses true).trans (emit_inLine _ h), rfl⟩
    · exact .inl ⟨rfl, List.prefix_rfl, id, h⟩
  · exact raiseUnexpectedByte_cases c h

/-- All that a byte can do (R301): it stays in the line, or the line is left by the exit path. -/
theorem cpHandleByte_cases (c : Byte) {s : State} (h : s.cpPhase ≠ .entry) :
    InLine s (cpHandleByte c s) ∨ ∃ u, InLine s u ∧ cpHandleByte c s = exitPath u := by
  unfold cpHandleByte
  split
  · contradiction
  · exact cpStartByte_cases c h
  · exact cpMTypeByte_cases c h
  · exact cpTokenByte_cases c h
  · split
    · exact cpTokenByte_cases c h
    · exact .inl ⟨rfl, List.prefix_rfl, id, by simp [cpHighNibble]⟩
  · split
    · exact raiseUnexpectedByte_cases c h
    · obtain ⟨h1, h2, h3, -⟩ := cpPayloadByte_inLine (joinNibbles s.cpHold ‹BitVec 4›) h
      refine .inl ⟨?_, h2, h3, by simp⟩
      conv_lhs => rw [h1]
  · split
    · exact raiseUnexpectedByte_cases c h
    · exact .inl ⟨rfl, List.prefix_rfl, id, by simp [cpHighNibble]⟩
  · split
    · exact raiseUnexpectedByte_cases c h
    · exact .inl (cpArg_inLine _ s)
  · exact cpKwByte_cases c h
  · split
    · exact .inr ⟨s, InLine.refl h, rfl⟩
    · exact .inl (InLine.refl h)
  · exact .inl (InLine.refl h)
  · exact .inl (InLine.refl h)

/-! ## Reading bytes -/

theorem InLine.runningState {s t : State} (h : InLine s t) : t.runningState = s.runningState := by
  rw [h.1]

/-- All that reading bytes can do: what is left unread is an end of them, and the line goes on or was left. -/
theorem cpRead_cases (bytes : List Byte) {s : State} (hr : s.runningState = .receivingCommand)
    (h : s.cpPhase ≠ .entry) :
    (cpRead bytes s).1 <:+ bytes ∧
    (InLine s (cpRead bytes s).2 ∨ ∃ u, InLine s u ∧ (cpRead bytes s).2 = exitPath u) := by
  induction bytes generalizing s with
  | nil => exact ⟨List.suffix_rfl, .inl (InLine.refl h)⟩
  | cons c rest ih =>
    unfold cpRead
    split
    · exact ⟨List.suffix_rfl, .inl (InLine.refl h)⟩
    · have h0 : InLine s { s with cpT0 := s.tickcount } := ⟨rfl, List.prefix_rfl, id, h⟩
      simp only
      rcases cpHandleByte_cases c (s := { s with cpT0 := s.tickcount }) h with h1 | ⟨u, h1, he⟩
      · have h2 := h0.trans h1
        have hr2 := h2.runningState.trans hr
        rw [if_pos hr2]
        obtain ⟨h3, h4⟩ := ih hr2 h1.2.2.2
        refine ⟨h3.trans (List.suffix_cons c rest), ?_⟩
        rcases h4 with h4 | ⟨v, h4, h5⟩
        · exact .inl (h2.trans h4)
        · exact .inr ⟨v, h2.trans h4, h5⟩
      · rw [he, if_neg (by simp [exitPath])]
        exact ⟨List.suffix_cons c rest, .inr ⟨u, h0.trans h1, rfl⟩⟩

/-- `t` is a line state `s` after a run of the parser: the line went on, a transmit cycle started, or the line was left. -/
def ParserRun (s t : State) : Prop :=
  ∃ u q, InLine s u ∧ q <:+ s.uartRxQ ∧
    (t = { u with uartRxQ := q } ∨ t = cpStartCycle { u with uartRxQ := q } ∨ t = exitPath { u with uartRxQ := q })

theorem cpReadQueue_run {s : State} (hr : s.runningState = .receivingCommand) (h : s.cpPhase ≠ .entry) :
    ParserRun s (cpReadQueue s) := by
  obtain ⟨h1, h2⟩ := cpRead_cases s.uartRxQ hr h
  unfold cpReadQueue
  generalize cpRead s.uartRxQ s = r at h1 h2
  rcases h2 with h2 | ⟨u, h2, he⟩
  · refine ⟨r.2, r.1, h2, h1, ?_⟩
    have hr2 : ({ r.2 with uartRxQ := r.1 } : State).runningState = .receivingCommand := h2.runningState.trans hr
    unfold cpAfterRead
    rw [if_pos hr2]
    split
    · exact .inr (.inl rfl)
    · split
      · exact .inr (.inr rfl)
      · exact .inl rfl
  · refine ⟨u, r.1, h2, h1, .inr (.inr ?_)⟩
    rw [he]
    rfl

/-- `b` is the state in which a run of the parser begins its work: entry, the end of a cycle, or nothing done. -/
def ParserBegins (s b : State) : Prop :=
  b.cpPhase ≠ .entry ∧ ∃ p t0 r,
    b = { s with cpPhase := p, cpT0 := t0, cpRep := r } ∨
    b = { disableTransceiver s with cpPhase := p, cpT0 := t0, cpRep := r } ∨
    b = { enableReceiver s with cpPhase := p, cpT0 := t0, cpRep := r }

theorem ParserBegins.same {s : State} (h : s.cpPhase ≠ .entry) : ParserBegins s s :=
  ⟨h, s.cpPhase, s.cpT0, s.cpRep, .inl rfl⟩

theorem ParserRun.same {s : State} (h : s.cpPhase ≠ .entry) : ParserRun s s :=
  ⟨s, s.uartRxQ, InLine.refl h, List.suffix_rfl, .inl rfl⟩

/-- Passing through `disable_transceiver` first leaves no trace (R161, R162, R166). -/
theorem enableTransmitter_disableTransceiver (s : State) :
    enableTransmitter (disableTransceiver s) = enableTransmitter s := rfl

/-- All that the start of a transmit cycle does (R292, R166). -/
theorem cpStartCycle_eq (s : State) : cpStartCycle s = cycleStarted s := rfl

theorem ParserRun.cycle {s : State} (h : s.cpPhase ≠ .entry) : ParserRun s (cpStartCycle s) :=
  ⟨s, s.uartRxQ, InLine.refl h, List.suffix_rfl, .inr (.inl rfl)⟩

/-- All that the parser's loop can do. -/
theorem cpRun_cases {s : State} (hr : s.runningState = .receivingCommand) (h : s.cpPhase ≠ .entry) :
    ∃ b, ParserBegins s b ∧ ParserRun b (cpRun s) := by
  have hq : ∃ b, ParserBegins s b ∧ ParserRun b (cpReadQueue s) := ⟨s, ParserBegins.same h, cpReadQueue_run hr h⟩
  unfold cpRun
  split
  · exact ⟨s, ParserBegins.same h, ParserRun.cycle h⟩
  · split
    · unfold cpEndCycle
      simp only
      split
      · exact ⟨{ disableTransceiver s with cpRep := s.cpRep + 1 }, ⟨h, _, _, _, .inr (.inl rfl)⟩, ParserRun.cycle h⟩
      · exact ⟨_, ⟨by simp, _, _, _, .inr (.inr rfl)⟩, cpReadQueue_run hr (by simp)⟩
    · exact ⟨s, ParserBegins.same h, ParserRun.same h⟩
  all_goals exact hq

/-- All that `receive_command` can do (R267). -/
theorem receiveCommand_cases {s : State} (hr : s.runningState = .receivingCommand) :
    ∃ b, ParserBegins s b ∧ ParserRun b (receiveCommand s) := by
  unfold receiveCommand
  by_cases h : s.cpPhase = .entry
  · have he : cpEnter s = { disableTransceiver s with cpPhase := .start, cpT0 := s.tickcount } := if_pos h
    rw [he]
    exact ⟨_, ⟨by simp, _, _, s.cpRep, .inr (.inl rfl)⟩, cpReadQueue_run hr (by simp)⟩
  · have he : cpEnter s = s := if_neg h
    rw [he]
    exact cpRun_cases hr h

/-! ## One inbound operation -/

/-- `t` is `s` after a run of the parser, whatever it left queued. -/
def ParserMove (s t : State) : Prop :=
  ∃ u q, InLine s u ∧
    (t = { u with uartRxQ := q } ∨ t = cpStartCycle { u with uartRxQ := q } ∨ t = exitPath { u with uartRxQ := q })

theorem ParserRun.move {s t : State} (h : ParserRun s t) : ParserMove s t := by
  obtain ⟨u, q, h1, -, h2⟩ := h
  exact ⟨u, q, h1, h2⟩

theorem cpReading_iff {s : State} :
    cpReading s = true ↔ s.runningState = .receivingCommand ∧ s.cpPhase ≠ .txStart ∧ s.cpPhase ≠ .txWait := by
  unfold cpReading
  rw [decide_eq_true_eq]

theorem parserReads_not {s : State} (h : cpReading s = false) (bytes : List Byte) : parserReads bytes s = s := by
  unfold parserReads
  rw [h]
  rfl

/-- All that an inbound operation can do (log 5). -/
theorem parserReads_cases {s : State} (h : cpReading s = true) (bytes : List Byte) :
    ∃ b, ParserBegins s b ∧ ParserMove b (parserReads bytes s) := by
  obtain ⟨hr, -, -⟩ := cpReading_iff.mp h
  have key : ∀ b : State, b.runningState = .receivingCommand → b.cpPhase ≠ .entry → cpEnter s = b →
      ParserMove b (parserReads bytes s) := by
    intro b hb hp he
    obtain ⟨-, h2⟩ := cpRead_cases bytes hb hp
    unfold parserReads
    rw [if_pos h, he]
    simp only
    generalize cpRead bytes b = r at h2
    rcases h2 with h2 | ⟨u, h2, hx⟩
    · refine ⟨r.2, r.1 ++ r.2.uartRxQ, h2, ?_⟩
      split
      · exact .inr (.inl rfl)
      · exact .inl rfl
    · refine ⟨u, r.1 ++ r.2.uartRxQ, h2, .inr (.inr ?_)⟩
      rw [if_neg (by rw [hx]; simp [exitPath]), hx]
      rfl
  by_cases hp : s.cpPhase = .entry
  · have he : cpEnter s = { disableTransceiver s with cpPhase := .start, cpT0 := s.tickcount } := if_pos hp
    exact ⟨_, ⟨by simp, _, _, s.cpRep, .inr (.inl rfl)⟩, key _ hr (by simp) he⟩
  · exact ⟨s, ParserBegins.same hp, key s hr hp (if_neg hp)⟩

end Sys2Proof.Machine
end

