-- ==== Sys2Proof/Laws/Searcher.lean ====
section
/-! SUPPORT. The searcher's step as equations over the spec's integer arithmetic (R190 to R202), and what the step writes. -/

namespace Sys2Proof.Machine

theorem rxAvail_iff {s : State} : rxAvail s = true ↔ s.uartRxQ ≠ [] := by simp [rxAvail]

theorem exec_dispatchSyncSearch {s : State} (h : s.runningState = .syncSearch) :
    exec .dispatchSyncSearch s = .next (syncSearch s) :=
  congrArg _ (if_pos h)

theorem syncSearch_search {s : State} (h : s.ssPhase = .search) : syncSearch s = ssLoop Config.ringSlots s := by
  unfold syncSearch
  rw [h]

/-- A search that starts over (R201). -/
theorem syncSearch_restart {s : State} (h : s.ssPhase = .restart ∨ (s.ssPhase = .awaitDecoder ∧ retryDue s = false)) :
    syncSearch s = ssLoop Config.ringSlots (ssRestart s) := by
  unfold syncSearch
  rcases h with h | ⟨h, hn⟩
  · rw [h]
  · rw [h]
    exact if_neg (by simp [hn])

/-- The Manchester retry (R200). -/
theorem syncSearch_retry {s : State} (h : s.ssPhase = .awaitDecoder) (hr : retryDue s = true) :
    syncSearch s = ssRetry s := by
  unfold syncSearch
  rw [h]
  exact if_pos hr

theorem retryDue_iff {s : State} :
    retryDue s = true ↔ s.decoded = false ∧ s.ssChoice = .ask ∧ s.manchesterHits ≠ 0 ∧ s.ssRetried = false := by
  unfold retryDue
  simp only [Bool.and_eq_true, Bool.not_eq_true', decide_eq_true_eq]
  tauto

/-- The normalization computes the copies of R197. -/
theorem normalize_of_normalized {p0 p1 sd : Nat} {q0 q1 : Int} (h : Normalized p0 p1 sd q0 q1) :
    q0 = (Machine.normalize p0 p1 sd).1 ∧ q1 = (Machine.normalize p0 p1 sd).2 := by
  revert h
  unfold Normalized Machine.normalize Config.normMinD absdiff
  simp only
  intro h
  split at h <;> split <;> (try omega)
  split at h <;> split <;> (try omega)
  split at h <;> split <;> (try omega)
  split at h <;> split <;> omega

/-- The examination of a pulse, in the spec's arithmetic (R194 to R198). -/
theorem ssExamine_eq {s : State} {q0 q1 : Int}
    (h : Normalized (ringRead s s.ssPi false).toNat (ringRead s s.ssPi true).toNat s.syncDuration.toNat q0 q1) :
    ssExamine s = examined q0 q1 s := by
  obtain ⟨h0, h1⟩ := normalize_of_normalized h
  generalize hp : Machine.normalize (ringRead s s.ssPi false).toNat (ringRead s s.ssPi true).toNat
    s.syncDuration.toNat = p at h0 h1
  obtain ⟨a, b⟩ := p
  simp only at h0 h1
  subst h0 h1
  unfold ssExamine ssPulse
  rw [hp]
  unfold examined
  have hacc : (accepts (a + b) s.syncDuration.toNat = true) ↔
      (0x20 ≤ ((a : Int) + b) ∧ ((a : Int) + b - s.syncDuration.toNat).natAbs ≤ 8) := by
    unfold accepts absdiff Config.syncMinD Config.syncTol
    simp only [decide_eq_true_eq]
    omega
  simp only
  by_cases ha : accepts (a + b) s.syncDuration.toNat = true
  · rw [if_pos ha, if_pos (hacc.mp ha)]
    have heq : (equalHalves a b = true) ↔ (((b : Int) - a).natAbs : Int) < ((a : Int) + b) / 8 := by
      unfold equalHalves absdiff
      simp only [decide_eq_true_eq]
      omega
    unfold ssAdvance ssMatch updateEstimate
    simp only [inc8_eq, heq, Nat.cast_add]
  · rw [if_neg ha, if_neg (fun x => ha (hacc.mpr x))]
    unfold ssAdvance ssSeed
    rw [← Nat.cast_add, BitVec.ofInt_natCast]
    simp only [inc8_eq]

/-- The hand-off, in the spec's terms (R199). -/
theorem ssClassify_eq (s : State) : ssClassify s = classified s := by
  unfold ssClassify classified classification decoderOf Config.ookMinSd Config.manMinHits Config.ckSeed
  cases s.displayPulses <;> by_cases h1 : 0x80 < s.syncDuration.toNat <;>
    by_cases h2 : 4 < s.manchesterHits.toNat <;>
    simp only [h1, h2, Bool.false_eq_true, if_false, if_true]

/-- What one examined pulse writes. -/
theorem ssExamine_frame (s : State) :
    ∃ p st sd l h, ssExamine s =
      { s with ssPi := p, syncStart := st, syncDuration := sd, syncLen := l, manchesterHits := h } := by
  unfold ssExamine
  simp only
  split
  · exact ⟨_, _, _, _, _, rfl⟩
  · exact ⟨_, _, _, _, _, rfl⟩

end Sys2Proof.Machine
end

