-- ==== Sys2Proof/Laws/Timer.lean ====
section
/-! SUPPORT. TICK, the sampler and the transmit driver: one equation per case, so that no proof unfolds a handler. -/

namespace Sys2Proof.Machine

/-! ## TICK (R171) -/

/-- The three TICK rows are the one event. -/
theorem exec_tickRows {i : Instr} {level : Bool} (hi : i ∈ tickRows level) (s : State) :
    exec i s = .next (tickEvent Config.tickFreeRunning level s) := by
  simp only [tickRows, List.mem_cons, List.not_mem_nil, or_false] at hi
  rcases hi with rfl | rfl | rfl <;> rfl

/-- Channel A disarmed: at most the free-running count. -/
theorem tickChannelA_off (free level : Bool) {s : State} (ha : s.ocieA = false) :
    tickChannelA free level s = { s with tickcount := if free then s.tickcount + 1 else s.tickcount } := by
  unfold tickChannelA
  rw [if_neg (by simp [ha])]
  cases free
  · rfl
  · exact countTick_eq s

/-- A TICK for the transmit driver. -/
theorem tickEvent_driver (free level : Bool) {s : State} (ha : s.ocieA = false) (hb : s.ocieB = true) :
    tickEvent free level s =
      { txDriver { s with tickcount := if free then s.tickcount + 1 else s.tickcount } with wake := true } := by
  have key : tickChannelB (tickChannelA free level s) =
      txDriver { s with tickcount := if free then s.tickcount + 1 else s.tickcount } := by
    rw [tickChannelA_off free level ha]
    exact if_pos hb
  unfold tickEvent
  rw [key]
  simp only [ha, hb, Bool.false_or, Bool.true_or]

/-- A TICK with nothing armed. -/
theorem tickEvent_unarmed (free level : Bool) {s : State} (ha : s.ocieA = false) (hb : s.ocieB = false) :
    tickEvent free level s = if free then { s with tickcount := s.tickcount + 1, wake := true } else s := by
  have key : tickChannelB (tickChannelA free level s) =
      { s with tickcount := if free then s.tickcount + 1 else s.tickcount } := by
    rw [tickChannelA_off free level ha]
    exact if_neg (by simp [hb])
  unfold tickEvent
  rw [key]
  cases free
  · have hw : ∀ w, (s.ocieA || s.ocieB || false || w) = w := by simp [ha, hb]
    simp only [hw]
    rfl
  · have hw : ∀ w, (s.ocieA || s.ocieB || true || w) = true := by simp
    simp only [hw]
    rfl

/-! ## The transmit driver (R151 to R154) -/

theorem txDriver_start {s : State} (hm : s.mode = .startTransmit) :
    txDriver s =
      { s with
        current := s.msgStart
        txRemLow := ringRead s s.msgStart false
        txRemHigh := ringRead s s.msgStart true
        txBit := true
        mode := .transmitting
        txPin := true } := by
  unfold txDriver
  rw [hm]
  rfl

theorem txDriver_still {s : State} (hm : s.mode = .idle ∨ s.mode = .receiving) : txDriver s = s := by
  unfold txDriver
  rcases hm with h | h <;> rw [h]

theorem txDriver_transmitting {s : State} (hm : s.mode = .transmitting) : txDriver s = txDrive (txCount s) := by
  unfold txDriver
  rw [hm]

/-- The high phase (R152). -/
theorem txCount_high {s : State} (h : s.txBit = true) :
    txCount s = { s with txRemHigh := s.txRemHigh - 1, txBit := decide (s.txRemHigh - 1 ≠ 0) } := by
  unfold txCount dec8
  rw [if_pos h]
  by_cases h0 : s.txRemHigh - 1 = 0
  · rw [if_pos h0, h0]
    rfl
  · rw [if_neg h0, show decide (s.txRemHigh - 1 ≠ 0) = s.txBit by rw [h]; exact decide_eq_true h0]

/-- The low phase (R152). -/
theorem txCount_low {s : State} (h : s.txBit = false) (h0 : s.txRemLow - 1 ≠ 0) :
    txCount s = { s with txRemLow := s.txRemLow - 1 } := by
  unfold txCount dec8
  rw [if_neg (by simp [h]), if_neg h0]

/-- The end of a low phase: the reload (R152). -/
theorem txCount_reload {s : State} (h : s.txBit = false) (h0 : s.txRemLow - 1 = 0) :
    txCount s =
      { s with
        current := s.current + 1
        txRemLow := ringRead s (s.current + 1) false
        txRemHigh := ringRead s (s.current + 1) true
        mode := if s.current + 1 = s.msgEnd then .idle else s.mode
        txBit := decide (ringRead s (s.current + 1) true ≠ 0) } := by
  unfold txCount dec8
  rw [if_neg (by simp [h]), if_pos h0]
  unfold txNextSlot
  rw [inc8_eq]

/-- The driver writes its own elements, `current` and `mode` (R158). -/
theorem txDriver_frame (s : State) :
    ∃ c m rl rh b p, txDriver s =
      { s with current := c, mode := m, txRemLow := rl, txRemHigh := rh, txBit := b, txPin := p } := by
  cases hm : s.mode with
  | idle =>
    rw [txDriver_still (.inl hm)]
    exact ⟨_, _, _, _, _, _, rfl⟩
  | receiving =>
    rw [txDriver_still (.inr hm)]
    exact ⟨_, _, _, _, _, _, rfl⟩
  | startTransmit =>
    rw [txDriver_start hm]
    exact ⟨_, _, _, _, _, _, rfl⟩
  | transmitting =>
    rw [txDriver_transmitting hm]
    cases hb : s.txBit with
    | true =>
      rw [txCount_high hb]
      exact ⟨_, _, _, _, _, _, rfl⟩
    | false =>
      by_cases h0 : s.txRemLow - 1 = 0
      · rw [txCount_reload hb h0]
        exact ⟨_, _, _, _, _, _, rfl⟩
      · rw [txCount_low hb h0]
        exact ⟨_, _, _, _, _, _, rfl⟩

/-! ## The sampler (R145) -/

/-- The slot counts after step 1 of the sampler (R142). -/
def countedSlot (s : State) (level : Bool) (j : Byte) (c : Bool) : Byte :=
  if j = s.current ∧ c = level then satInc (ringRead s j c) else ringRead s j c

theorem ringRead_samplerCount {s : State} (h : Memory.wf s.ring = true) (level : Bool) (j : Byte) (c : Bool) :
    ringRead (samplerCount level s) j c = countedSlot s level j c := by
  unfold samplerCount countedSlot
  rw [ringRead_ringWrite h]
  by_cases hj : j = s.current ∧ c = level
  · rw [if_pos hj, if_pos hj, hj.1, hj.2]
  · rw [if_neg hj, if_neg hj]

/-- Where the sampler stands after a tick (R143). -/
def samplerNext (s : State) (level : Bool) : Byte :=
  if (s.prevLevel = false ∧ level = true) ∧
      slotAccepted (countedSlot s level s.current false) (countedSlot s level s.current true) = true then
    inc8 s.current
  else s.current

/-- The sampler, complete (R145): the elements it writes, and every byte of the ring after it. -/
theorem sampler_spec {s : State} (h : Memory.wf s.ring = true) (level : Bool) :
    ∃ m, sampler level s =
        { s with
          ring := m, current := samplerNext s level, tickcount := s.tickcount + 1, prevLevel := level } ∧
      Memory.wf m = true ∧
      ∀ j c, Memory.read m (ringAddr j c) =
        if (s.prevLevel = false ∧ level = true) ∧ j = samplerNext s level then 0 else countedSlot s level j c := by
  have hc : Memory.wf (samplerCount level s).ring = true := ringWrite_wf h _ _ _
  by_cases hr : s.prevLevel = false ∧ level = true
  · refine ⟨(samplerEdge level (samplerCount level s)).ring, ?_, ?_, ?_⟩
    · unfold sampler
      rw [countTick_eq]
      have hn : (if slotAccepted (ringRead (samplerCount level s) (samplerCount level s).current false)
          (ringRead (samplerCount level s) (samplerCount level s).current true) = true then
            inc8 (samplerCount level s).current else (samplerCount level s).current) = samplerNext s level := by
        unfold samplerNext
        rw [ringRead_samplerCount h, ringRead_samplerCount h]
        simp only [hr, and_self, true_and]
        rfl
      have he : samplerEdge level (samplerCount level s) =
          ringWriteSlot { samplerCount level s with current := samplerNext s level } (samplerNext s level) 0 0 := by
        unfold samplerEdge
        rw [← hn]
        exact if_pos hr
      rw [he]
      rfl
    · unfold samplerEdge
      split
      · exact ringWriteSlot_wf (s := { samplerCount level s with current := _ }) hc _ _ _
      · exact hc
    · intro j c
      have hn : (if slotAccepted (ringRead (samplerCount level s) (samplerCount level s).current false)
          (ringRead (samplerCount level s) (samplerCount level s).current true) = true then
            inc8 (samplerCount level s).current else (samplerCount level s).current) = samplerNext s level := by
        unfold samplerNext
        rw [ringRead_samplerCount h, ringRead_samplerCount h]
        simp only [hr, and_self, true_and]
        rfl
      have he : samplerEdge level (samplerCount level s) =
          ringWriteSlot { samplerCount level s with current := samplerNext s level } (samplerNext s level) 0 0 := by
        unfold samplerEdge
        rw [← hn]
        exact if_pos hr
      have hread := ringRead_ringWriteSlot
        (s := { samplerCount level s with current := samplerNext s level }) hc (samplerNext s level) j c 0 0
      rw [he]
      unfold ringRead at hread
      rw [hread]
      by_cases hj : j = samplerNext s level
      · rw [if_pos hj, if_pos (And.intro hr hj)]
        cases c <;> rfl
      · rw [if_neg hj, if_neg (fun x => hj x.2)]
        exact ringRead_samplerCount h level j c
  · refine ⟨(samplerCount level s).ring, ?_, hc, ?_⟩
    · unfold sampler
      rw [countTick_eq]
      have he : samplerEdge level (samplerCount level s) = samplerCount level s := if_neg hr
      have hn : samplerNext s level = s.current := if_neg (fun x => hr x.1)
      rw [he, hn]
      rfl
    · intro j c
      rw [if_neg (fun x => hr x.1)]
      exact ringRead_samplerCount h level j c

/-- A TICK for the sampler. -/
theorem tickEvent_sampler (free level : Bool) {s : State} (ha : s.ocieA = true) (hb : s.ocieB = false) :
    tickEvent free level s = { sampler level s with wake := true } := by
  have hA : tickChannelA free level s = sampler level s := if_pos ha
  have hB : (sampler level s).ocieB = false := by
    unfold sampler samplerEdge countTick samplerCount
    split <;> exact hb
  have key : tickChannelB (tickChannelA free level s) = sampler level s := by
    rw [hA]
    exact if_neg (by simp [hB])
  unfold tickEvent
  rw [key]
  simp only [ha, Bool.true_or]

end Sys2Proof.Machine
end

