-- ==== Sys2Proof/Laws/Exec.lean ====
section
/-! SUPPORT. One case split over all operations: a relation between states that the few building blocks of the tasks keep holds
between the states before and after every operation but RESET and TICK (which have their equations in Laws/Timer.lean). -/

namespace Sys2Proof.Machine

/-- A relation that every building block keeps. -/
structure KeptByTasks (R : State → State → Prop) : Prop where
  refl : ∀ s, R s s
  trans : ∀ s t u, R s t → R t u → R s u
  woken : ∀ s b, R s { s with wake := b }
  queued : ∀ s q k, R s { s with uartRxQ := q, freeIx := k }
  cancelled : ∀ s, R s (cancelDecode s)
  begins : ∀ s b, ParserBegins s b → R s b
  move : ∀ s t, ParserMove s t → R s t
  emitted : ∀ s t, Emitted s t → R s t
  ended : ∀ s n, R s (decoderEnd n s)
  commits : ∀ s t, R s (commit t s)
  manCommits : ∀ s, R s (manCommit s)
  locking : ∀ s a c, R s { s with decPi := a, decN := c, decPhase := .lockIn }
  lockFails : ∀ s, R s (raiseLockInFailure s)
  trails : ∀ s, R s (trailer s)
  okay : ∀ s, R s (cpEndOfLine s)
  badByte : ∀ s c, R s (raiseUnexpectedByte c s)
  badSum : ∀ s, R s (raiseChecksumMismatch s)
  receiverOn : ∀ s, R s (enableReceiver s)
  transmitterOn : ∀ s, R s (enableTransmitter s)
  transceiverOff : ∀ s, R s (disableTransceiver s)
  searches : ∀ s, R s (syncSearch s)

variable {R : State → State → Prop}

theorem KeptByTasks.emittedTo (h : KeptByTasks R) {s t : State} (he : EmittedTo s t) : R s t := by
  rcases he with he | ⟨u, n, he, rfl⟩
  · exact h.emitted s t he
  · exact h.trans s u _ (h.emitted s u he) (h.ended u n)

theorem KeptByTasks.decodes (h : KeptByTasks R) (k : LockDecoder) (s : State) : R s (k.run s) := by
  rcases k.run_cases s with ⟨_, hr⟩ | ⟨_, a, c, hr | hr | hr⟩ <;> rw [hr]
  · exact h.emittedTo (k.emission_emittedTo s)
  · exact h.locking s a c
  · exact h.trans s _ _ (h.locking s a c) (h.lockFails _)
  · refine h.trans s _ _ (h.locking s a c) (h.trans _ _ _ ?_ (h.emittedTo (k.emission_emittedTo _)))
    rw [← k.commitOf_eq]
    cases k
    · exact h.commits _ _
    · exact h.commits _ _
    · exact h.manCommits _

theorem KeptByTasks.dumps (h : KeptByTasks R) (s : State) : R s (decodePulses s) := by
  rcases decodePulses_cases s with ⟨_, he⟩ | ⟨_, he⟩
  · exact h.emittedTo he
  · exact h.trans _ _ _ (h.commits s .p) (h.emittedTo he)

theorem KeptByTasks.parses (h : KeptByTasks R) {s : State} (hr : s.runningState = .receivingCommand) :
    R s (receiveCommand s) := by
  obtain ⟨b, h1, h2⟩ := receiveCommand_cases hr
  exact h.trans _ _ _ (h.begins s b h1) (h.move b _ h2.move)

theorem KeptByTasks.reads (h : KeptByTasks R) (bytes : List Byte) (s : State) : R s (parserReads bytes s) := by
  cases hc : cpReading s
  · rw [parserReads_not hc]
    exact h.refl s
  · obtain ⟨b, h1, h2⟩ := parserReads_cases hc bytes
    exact h.trans _ _ _ (h.begins s b h1) (h.move b _ h2)

theorem KeptByTasks.task (h : KeptByTasks R) (s : State) : R s (runTask s) := by
  unfold runTask
  split
  · exact h.searches s
  · exact h.decodes .ask s
  · exact h.decodes .ook s
  · exact h.decodes .man s
  · exact h.dumps s
  · exact h.trails s
  · exact h.parses ‹_›

theorem KeptByTasks.dispatches (h : KeptByTasks R) (s : State) : R s (dispatchEvent s) := by
  unfold dispatchEvent
  split
  · refine h.trans _ _ _ (h.woken s false) ?_
    unfold dispatchTask
    split
    · exact h.trans _ _ _ (h.cancelled _) (h.task _)
    · exact h.task _
  · exact h.refl s

/-- The relation holds across every operation but RESET and TICK. -/
theorem KeptByTasks.exec (h : KeptByTasks R) {i : Instr} {s t : State} (hr : i ≠ .reset)
    (ht : ∀ level, i ∉ tickRows level) (he : exec i s = .next t) : R s t := by
  have target : ∀ r, Machine.exec (targetOf r) s = .next t → R s t := by
    intro r hx
    by_cases hs : s.runningState = r
    · rw [exec_targetOf hs] at hx
      cases hx
      exact h.task s
    · rw [exec_targetOf_other hs] at hx
      cases hx
      exact h.refl s
  cases i with
  | reset => contradiction
  | tickSampler l => exact absurd (by simp [tickRows]) (ht l)
  | tickTxdriver l => exact absurd (by simp [tickRows]) (ht l)
  | tickUnarmed l => exact absurd (by simp [tickRows]) (ht l)
  | uartRx b =>
    cases he
    unfold uartRxEvent uartRxAppend
    split
    · exact h.trans _ _ _ (h.queued s _ _) (h.woken _ true)
    · exact h.trans _ _ _ (h.queued s _ s.freeIx) (h.woken _ true)
  | dispatch =>
    cases he
    exact h.dispatches s
  | dispatchSyncSearch => exact target .syncSearch he
  | dispatchDecodeAsk => exact target .decodingAsk he
  | dispatchDecodeOok => exact target .decodingOok he
  | dispatchDecodeManchester => exact target .decodingManchester he
  | dispatchDecodePulses => exact target .decodeRawPulses he
  | dispatchTrailer => exact target .decodeDone he
  | dispatchReceiveCommand => exact target .receivingCommand he
  | dispatchCancel sss =>
    by_cases hc : runningCode s.runningState = sss ∧ cancelDue s = true
    · rw [exec_dispatchCancel hc.1 hc.2] at he
      cases he
      exact h.trans _ _ _ (h.cancelled s) (h.parses rfl)
    · rw [exec_dispatchCancel_other hc] at he
      cases he
      exact h.refl s
  | enableReceiver =>
    cases he
    exact h.receiverOn s
  | enableTransmitter =>
    cases he
    exact h.transmitterOn s
  | disableTransceiver =>
    cases he
    exact h.transceiverOff s
  | outMa =>
    cases he
    exact h.commits s _
  | outMo =>
    cases he
    exact h.commits s _
  | outMm =>
    cases he
    exact h.manCommits s
  | outMp =>
    cases he
    exact h.commits s _
  | outByte v =>
    cases he
    rw [emitByte_eq]
    exact h.emitted s _ (Emitted.byte s v s.byteAccumulator s.bitCount)
  | outPulse p1 p0 =>
    cases he
    exact h.emitted s _ ((rawPulse_emitted p0 p1 s).trans (decAdvance_emitted _))
  | outTrailer n d c =>
    cases he
    exact h.trails s
  | outOk =>
    cases he
    exact h.okay s
  | outErrbyte c =>
    cases he
    exact h.badByte s c
  | outErrsum =>
    cases he
    exact h.badSum s
  | _ =>
    cases he
    exact h.reads _ s

end Sys2Proof.Machine
end

