-- ==== Sys2Proof/Laws/Discipline.lean ====
section
/-! SUPPORT. Where each task can leave the machine: its `running_state`, its resume point and the other tasks' resume points (R52 (f),
R177); and what a TICK and a UART_RX leave alone. -/

namespace Sys2Proof.Machine

/-! ## The searcher -/

/-- The searcher ends waiting, with a command picked up, or with a decoder named. -/
def SearchOut (s t : State) : Prop :=
  t.decPhase = s.decPhase ∧ t.cpPhase = s.cpPhase ∧
  ((t.runningState = .syncSearch ∧ t.ssPhase = .search) ∨
   (t.runningState = .receivingCommand ∧ t.ssPhase = .restart) ∨
   (isDecoding t.runningState = true ∧ t.ssPhase = .awaitDecoder))

theorem decoderOf_isDecoding (c : SsChoice) : isDecoding (decoderOf c) = true := by cases c <;> rfl

theorem ssLoop_out {s : State} (hr : s.runningState = .syncSearch) (hp : s.ssPhase = .search) :
    SearchOut s (ssLoop Config.ringSlots s) := by
  refine ssLoop_induct
    (P := fun u => u.decPhase = s.decPhase ∧ u.cpPhase = s.cpPhase ∧ u.runningState = .syncSearch ∧ u.ssPhase = .search)
    (Q := fun t => SearchOut s t) ?_ ⟨rfl, rfl, hr, hp⟩ ?_ ?_ ?_ ?_
  · have := ovfSub_le s.ssPi s.current
    simp only [Config.ringSlots]
    omega
  · rintro u h _ _
    obtain ⟨_, _, _, _, _, hf⟩ := ssExamine_frame u
    rw [hf]
    exact h
  · rintro u ⟨h1, h2, _, _⟩ _ _
    exact ⟨h1, h2, .inr (.inl ⟨rfl, rfl⟩)⟩
  · rintro u ⟨h1, h2, h3, h4⟩ _ _
    exact ⟨h1, h2, .inl ⟨h3, h4⟩⟩
  · rintro u ⟨h1, h2, h3, h4⟩ _ _
    obtain ⟨_, _, _, _, _, hf⟩ := ssExamine_frame u
    rw [hf]
    exact ⟨h1, h2, .inr (.inr ⟨decoderOf_isDecoding _, rfl⟩)⟩

theorem syncSearch_out {s : State} (hr : s.runningState = .syncSearch) : SearchOut s (syncSearch s) := by
  unfold syncSearch
  split
  · split
    · exact ⟨rfl, rfl, .inr (.inr ⟨rfl, ‹_›⟩)⟩
    · exact ssLoop_out (s := ssRestart s) hr rfl
  · exact ssLoop_out (s := ssRestart s) hr rfl
  · exact ssLoop_out hr ‹_›

/-! ## The decoders -/

/-- A decoder ends waiting, failed, or done. -/
def DecodeOut (s t : State) : Prop :=
  t.cpPhase = s.cpPhase ∧ t.ssPhase = s.ssPhase ∧
  ((t.runningState = s.runningState ∧ t.decPhase ≠ .idle) ∨
   (t.runningState = .syncSearch ∧ t.decPhase = .idle) ∨
   (t.runningState = .decodeDone ∧ t.decPhase = .idle))

/-- An emission ends where it was, or with the message. -/
theorem EmittedTo.out {s t : State} (he : EmittedTo s t) :
    t.cpPhase = s.cpPhase ∧ t.ssPhase = s.ssPhase ∧
    ((t.runningState = s.runningState ∧ t.decPhase = s.decPhase) ∨ (t.runningState = .decodeDone ∧ t.decPhase = .idle)) := by
  rcases he with ⟨_, _, _, _, _, _, _, _, rfl⟩ | ⟨u, n, ⟨_, _, _, _, _, _, _, _, rfl⟩, rfl⟩
  · exact ⟨rfl, rfl, .inl ⟨rfl, rfl⟩⟩
  · exact ⟨rfl, rfl, .inr ⟨rfl, rfl⟩⟩

theorem LockDecoder.run_out (k : LockDecoder) (s : State) : DecodeOut s (k.run s) := by
  rcases k.run_cases s with ⟨h, hr⟩ | ⟨h, a, c, hr | hr | hr⟩ <;> rw [hr]
  · obtain ⟨h1, h2, h3 | h3⟩ := (k.emission_emittedTo s).out
    · exact ⟨h1, h2, .inl ⟨h3.1, by rw [h3.2, h]; exact fun x => by cases x⟩⟩
    · exact ⟨h1, h2, .inr (.inr h3)⟩
  · exact ⟨rfl, rfl, .inl ⟨rfl, fun x => by cases x⟩⟩
  · exact ⟨rfl, rfl, .inr (.inl ⟨rfl, rfl⟩)⟩
  · obtain ⟨h1, h2, h3⟩ := (k.emission_emittedTo (k.committed { s with decPi := a, decN := c, decPhase := .lockIn })).out
    unfold DecodeOut
    rw [h1, h2]
    refine ⟨by cases k <;> rfl, by cases k <;> rfl, ?_⟩
    rcases h3 with ⟨h3, h4⟩ | h3
    · refine .inl ⟨?_, ?_⟩
      · rw [h3]
        cases k <;> rfl
      · rw [h4]
        cases k <;> exact fun x => by cases x
    · exact .inr (.inr h3)

/-- The raw dumper never fails and never locks in. -/
theorem decodePulses_out (s : State) :
    (decodePulses s).cpPhase = s.cpPhase ∧ (decodePulses s).ssPhase = s.ssPhase ∧
    (((decodePulses s).runningState = s.runningState ∧ (decodePulses s).decPhase ≠ .idle ∧
        ((decodePulses s).decPhase = .lockIn → s.decPhase = .lockIn)) ∨
     ((decodePulses s).runningState = .decodeDone ∧ (decodePulses s).decPhase = .idle)) := by
  rcases decodePulses_cases s with ⟨h, he⟩ | ⟨h, he⟩
  · obtain ⟨h1, h2, h3 | h3⟩ := he.out
    · exact ⟨h1, h2, .inl ⟨h3.1, by rw [h3.2]; exact h, fun x => h3.2.symm.trans x⟩⟩
    · exact ⟨h1, h2, .inr h3⟩
  · obtain ⟨h1, h2, h3 | h3⟩ := he.out
    · refine ⟨h1, h2, .inl ⟨h3.1, ?_, ?_⟩⟩
      · rw [h3.2]
        exact fun x => by cases x
      · rw [h3.2]
        exact fun x => by cases x
    · exact ⟨h1, h2, .inr h3⟩

/-! ## The parser -/

/-- The parser ends in the line, or by the exit path. -/
def ParseOut (s t : State) : Prop :=
  t.decPhase = s.decPhase ∧
  ((t.runningState = .receivingCommand ∧ t.ssPhase = s.ssPhase) ∨
   (t.runningState = .syncSearch ∧ t.cpPhase = .entry ∧ t.ssPhase = .restart))

theorem receiveCommand_out {s : State} (hr : s.runningState = .receivingCommand) : ParseOut s (receiveCommand s) := by
  obtain ⟨b, ⟨_, p, t0, r, hb⟩, u, q, ⟨hu, -, -, -⟩, -, ht⟩ := receiveCommand_cases hr
  have hb' : b.decPhase = s.decPhase ∧ b.runningState = .receivingCommand ∧ b.ssPhase = s.ssPhase := by
    rcases hb with rfl | rfl | rfl <;> exact ⟨rfl, hr, rfl⟩
  have hu' : u.decPhase = s.decPhase ∧ u.runningState = .receivingCommand ∧ u.ssPhase = s.ssPhase := by
    rw [hu]
    exact hb'
  rcases ht with ht | ht | ht <;> rw [ht]
  · exact ⟨hu'.1, .inl hu'.2⟩
  · exact ⟨hu'.1, .inl hu'.2⟩
  · exact ⟨hu'.1, .inr ⟨rfl, rfl, rfl⟩⟩

/-! ## What a TICK and a UART_RX leave alone -/

/-- `t` is `s` as far as the tasks, the line and the output go. -/
structure SameTasks (s t : State) : Prop where
  runningState : t.runningState = s.runningState
  decPhase : t.decPhase = s.decPhase
  cpPhase : t.cpPhase = s.cpPhase
  ssPhase : t.ssPhase = s.ssPhase
  decoded : t.decoded = s.decoded
  checksum : t.checksum = s.checksum
  bitCount : t.bitCount = s.bitCount
  byteAccumulator : t.byteAccumulator = s.byteAccumulator
  uartTx : t.uartTx = s.uartTx
  msgType : t.msgType = s.msgType

theorem SameTasks.trans {s t u : State} (h : SameTasks s t) (h' : SameTasks t u) : SameTasks s u :=
  ⟨h'.1.trans h.1, h'.2.trans h.2, h'.3.trans h.3, h'.4.trans h.4, h'.5.trans h.5, h'.6.trans h.6, h'.7.trans h.7,
    h'.8.trans h.8, h'.9.trans h.9, h'.10.trans h.10⟩

theorem tickEvent_sameTasks (free level : Bool) (s : State) : SameTasks s (tickEvent free level s) := by
  have hA : SameTasks s (tickChannelA free level s) := by
    unfold tickChannelA sampler samplerEdge samplerCount countTick
    simp only
    split
    · split <;> exact ⟨rfl, rfl, rfl, rfl, rfl, rfl, rfl, rfl, rfl, rfl⟩
    · split <;> exact ⟨rfl, rfl, rfl, rfl, rfl, rfl, rfl, rfl, rfl, rfl⟩
  have hB : ∀ u : State, SameTasks u (tickChannelB u) := by
    intro u
    unfold tickChannelB
    split
    · obtain ⟨_, _, _, _, _, _, h⟩ := txDriver_frame u
      rw [h]
      exact ⟨rfl, rfl, rfl, rfl, rfl, rfl, rfl, rfl, rfl, rfl⟩
    · exact ⟨rfl, rfl, rfl, rfl, rfl, rfl, rfl, rfl, rfl, rfl⟩
  obtain ⟨h1, h2, h3, h4, h5, h6, h7, h8, h9, h10⟩ := hA.trans (hB (tickChannelA free level s))
  exact ⟨h1, h2, h3, h4, h5, h6, h7, h8, h9, h10⟩

theorem uartRxEvent_sameTasks (depth : Option Nat) (choice : Nat → Bool) (b : Byte) (s : State) :
    SameTasks s (uartRxEvent depth choice b s) := by
  unfold uartRxEvent uartRxAppend
  split <;> exact ⟨rfl, rfl, rfl, rfl, rfl, rfl, rfl, rfl, rfl, rfl⟩

end Sys2Proof.Machine
end

