-- ==== Sys2Proof/Laws/Words.lean ====
section
/-! SUPPORT. Digits, pairs and tables in both directions: what the decoder reads from the characters the encoder writes, and back
(R103, R113, R119). -/

namespace Sys2Proof.Machine

/-! ## Digits (R10, R103) -/

theorem hexval_hexdigit (n : BitVec 4) : hexval (hexdigit n) = some n := by
  revert n
  decide

theorem hexvalUpper_hexdigit (n : BitVec 4) : hexvalUpper (hexdigit n) = some n := by
  revert n
  decide

/-- An upper-case digit is the digit of its value. -/
theorem hexdigit_of_hexvalUpper {c : Byte} {n : BitVec 4} (h : hexvalUpper c = some n) : hexdigit n = c := by
  have hc := c.isLt
  unfold hexvalUpper hexval at h
  have fin : ∀ k, k < 16 → n = BitVec.ofNat 4 k → c.toNat = (if k < 10 then 48 + k else 55 + k) → hexdigit n = c := by
    intro k hk hn hv
    subst hn
    apply BitVec.eq_of_toNat_eq
    unfold hexdigit
    have hn : (BitVec.ofNat 4 k).toNat = k := by
      rw [BitVec.toNat_ofNat]
      omega
    rw [hv, hn, BitVec.toNat_ofNat]
    split <;> omega
  split at h
  · split at h
    · cases h
      exact fin (c.toNat - 48) (by omega) rfl (by split <;> omega)
    · split at h
      · cases h
        exact fin (c.toNat - 55) (by omega) rfl (by split <;> omega)
      · split at h
        · omega
        · cases h
  · cases h

/-- No digit is a character that introduces a token or a record. -/
theorem hexdigit_ne (n : BitVec 4) : hexdigit n ≠ chStar ∧ hexdigit n ≠ chM ∧ hexdigit n ≠ chBang := by
  revert n
  decide

theorem joinNibbles_split (v : Byte) :
    joinNibbles (BitVec.ofNat 4 (v.toNat / 16)) (BitVec.ofNat 4 (v.toNat % 16)) = v := by
  have := v.isLt
  apply BitVec.eq_of_toNat_eq
  simp only [joinNibbles, BitVec.toNat_ofNat]
  omega

/-- `hex2` read back (R103). -/
theorem pairValueUpper_hex2 (v : Byte) :
    pairValueUpper (hexdigit (BitVec.ofNat 4 (v.toNat / 16))) (hexdigit (BitVec.ofNat 4 (v.toNat % 16))) = some v := by
  unfold pairValueUpper
  rw [hexvalUpper_hexdigit, hexvalUpper_hexdigit]
  simp only [joinNibbles_split]

/-- The other direction: two upper-case digits are the `hex2` of their byte. -/
theorem hex2_of_pairValueUpper {h l v : Byte} (hv : pairValueUpper h l = some v) : hex2 v = [h, l] := by
  unfold pairValueUpper at hv
  cases hx : hexvalUpper h with
  | none =>
    rw [hx] at hv
    cases hv
  | some x =>
    cases hy : hexvalUpper l with
    | none =>
      rw [hx, hy] at hv
      cases hv
    | some y =>
      rw [hx, hy] at hv
      cases hv
      have hxl := x.isLt
      have hyl := y.isLt
      have e1 : BitVec.ofNat 4 ((BitVec.ofNat 8 (16 * x.toNat + y.toNat)).toNat / 16) = x := by
        apply BitVec.eq_of_toNat_eq
        simp only [BitVec.toNat_ofNat]
        omega
      have e2 : BitVec.ofNat 4 ((BitVec.ofNat 8 (16 * x.toNat + y.toNat)).toNat % 16) = y := by
        apply BitVec.eq_of_toNat_eq
        simp only [BitVec.toNat_ofNat]
        omega
      unfold hex2 joinNibbles
      rw [e1, e2, hexdigit_of_hexvalUpper hx, hexdigit_of_hexvalUpper hy]

/-! ## Payload pairs (R113) -/

theorem pairBytes_append (a b : List DigitPair) : pairBytes (a ++ b) = pairBytes a ++ pairBytes b := by
  induction a with
  | nil => rfl
  | cons p a ih =>
    obtain ⟨h, l⟩ := p
    simp only [List.cons_append, pairBytes, ih]

theorem pairsAreHex_cons {h l : Byte} {rest : List DigitPair} :
    pairsAreHex ((h, l) :: rest) = true ↔
      (∃ x, hexval h = some x) ∧ (∃ y, hexval l = some y) ∧ pairsAreHex rest = true := by
  simp only [pairsAreHex, List.all_cons, Bool.and_eq_true, isHex, Option.isSome_iff_exists, and_assoc]

theorem parsePairs_pairBytes {p : List DigitPair} (h : pairsAreHex p = true) : parsePairs (pairBytes p) = some p := by
  induction p with
  | nil => rfl
  | cons a r ih =>
    obtain ⟨x, y⟩ := a
    obtain ⟨⟨_, h1⟩, ⟨_, h2⟩, h3⟩ := pairsAreHex_cons.mp h
    unfold pairBytes parsePairs
    rw [if_pos (by simp [isHex, h1, h2]), ih h3]
    rfl

theorem pairBytes_of_parsePairs {b : List Byte} {p : List DigitPair} (h : parsePairs b = some p) :
    pairBytes p = b ∧ pairsAreHex p = true := by
  induction b using parsePairs.induct generalizing p with
  | case1 =>
    cases h
    exact ⟨rfl, rfl⟩
  | case2 => cases h
  | case3 x y rest hc ih =>
    unfold parsePairs at h
    rw [if_pos hc] at h
    cases hr : parsePairs rest with
    | none =>
      rw [hr] at h
      cases h
    | some q =>
      rw [hr] at h
      cases h
      obtain ⟨h1, h2⟩ := ih hr
      refine ⟨by simp [pairBytes, h1], ?_⟩
      simp only [pairsAreHex, List.all_cons, hc, Bool.true_and]
      exact h2
  | case4 x y rest hc =>
    unfold parsePairs at h
    rw [if_neg hc] at h
    cases h

/-! ## The table of patterns (R119) -/

theorem lookupCode_mem {len bits : Nat} {i : Instr} {t : List (Nat × Nat × Instr)} (h : lookupCode len bits t = some i) :
    (len, bits, i) ∈ t := by
  induction t with
  | nil => cases h
  | cons a r ih =>
    obtain ⟨l, b, j⟩ := a
    unfold lookupCode at h
    split at h
    · next hc =>
      obtain ⟨rfl, rfl⟩ := hc
      cases h
      exact List.mem_cons_self
    · exact List.mem_cons_of_mem _ (ih h)

/-- No two rows of the table share a pattern. -/
theorem codeTable_pairwise : codeTable.Pairwise (fun a b => (a.1, a.2.1) ≠ (b.1, b.2.1)) := by decide

end Sys2Proof.Machine
end

