-- ==== Sys2Proof/Laws/Line.lean ====
section
/-! SUPPORT. How the parser reads bytes: one byte, several, an argument token, a keyword, a payload; that handling a byte looks at
neither the queue nor the clock; and when a run of the parser is a run of its reading loop. -/

namespace Sys2Proof.Machine

/-! ## Names for the rules' effects -/

theorem exitPath_eq (s : State) : exitPath s = afterExit s := rfl

theorem cpEnter_eq (s : State) : cpEnter s = entered s := rfl

theorem raiseUnexpectedByte_eq (c : Byte) (s : State) : raiseUnexpectedByte c s = afterUnexpected c s := rfl

/-- Entry is done once. -/
theorem entered_of_ne {s : State} (h : s.cpPhase ≠ .entry) : entered s = s := if_neg h

theorem entered_phase (s : State) : (entered s).cpPhase ≠ .entry := by
  unfold entered
  split
  · exact fun h => by cases h
  · assumption

/-- A byte's time is now if the last byte's was. -/
theorem heard_same {s : State} (h : s.cpT0 = s.tickcount) : heard s = s := by
  cases s
  simp only at h
  subst h
  rfl

/-! ## Reading one byte, several bytes (R267, R269) -/

theorem cpRead_cons {c : Byte} {rest : List Byte} {s : State} (hp : s.cpPhase ≠ .txStart)
    (hr : (cpHandleByte c (heard s)).runningState = .receivingCommand) :
    cpRead (c :: rest) s = cpRead rest (cpHandleByte c (heard s)) := by
  conv_lhs => unfold cpRead
  rw [if_neg hp]
  exact if_pos hr

theorem cpRead_last {c : Byte} {rest : List Byte} {s : State} (hp : s.cpPhase ≠ .txStart)
    (hr : (cpHandleByte c (heard s)).runningState ≠ .receivingCommand) :
    cpRead (c :: rest) s = (rest, cpHandleByte c (heard s)) := by
  conv_lhs => unfold cpRead
  rw [if_neg hp]
  exact if_neg hr

theorem cpRead_one {c : Byte} {s : State} (hp : s.cpPhase ≠ .txStart) :
    cpRead [c] s = ([], cpHandleByte c (heard s)) := by
  by_cases hr : (cpHandleByte c (heard s)).runningState = .receivingCommand
  · rw [cpRead_cons hp hr]
    rfl
  · rw [cpRead_last hp hr]

theorem cpRead_txStart {bytes : List Byte} {s : State} (h : s.cpPhase = .txStart) : cpRead bytes s = (bytes, s) := by
  cases bytes with
  | nil => rfl
  | cons c rest =>
    unfold cpRead
    rw [if_pos h]

theorem cpRead_append {a : List Byte} {s t : State} (h : cpRead a s = ([], t))
    (ht : t.runningState = .receivingCommand) (b : List Byte) : cpRead (a ++ b) s = cpRead b t := by
  induction a generalizing s with
  | nil =>
    cases h
    rfl
  | cons c rest ih =>
    unfold cpRead at h
    rw [List.cons_append]
    by_cases hp : s.cpPhase = .txStart
    · rw [if_pos hp] at h
      cases h
    · rw [if_neg hp] at h
      by_cases hr : (cpHandleByte c (heard s)).runningState = .receivingCommand
      · rw [cpRead_cons hp hr]
        exact ih ((if_pos hr).symm.trans h)
      · have hx := (if_neg hr).symm.trans h
        cases hx
        contradiction

/-! ## One inbound operation (log 5) -/

theorem parserReads_eq {s : State} (h : cpReading s = true) (bytes : List Byte) :
    parserReads bytes s =
      let r := cpRead bytes (cpEnter s)
      let t : State := { r.2 with uartRxQ := r.1 ++ r.2.uartRxQ }
      if r.2.runningState = .receivingCommand ∧ r.2.cpPhase = .txStart then cpStartCycle t else t :=
  if_pos h

/-- All bytes were read and the line goes on. -/
theorem parserReads_all {bytes : List Byte} {s t : State} (h : cpReading s = true)
    (hr : cpRead bytes (cpEnter s) = ([], t)) (hp : t.cpPhase ≠ .txStart) : parserReads bytes s = t := by
  rw [parserReads_eq h, hr]
  exact if_neg (fun x => hp x.2)

/-- The line was left, with `rest` unread. -/
theorem parserReads_left {bytes rest : List Byte} {s t : State} (h : cpReading s = true)
    (hr : cpRead bytes (cpEnter s) = (rest, t)) (hl : t.runningState ≠ .receivingCommand) :
    parserReads bytes s = { t with uartRxQ := rest ++ t.uartRxQ } := by
  rw [parserReads_eq h, hr]
  exact if_neg (fun x => hl x.1)

theorem AtToken.reading {s : State} (h : AtToken s) : cpReading s = true ∧ cpEnter s = s := by
  obtain ⟨hr, h | h⟩ := h
  · exact ⟨cpReading_iff.mpr ⟨hr, by simp [h], by simp [h]⟩, if_neg (by simp [h])⟩
  · exact ⟨cpReading_iff.mpr ⟨hr, by simp [h], by simp [h]⟩, if_neg (by simp [h])⟩

theorem AtToken.ne_txStart {s : State} (h : AtToken s) : s.cpPhase ≠ .txStart := by
  obtain ⟨_, h | h⟩ := h <;> simp [h]

/-- A byte that is no digit is a token's, also where a payload may end (R278, R280). -/
theorem AtToken.handle {s : State} (h : AtToken s) {c : Byte} (hc : hexval c = none) :
    cpHandleByte c (heard s) = cpTokenByte c (heard s) := by
  obtain ⟨_, h | h⟩ := h
  · unfold cpHandleByte heard
    simp only [h]
  · unfold cpHandleByte heard
    simp only [h, hc]

theorem AtLineStart.reading {s : State} (h : AtLineStart s) :
    cpReading s = true ∧ (entered s).cpPhase = .start ∧ (entered s).runningState = .receivingCommand := by
  obtain ⟨hr, h | h⟩ := h
  · exact ⟨cpReading_iff.mpr ⟨hr, by simp [h], by simp [h]⟩, by simp [entered, h], by simp [entered, h, hr]⟩
  · exact ⟨cpReading_iff.mpr ⟨hr, by simp [h], by simp [h]⟩, by simp [entered, h], by simp [entered, h, hr]⟩

theorem handle_start {u : State} (h : u.cpPhase = .start) (c : Byte) :
    cpHandleByte c (heard u) = cpStartByte c (heard u) := by
  unfold cpHandleByte heard
  simp only [h]

/-! ## Argument tokens (R278, R279) -/

/-- The byte that introduces an argument token (R112). -/
def introducer : ArgToken → Byte
  | .bang => chBang
  | .hash => chHash
  | .star => chStar

theorem cpRead_introducer (k : ArgToken) (rest : List Byte) {s : State} (h : AtToken s) :
    cpRead (introducer k :: rest) s = cpRead rest { heard s with cpK := k, cpPhase := .argHi } := by
  have h1 := h.handle (c := introducer k) (by cases k <;> rfl)
  have h2 : cpTokenByte (introducer k) (heard s) = { heard s with cpK := k, cpPhase := .argHi } := by cases k <;> rfl
  rw [cpRead_cons h.ne_txStart (by rw [h1, h2]; exact h.1), h1, h2]

theorem cpRead_arg (k : ArgToken) {h l : Byte} {x y : BitVec 4} {s : State} (hs : AtToken s) (hx : hexval h = some x)
    (hy : hexval l = some y) :
    cpRead [introducer k, h, l] s =
      ([], cpArg (joinNibbles x y) { heard s with cpK := k, cpHold := x, cpPhase := .argLo }) := by
  have hr : (heard s).runningState = .receivingCommand := hs.1
  have h1 : cpHandleByte h (heard { heard s with cpK := k, cpPhase := .argHi }) =
      { heard s with cpK := k, cpHold := x, cpPhase := .argLo } := by
    unfold cpHandleByte heard
    simp only [hx]
    rfl
  have h2 : cpHandleByte l (heard { heard s with cpK := k, cpHold := x, cpPhase := .argLo }) =
      cpArg (joinNibbles x y) { heard s with cpK := k, cpHold := x, cpPhase := .argLo } := by
    unfold cpHandleByte heard
    simp only [hy]
  rw [cpRead_introducer k _ hs, cpRead_cons (by simp) (by rw [h1]; exact hr), h1,
    cpRead_cons (by simp) (by rw [h2, (cpArg_inLine _ _).runningState]; exact hr), h2]
  rfl

/-! ## Keywords (R293) -/

/-- The parser after `i` bytes of keyword `k`. -/
def kwAt (k : Keyword) (i : BitVec 3) (u : State) : State := { heard u with cpKw := k, cpKi := i, cpPhase := .kw }

theorem handle_kw (k : Keyword) (i : BitVec 3) (u : State) (c : Byte) (h : (keywordBytes k)[i.toNat]? = some c) :
    cpHandleByte c (heard (kwAt k i u)) = if i + 1 = 6 then cpKeyword k (kwAt k 6 u) else kwAt k (i + 1) u := by
  have : cpHandleByte c (heard (kwAt k i u)) = cpKwByte c (kwAt k i u) := rfl
  rw [this]
  exact if_pos h

theorem cpRead_kw (k : Keyword) (i : BitVec 3) (u : State) (hu : u.runningState = .receivingCommand) (c : Byte)
    (rest : List Byte) (h : (keywordBytes k)[i.toNat]? = some c) (hi : i + 1 ≠ 6) :
    cpRead (c :: rest) (kwAt k i u) = cpRead rest (kwAt k (i + 1) u) := by
  have hh := (handle_kw k i u c h).trans (if_neg hi)
  rw [cpRead_cons (fun x => by cases x) (by rw [hh]; exact hu), hh]

theorem cpKeyword_left (k : Keyword) (u : State) : (cpKeyword k u).runningState ≠ .receivingCommand := by
  cases k <;> exact fun x => by cases x

/-! ## Handling a byte looks neither at the queue nor at the clock -/

/-- `f` does not look at the queue. -/
def IgnoresQueue (f : State → State) : Prop :=
  ∀ (q : List Byte) (s : State), f { s with uartRxQ := q } = { f s with uartRxQ := q }

theorem raiseUnexpectedByte_ignoresQueue (c : Byte) : IgnoresQueue (raiseUnexpectedByte c) := by
  intro q s
  unfold raiseUnexpectedByte
  split <;> rfl

theorem cpTokenByte_ignoresQueue (c : Byte) : IgnoresQueue (cpTokenByte c) := by
  intro q s
  unfold cpTokenByte
  rw [raiseUnexpectedByte_ignoresQueue c]
  (repeat' split) <;> rfl

theorem cpStoreBits_ignoresQueue (v : Byte) (n : Nat) : IgnoresQueue (cpStoreBits v n) := by
  induction n with
  | zero => exact fun q s => rfl
  | succ n ih =>
    intro q s
    unfold cpStoreBits
    have h : cpStoreBit (v.getLsbD n) { s with uartRxQ := q } = { cpStoreBit (v.getLsbD n) s with uartRxQ := q } := rfl
    rw [h, ih]

theorem cpPayloadByte_ignoresQueue (v : Byte) : IgnoresQueue (cpPayloadByte v) := by
  intro q s
  unfold cpPayloadByte
  rw [show foldChecksum v { s with uartRxQ := q } = { foldChecksum v s with uartRxQ := q } from rfl]
  simp only
  split
  · exact cpStoreBits_ignoresQueue v 8 q _
  · rfl
  · unfold cpRawByte
    simp only
    split <;> rfl

theorem cpArg_ignoresQueue (v : Byte) : IgnoresQueue (cpArg v) := by
  intro q s
  unfold cpArg
  simp only
  split
  · rfl
  · rfl
  · unfold cpCheck cpTrigger
    simp only
    split
    · split <;> rfl
    · rfl

theorem cpHandleByte_ignoresQueue (c : Byte) : IgnoresQueue (cpHandleByte c) := by
  intro q s
  unfold cpHandleByte
  simp only
  split
  · rfl
  · unfold cpStartByte
    rw [raiseUnexpectedByte_ignoresQueue c]
    (repeat' split) <;> rfl
  · unfold cpMTypeByte
    rw [raiseUnexpectedByte_ignoresQueue c]
    (repeat' split) <;> rfl
  · exact cpTokenByte_ignoresQueue c q s
  · split
    · exact cpTokenByte_ignoresQueue c q s
    · rfl
  · split
    · exact raiseUnexpectedByte_ignoresQueue c q s
    · rw [cpPayloadByte_ignoresQueue]
  · split
    · exact raiseUnexpectedByte_ignoresQueue c q s
    · rfl
  · split
    · exact raiseUnexpectedByte_ignoresQueue c q s
    · exact cpArg_ignoresQueue _ q s
  · unfold cpKwByte cpKeyword
    rw [raiseUnexpectedByte_ignoresQueue c]
    simp only
    (repeat' split) <;> rfl
  · split <;> rfl
  · rfl
  · rfl

/-- Reading given bytes does not look at the queue. -/
theorem cpRead_ignoresQueue (bytes q : List Byte) (s : State) :
    cpRead bytes { s with uartRxQ := q } = ((cpRead bytes s).1, { (cpRead bytes s).2 with uartRxQ := q }) := by
  induction bytes generalizing s with
  | nil => rfl
  | cons c rest ih =>
    unfold cpRead
    simp only
    split
    · rfl
    · have h := cpHandleByte_ignoresQueue c q { s with cpT0 := s.tickcount }
      simp only at h
      rw [h]
      simp only
      split
      · exact ih _
      · rfl

theorem cpRead_uartRxQ (bytes : List Byte) (s : State) : (cpRead bytes s).2.uartRxQ = s.uartRxQ := by
  have h := cpRead_ignoresQueue bytes s.uartRxQ s
  rw [show ({ s with uartRxQ := s.uartRxQ } : State) = s from rfl] at h
  rw [h]

/-- `t` is `s` with the same clock and no new wait for the driver. -/
def Quiet (s t : State) : Prop :=
  t.cpT0 = s.cpT0 ∧ t.tickcount = s.tickcount ∧ (t.cpPhase = .txWait → s.cpPhase = .txWait)

theorem Quiet.refl (s : State) : Quiet s s := ⟨rfl, rfl, id⟩

theorem raiseUnexpectedByte_quiet (c : Byte) (s : State) : Quiet s (raiseUnexpectedByte c s) := by
  unfold raiseUnexpectedByte
  split <;> exact ⟨rfl, rfl, fun h => by cases h⟩

theorem cpTokenByte_quiet (c : Byte) (s : State) : Quiet s (cpTokenByte c s) := by
  unfold cpTokenByte
  (repeat' split) <;> first | exact raiseUnexpectedByte_quiet c s | exact ⟨rfl, rfl, fun h => by cases h⟩

/-- A payload byte moves the ring, `cp_wr`, the held pulse and the checksum; the ring stays canonical (R282 to R285). -/
theorem cpPayloadByte_frame (v : Byte) (s : State) :
    ∃ m w p c, cpPayloadByte v s = { s with ring := m, cpWr := w, cpPhold := p, checksum := c } ∧
      (Memory.wf s.ring = true → Memory.wf m = true) := by
  have bits : ∀ n (u : State), ∃ m w, cpStoreBits v n u = { u with ring := m, cpWr := w } ∧
      (Memory.wf u.ring = true → Memory.wf m = true) := by
    intro n
    induction n with
    | zero => exact fun u => ⟨u.ring, u.cpWr, rfl, id⟩
    | succ n ih =>
      intro u
      obtain ⟨m, w, h, hw⟩ := ih (cpStoreBit (v.getLsbD n) u)
      exact ⟨m, w, h, fun hu => hw (ringWriteSlot_wf hu _ _ _)⟩
  unfold cpPayloadByte
  split
  · obtain ⟨m, w, h, hw⟩ := bits 8 (foldChecksum v s)
    exact ⟨m, w, s.cpPhold, _, h, hw⟩
  · exact ⟨s.ring, s.cpWr, s.cpPhold, _, rfl, id⟩
  · unfold cpRawByte
    split
    · exact ⟨s.ring, s.cpWr, _, _, rfl, id⟩
    · exact ⟨_, _, _, _, rfl, fun hu => ringWriteSlot_wf hu _ _ _⟩

theorem cpHandleByte_quiet (c : Byte) (s : State) : Quiet s (cpHandleByte c s) := by
  unfold cpHandleByte
  split
  · exact Quiet.refl s
  · unfold cpStartByte
    (repeat' split) <;> first | exact raiseUnexpectedByte_quiet c s | exact ⟨rfl, rfl, fun h => by cases h⟩
  · unfold cpMTypeByte
    (repeat' split) <;> first | exact raiseUnexpectedByte_quiet c s | exact ⟨rfl, rfl, fun h => by cases h⟩
  · exact cpTokenByte_quiet c s
  · split
    · exact cpTokenByte_quiet c s
    · exact ⟨rfl, rfl, fun h => by cases h⟩
  · split
    · exact raiseUnexpectedByte_quiet c s
    · obtain ⟨m, w, p, k, h, -⟩ := cpPayloadByte_frame (joinNibbles s.cpHold ‹BitVec 4›) s
      rw [h]
      exact ⟨rfl, rfl, fun h => by cases h⟩
  · split
    · exact raiseUnexpectedByte_quiet c s
    · exact ⟨rfl, rfl, fun h => by cases h⟩
  · split
    · exact raiseUnexpectedByte_quiet c s
    · unfold cpArg cpSyncDur cpBitCount cpCheck cpTrigger raiseChecksumMismatch
      split
      · exact ⟨rfl, rfl, fun h => by cases h⟩
      · exact ⟨rfl, rfl, fun h => by cases h⟩
      · split
        · simp only
          split <;> exact ⟨rfl, rfl, fun h => by cases h⟩
        · exact ⟨rfl, rfl, fun h => by cases h⟩
  · unfold cpKwByte cpKeyword
    simp only
    (repeat' split) <;>
      first
        | exact raiseUnexpectedByte_quiet c s
        | exact ⟨rfl, rfl, fun h => by cases h⟩
        | exact ⟨rfl, rfl, id⟩
  · split
    · exact ⟨rfl, rfl, fun h => by cases h⟩
    · exact Quiet.refl s
  · exact Quiet.refl s
  · exact Quiet.refl s

/-- After a byte has been read the clock has just been restarted (R269). -/
theorem cpRead_clock (bytes : List Byte) {s : State} (h : s.cpT0 = s.tickcount) :
    (cpRead bytes s).2.cpT0 = (cpRead bytes s).2.tickcount := by
  induction bytes generalizing s with
  | nil => exact h
  | cons c rest ih =>
    unfold cpRead
    split
    · exact h
    · obtain ⟨h1, h2, -⟩ := cpHandleByte_quiet c { s with cpT0 := s.tickcount }
      simp only
      split
      · exact ih (by rw [h1, h2])
      · rw [h1, h2]

/-! ## Payload pairs (R280 to R285) -/

/-- The parser is where a pair may begin. -/
def AtPair (s : State) : Prop := s.runningState = .receivingCommand ∧ s.cpPhase = .payHi

theorem cpRead_colon {s : State} (h : AtToken s) (rest : List Byte) :
    cpRead (chColon :: rest) s = cpRead rest { heard s with cpPhase := .payHi } := by
  have h1 : cpHandleByte chColon (heard s) = { heard s with cpPhase := .payHi } := by
    rw [h.handle rfl]
    rfl
  rw [cpRead_cons h.ne_txStart (by rw [h1]; exact h.1), h1]

theorem cpRead_pair {h l : Byte} {x y : BitVec 4} {u : State} (hu : AtPair u) (hx : hexval h = some x)
    (hy : hexval l = some y) :
    cpRead [h, l] u =
      ([], { cpPayloadByte (joinNibbles x y) { heard u with cpHold := x, cpPhase := .payLo } with
             cpPhase := .payHi }) := by
  obtain ⟨hr, hp⟩ := hu
  have h1 : cpHandleByte h (heard u) = { heard u with cpHold := x, cpPhase := .payLo } := by
    unfold cpHandleByte
    simp only [heard, hp, hx]
    rfl
  rw [cpRead_cons (by simp [hp]) (by rw [h1]; exact hr), h1, cpRead_one (fun x => by cases x)]
  unfold cpHandleByte heard
  simp only [hy]

/-- What reading payload pairs keeps. -/
structure PairsKept (s t : State) : Prop where
  pair : AtPair t
  duration : t.syncDuration = s.syncDuration
  type : t.cpType = s.cpType
  wf : Memory.wf s.ring = true → Memory.wf t.ring = true
  queue : t.uartRxQ = s.uartRxQ
  clock : t.cpT0 = t.tickcount

theorem cpRead_pairs {pairs : List DigitPair} {u : State} (hu : AtPair u) (hc : u.cpT0 = u.tickcount)
    (hp : pairsAreHex pairs = true) : ∃ t, cpRead (pairBytes pairs) u = ([], t) ∧ PairsKept u t := by
  induction pairs generalizing u with
  | nil => exact ⟨u, rfl, hu, rfl, rfl, id, rfl, hc⟩
  | cons p rest ih =>
    obtain ⟨h, l⟩ := p
    obtain ⟨⟨x, hx⟩, ⟨y, hy⟩, hp⟩ := pairsAreHex_cons.mp hp
    have h1 := cpRead_pair hu hx hy
    obtain ⟨m, w, ph, c, he, hwf⟩ := cpPayloadByte_frame (joinNibbles x y) { heard u with cpHold := x, cpPhase := .payLo }
    rw [he] at h1
    obtain ⟨t, ht, hk⟩ := ih (u := { heard u with
      ring := m, cpHold := x, cpPhase := .payHi, cpWr := w, cpPhold := ph, checksum := c }) ⟨hu.1, rfl⟩ rfl hp
    refine ⟨t, ?_, hk.pair, hk.duration, hk.type, fun hw => hk.wf (hwf hw), hk.queue, hk.clock⟩
    rw [show pairBytes ((h, l) :: rest) = [h, l] ++ pairBytes rest from rfl, cpRead_append h1 hu.1]
    exact ht

theorem cpPayloadByte_a (v : Byte) {s : State} (h : s.cpType = .a) :
    cpPayloadByte v s = cpStoreBits v 8 (foldChecksum v s) := by
  unfold cpPayloadByte
  rw [h]

theorem cpPayloadByte_m (v : Byte) {s : State} (h : s.cpType = .m) : cpPayloadByte v s = foldChecksum v s := by
  unfold cpPayloadByte
  rw [h]

theorem cpPayloadByte_p (v : Byte) {s : State} (h : s.cpType = .p) : cpPayloadByte v s = cpRawByte v (foldChecksum v s) := by
  unfold cpPayloadByte
  rw [h]

/-- The pulses of `n` synthesized bits (R283). -/
theorem cpStoreBits_spec (v : Byte) (n : Nat) (hn : n ≤ 8) (s : State) (hw : Memory.wf s.ring = true) :
    ∃ m, cpStoreBits v n s = { s with ring := m, cpWr := s.cpWr + BitVec.ofNat 8 n } ∧ Memory.wf m = true ∧
      ∀ j c, Memory.read m (ringAddr j c) =
        if (j - s.cpWr).toNat < n then
          (if v.getLsbD (n - 1 - (j - s.cpWr).toNat) = c then
            s.syncDuration - BitVec.ofNat 8 (s.syncDuration.toNat / 4)
          else BitVec.ofNat 8 (s.syncDuration.toNat / 4))
        else ringRead s j c := by
  induction n generalizing s with
  | zero => exact ⟨s.ring, by simp [cpStoreBits], hw, fun j c => by simp [ringRead]⟩
  | succ n ih =>
    unfold cpStoreBits
    have hw' : Memory.wf (cpStoreBit (v.getLsbD n) s).ring = true := ringWriteSlot_wf hw _ _ _
    obtain ⟨m, h1, h2, h3⟩ := ih (by omega) (cpStoreBit (v.getLsbD n) s) hw'
    have e1 : (cpStoreBit (v.getLsbD n) s).cpWr = s.cpWr + 1 := inc8_eq _
    refine ⟨m, ?_, h2, ?_⟩
    · rw [h1, e1]
      have : s.cpWr + 1 + BitVec.ofNat 8 n = s.cpWr + BitVec.ofNat 8 (n + 1) := by
        apply BitVec.eq_of_toNat_eq
        simp
        omega
      rw [this]
      rfl
    · intro j c
      have e2 : (cpStoreBit (v.getLsbD n) s).syncDuration = s.syncDuration := rfl
      have hread : ringRead (cpStoreBit (v.getLsbD n) s) j c = _ := ringRead_ringWriteSlot hw s.cpWr j c _ _
      rw [h3 j c, e1, e2, hread]
      have hj := j.isLt
      have hwr := s.cpWr.isLt
      by_cases hjw : j = s.cpWr
      · subst hjw
        have hfar : ¬((s.cpWr - (s.cpWr + 1)).toNat < n) := by
          rw [show s.cpWr - (s.cpWr + 1) = (255 : Byte) by bv_omega]
          change ¬255 < n
          omega
        have hq : BitVec.ofNat 8 (s.syncDuration.toNat - s.syncDuration.toNat / 4) =
            s.syncDuration - BitVec.ofNat 8 (s.syncDuration.toNat / 4) := by
          have := s.syncDuration.isLt
          apply BitVec.eq_of_toNat_eq
          simp [BitVec.toNat_sub]
          omega
        have hnear : (s.cpWr - s.cpWr).toNat < n + 1 := by simp
        rw [if_neg hfar, if_pos (show s.cpWr = s.cpWr from rfl), if_pos hnear]
        simp only [BitVec.sub_self, BitVec.toNat_zero, Nat.add_sub_cancel, Nat.sub_zero]
        unfold bitPulse
        cases v.getLsbD n <;> cases c <;> simp [hq]
      · have hd : (j - s.cpWr).toNat = (j - (s.cpWr + 1)).toNat + 1 := by
          have : j.toNat ≠ s.cpWr.toNat := fun e => hjw (BitVec.eq_of_toNat_eq e)
          simp [BitVec.toNat_sub, BitVec.toNat_add]
          omega
        rw [hd, if_neg hjw]
        by_cases hlt : (j - (s.cpWr + 1)).toNat < n
        · rw [if_pos hlt, if_pos (show (j - (s.cpWr + 1)).toNat + 1 < n + 1 by omega),
            show n + 1 - 1 - ((j - (s.cpWr + 1)).toNat + 1) = n - 1 - (j - (s.cpWr + 1)).toNat by omega]
        · rw [if_neg hlt, if_neg (show ¬(j - (s.cpWr + 1)).toNat + 1 < n + 1 by omega)]

/-! ## A run of the parser (R267) -/

theorem exec_dispatchReceiveCommand {s : State} (h : s.runningState = .receivingCommand) :
    exec .dispatchReceiveCommand s = .next (receiveCommand s) :=
  congrArg _ (if_pos h)

theorem waitsForByte_iff {s : State} :
    waitsForByte s = true ↔
      s.runningState = .receivingCommand ∧ s.cpPhase ≠ .entry ∧ s.cpPhase ≠ .txStart ∧ s.cpPhase ≠ .txWait := by
  unfold waitsForByte
  rw [decide_eq_true_eq]

/-- While it waits for a byte, a run of the parser reads the queue. -/
theorem receiveCommand_waits {s : State} (h : waitsForByte s = true) : receiveCommand s = cpReadQueue s := by
  obtain ⟨_, h2, h3, h4⟩ := waitsForByte_iff.mp h
  unfold receiveCommand
  rw [show cpEnter s = s from if_neg h2]
  unfold cpRun
  split <;> first | rfl | contradiction

end Sys2Proof.Machine
end

