-- ==== Sys2Proof/Tests/Slice0.lean ====
section
/-! SUPPORT. The author's own tests. Part 1: each check of WellFormed refuses an ill-formed operation. Part 2: words written out from
the encodings of R104, R110 to R113 and R119 decode to their operations. Part 3: single steps against vectors of
95_test_vectors.md (named in each docstring). Part 4: for every statement with hypotheses, states and operands that meet them. -/

namespace Sys2Proof.Tests

open Sys2Proof Sys2Proof.Machine

/-! ## 1. WellFormed -/

/-- R175, R120: a cancellation names a decoding state, 1 to 4. -/
theorem test_wf_cancel_selector :
    (Instr.dispatchCancel 0).wellFormed = false ∧ (Instr.dispatchCancel 5).wellFormed = false ∧
    (Instr.dispatchCancel 1).wellFormed = true ∧ (Instr.dispatchCancel 4).wellFormed = true := by decide

/-- R113: the first character of a pair (0x47 is `G`). -/
theorem test_wf_payloadA_high_digit : (Instr.payloadA [(0x47, 0x30)]).wellFormed = false := by decide

/-- R113: the second character of a pair. -/
theorem test_wf_payloadA_low_digit : (Instr.payloadA [(0x30, 0x30), (0x30, 0x47)]).wellFormed = false := by decide

theorem test_wf_payloadM_digits :
    (Instr.payloadM [(0x47, 0x30)]).wellFormed = false ∧ (Instr.payloadM [(0x30, 0x47)]).wellFormed = false := by decide

theorem test_wf_payloadP_digits :
    (Instr.payloadP [(0x3A, 0x30)]).wellFormed = false ∧ (Instr.payloadP [(0x30, 0x2F)]).wellFormed = false := by decide

/-- A newline alone is EOL's word. -/
theorem test_wf_unexpected_newline : (Instr.unexpected 0x0A).wellFormed = false := by decide

/-- A colon alone is an empty payload's word. -/
theorem test_wf_unexpected_colon : (Instr.unexpected 0x3A).wellFormed = false := by decide

/-- `!*\n` is OUT.ERRSUM's word. -/
theorem test_wf_outErrbyte_star : (Instr.outErrbyte 0x2A).wellFormed = false := by decide

/-! ## 2. Decoding -/

/-- R119: the events. -/
theorem test_decode_events :
    decode (.code false 4 0b0000) = .ok .reset ∧
    decode (.code false 7 0b0001100) = .ok (.tickSampler false) ∧
    decode (.code false 7 0b0001101) = .ok (.tickSampler true) ∧
    decode (.code false 7 0b0001011) = .ok (.tickTxdriver true) ∧
    decode (.code false 7 0b0001000) = .ok (.tickUnarmed false) ∧
    decode (.code false 12 0b001001010000) = .ok (.uartRx 0x50) ∧
    decode (.code false 12 0b001011111111) = .ok (.uartRx 0xFF) ∧
    decode (.code false 4 0b0011) = .ok .dispatch := by decide

/-- R119, R120: the dispatch targets. -/
theorem test_decode_targets :
    decode (.code false 7 0b0011000) = .ok .dispatchSyncSearch ∧
    decode (.code false 7 0b0011001) = .ok .dispatchDecodeAsk ∧
    decode (.code false 7 0b0011010) = .ok .dispatchDecodeOok ∧
    decode (.code false 7 0b0011011) = .ok .dispatchDecodeManchester ∧
    decode (.code false 7 0b0011100) = .ok .dispatchDecodePulses ∧
    decode (.code false 7 0b0011101) = .ok .dispatchTrailer ∧
    decode (.code false 7 0b0011110) = .ok .dispatchReceiveCommand ∧
    decode (.code true 7 0b0011001) = .ok (.dispatchCancel 1) ∧
    decode (.code true 7 0b0011100) = .ok (.dispatchCancel 4) ∧
    decode (.code true 7 0b0011101) = .ok .dispatchTrailer := by decide

/-- R119: the procedures. -/
theorem test_decode_procedures :
    decode (.code false 4 0b0100) = .ok .enableReceiver ∧
    decode (.code false 4 0b0101) = .ok .enableTransmitter ∧
    decode (.code false 4 0b0110) = .ok .disableTransceiver := by decide

/-- R111, R112, R116: headers, keywords, the end of a line, an illegal byte. -/
theorem test_decode_line :
    decode (.rx .a [0x4D, 0x41]) = .ok .ma ∧
    decode (.rx .a [0x4D, 0x4D]) = .ok .mm ∧
    decode (.rx .a [0x4D, 0x50]) = .ok .mp ∧
    decode (.rx .a [0x0A]) = .ok .eol ∧
    decode (.rx .a [0x50, 0x55, 0x4C, 0x53, 0x45, 0x0A]) = .ok .pulse ∧
    decode (.rx .a [0x44, 0x45, 0x4D, 0x4F, 0x44, 0x0A]) = .ok .demod ∧
    decode (.rx .a [0x53, 0x54, 0x41, 0x43, 0x4B, 0x0A]) = .ok .stack ∧
    decode (.rx .a [0x58]) = .ok (.unexpected 0x58) := by decide

/-- R112, R113: tokens. The type `cp_type` tells the payload rows apart. -/
theorem test_decode_tokens :
    decode (.rx .a [0x3A, 0x34, 0x30]) = .ok (.payloadA [(0x34, 0x30)]) ∧
    decode (.rx .m [0x3A, 0x34, 0x30]) = .ok (.payloadM [(0x34, 0x30)]) ∧
    decode (.rx .p [0x3A, 0x34, 0x30, 0x66, 0x46]) = .ok (.payloadP [(0x34, 0x30), (0x66, 0x46)]) ∧
    decode (.rx .a [0x3A]) = .ok (.payloadA []) ∧
    decode (.rx .a [0x21, 0x33, 0x30]) = .ok (.syncdur 0x33 0x30) ∧
    decode (.rx .a [0x23, 0x32, 0x30]) = .ok (.bitcount 0x32 0x30) ∧
    decode (.rx .a [0x2A, 0x36, 0x66]) = .ok (.check 0x36 0x66) := by decide

/-- R104 to R107: outbound records. -/
theorem test_decode_records :
    decode (.tx [0x4D, 0x41, 0x3A]) = .ok .outMa ∧
    decode (.tx [0x4D, 0x4F, 0x3A]) = .ok .outMo ∧
    decode (.tx [0x4D, 0x4D, 0x3A]) = .ok .outMm ∧
    decode (.tx [0x4D, 0x50, 0x3A]) = .ok .outMp ∧
    decode (.tx [0x41, 0x35]) = .ok (.outByte 0xA5) ∧
    decode (.tx [0x33, 0x43, 0x31, 0x34]) = .ok (.outPulse 0x3C 0x14) ∧
    decode (.tx [0x23, 0x31, 0x45, 0x21, 0x35, 0x30, 0x2A, 0x36, 0x39, 0x0A]) = .ok (.outTrailer 0x1E 0x50 0x69) ∧
    decode (.tx [0x2A, 0x4F, 0x4B, 0x0A]) = .ok .outOk ∧
    decode (.tx [0x21, 0x58, 0x0A]) = .ok (.outErrbyte 0x58) ∧
    decode (.tx [0x21, 0x2A, 0x0A]) = .ok .outErrsum := by decide

/-- What is no operation is rejected by name: an unused code, an odd payload, two tokens, a lower-case emitted digit. -/
theorem test_decode_rejects :
    decode (.code false 4 0b0111) = .error .unknownCode ∧
    decode (.code false 7 0b0011111) = .error .unknownCode ∧
    decode (.rx .a [0x3A, 0x34]) = .error .badPayload ∧
    decode (.rx .a [0x4D, 0x4F]) = .error .notOneToken ∧
    decode (.tx [0x61, 0x35]) = .error .notARecord := by decide

/-- The table's numbers: the first byte of the wire is the number's most significant (log 7). -/
theorem test_table_numbers :
    decodeTableWord 16 0x4D41 = some .ma ∧
    decodeTableWord 4 0b0011 = some .dispatch ∧
    decodeTableWord 12 0b001001010000 = some (.uartRx 0x50) ∧
    decodeTableWord 32 0x2A4F4B0A = some .outOk := by decide

/-! ## 3. Single steps -/

/-- The state a step leaves; `s` itself if it stops. -/
def after (i : Instr) (s : State) : State :=
  match exec i s with
  | .next t => t
  | .fault _ => s
  | .refused _ => s

/-- `s` with slots written from `i` on, low count first. -/
def withSlots (i : Byte) : List (Byte × Byte) → State → State
  | [], s => s
  | (l, h) :: rest, s => withSlots (i + 1) rest (ringWriteSlot s i l h)

/-- The open slot is `(low, high)` and the line was low. -/
def sampling (low high : Byte) (prev : Bool) : State :=
  { withSlots 7 [(low, high)] State.reset with current := 7, prevLevel := prev }

/-- V-SM6b: 21 low ticks and the edge tick close the slot as `(21, 1)`. -/
theorem test_sampler_closes :
    let t := tickEvent false true (sampling 21 0 false)
    t.current = 8 ∧ ringRead t 7 false = 21 ∧ ringRead t 7 true = 1 ∧ ringRead t 8 false = 0 ∧ ringRead t 8 true = 0 := by
  decide

/-- V-SM6a: 20 is not more than 20, so the slot is cleared and used again. -/
theorem test_sampler_spike :
    let t := tickEvent false true (sampling 20 0 false)
    t.current = 7 ∧ ringRead t 7 false = 0 ∧ ringRead t 7 true = 0 := by decide

/-- V-SM4: a count stops at 255. -/
theorem test_sampler_saturates : ringRead (tickEvent false false (sampling 255 9 false)) 7 false = 255 := by decide

/-- The start of V-T1: the slots, the message's ends, and the transmitter enabled. -/
def replaying : State :=
  enableTransmitter { withSlots 5 [(2, 3), (1, 2), (9, 9)] State.reset with msgStart := 5, msgEnd := 7 }

/-- V-T1, tick 1. -/
theorem test_tx_start :
    let t := tickEvent false false replaying
    (t.txPin, t.mode, t.current, t.txRemLow, t.txRemHigh, t.txBit) = (true, .transmitting, 5, 2, 3, true) := by decide

/-- V-T1, tick 9: the replay ends with the pin at the next slot's first phase. -/
theorem test_tx_end :
    let t := tickEvent false false
      { replaying with mode := .transmitting, current := 6, txRemLow := 1, txRemHigh := 0, txBit := false }
    (t.txPin, t.mode, t.current, t.txRemLow, t.txRemHigh, t.txBit) = (true, .idle, 7, 9, 9, true) := by decide

/-- V-T4: a high remainder of 0 wraps. -/
theorem test_tx_wraps :
    (tickEvent false false { replaying with mode := .transmitting, txRemHigh := 0, txBit := true }).txRemHigh = 255 := by
  decide

/-- V-E5, V-E6: a TICK with nothing armed. -/
theorem test_tick_unarmed :
    let s := { disableTransceiver State.reset with wake := false }
    tickEvent false true s = s ∧ tickEvent true true s = { s with tickcount := 1, wake := true } := by decide

/-- V-E3. -/
theorem test_uart_rx : uartRxEvent none (fun _ => false) 0x50 State.reset = { State.reset with uartRxQ := [0x50] } := by decide

/-- U7: a full queue. -/
theorem test_uart_rx_full :
    (uartRxEvent (some 1) (fun _ => true) 0x50 { State.reset with uartRxQ := [0x41] }).uartRxQ = [0x41] ∧
    (uartRxEvent (some 1) (fun _ => false) 0x50 { State.reset with uartRxQ := [0x41] }).uartRxQ = [0x50] := by decide

/-- V-E4: the pickup, with the byte still queued and the receiver still on. -/
theorem test_dispatch_pickup :
    let t := after .dispatch { State.reset with uartRxQ := [0x50] }
    (t.runningState, t.ssPhase, t.uartRxQ, t.mode, t.wake) = (.receivingCommand, .restart, [0x50], .receiving, false) := by
  decide

/-- V-E1. -/
theorem test_dispatch_asleep :
    after .dispatch { State.reset with wake := false, uartRxQ := [0x50] } =
      { State.reset with wake := false, uartRxQ := [0x50] } := by decide

/-- Ten equal slots from 0, the tenth open. -/
def train (low high : Byte) : State := { withSlots 0 (List.replicate 10 (low, high)) State.reset with current := 9 }

/-- V-C1. -/
theorem test_search_ask :
    let t := after .dispatchSyncSearch (train 60 20)
    (t.runningState, t.syncDuration, t.manchesterHits, t.ssPi, t.msgStart, t.checksum) =
      (.decodingAsk, 0x50, 0, 9, 0, 0x55) := by decide

/-- V-C16: a pulse seen as (52, 36) after normalization. -/
theorem test_search_normalizes :
    let t := after .dispatchSyncSearch (train 105 36)
    (t.runningState, t.syncDuration, t.manchesterHits) = (.decodingAsk, 0x58, 0) := by decide

/-- One pulse of a decoder's emission: slot 3 at `dec_pi`, slot 4 open. -/
def emitting (r : RunningState) (sd low high : Byte) : State :=
  { withSlots 3 [(low, high)] State.reset with
    current := 4, decPi := 3, decPhase := .emit, runningState := r, syncDuration := sd }

/-- R214: a long-high pulse is a 1, in the most significant place. -/
theorem test_ask_bit :
    let t := after .dispatchDecodeAsk (emitting .decodingAsk 0x50 20 60)
    (t.byteAccumulator, t.bitCount, t.decPi) = (0x80, 1, 4) := by decide

/-- R212: the lock-in of the second DISPATCH of V-C16 fails at once. -/
theorem test_ask_lock_fails :
    let t := after .dispatchDecodeAsk
      { withSlots 0 [(105, 36)] State.reset with current := 1, runningState := .decodingAsk, syncDuration := 0x58 }
    (t.runningState, t.msgStart, t.decoded, t.uartTx) = (.syncSearch, 1, false, []) := by decide

/-- R224: a pulse with both components full is a 0 and a 1 (V-O2's `(144, 144)`). -/
theorem test_ook_bits :
    let t := after .dispatchDecodeOok (emitting .decodingOok 0x90 144 144)
    (t.byteAccumulator, t.bitCount) = (0x40, 2) := by decide

/-- R236: two half-clock halves advance `demi_clock` by two and emit the latched bit once. -/
theorem test_manchester_pulse :
    let t := after .dispatchDecodeManchester (emitting .decodingManchester 0x40 32 32)
    (t.demiClock, t.stuffClock, t.bitCount, t.decPi, t.mPhase) = (2, 2, 1, 4, false) := by decide

/-- R238: the guard of 0xd0 bits ends the message without a byte and resumes at the unconsumed pulse. -/
theorem test_manchester_guard :
    let t := after .dispatchDecodeManchester { emitting .decodingManchester 0x40 32 32 with bitCount := 0xd0 }
    (t.runningState, t.msgStart, t.uartTx) = (.decodeDone, 3, []) := by decide

/-- R246, from V-R1's `(20, 60)`: high count first. -/
theorem test_raw_pulse :
    let t := after .dispatchDecodePulses (emitting .decodeRawPulses 0x50 20 60)
    (t.uartTx, t.checksum, t.bitCount) = ([0x33, 0x43, 0x31, 0x34], 0x50, 1) := by decide

/-- The end of V-O1: `#00!90*E5`. -/
theorem test_trailer :
    let t := after .dispatchTrailer { State.reset with runningState := .decodeDone, syncDuration := 0x90, checksum := 0x55 }
    (t.uartTx, t.runningState) = ([0x23, 0x30, 0x30, 0x21, 0x39, 0x30, 0x2A, 0x45, 0x35, 0x0A], .syncSearch) := by decide

/-- V-X1 to V-X3. -/
theorem test_procedures :
    let q := fun (s : State) => (s.mode, s.ocieA, s.ocieB, s.antenna)
    q (after .enableReceiver replaying) = (.receiving, true, false, false) ∧
    q (after .enableTransmitter State.reset) = (.startTransmit, false, true, true) ∧
    q (after .disableTransceiver replaying) = (.idle, false, false, false) := by decide

/-- The parser between the tokens of a line of a type. -/
def inToken (t : MType) : State := { State.reset with runningState := .receivingCommand, cpPhase := .token, cpType := t }

/-- The parser at its entry. -/
def atEntry : State := { State.reset with runningState := .receivingCommand }

/-- R277: the three headers (V-S2's and V-L's lines begin so). -/
theorem test_headers :
    let q := fun (s : State) => (s.checksum, s.syncDuration, s.cpType, s.msgType, s.cpPhase)
    q (after .ma atEntry) = (0x55, 0x63, .a, .a, .token) ∧
    q (after .mm atEntry) = (0x55, 0x40, .m, .m, .token) ∧
    q (after .mp { atEntry with syncDuration := 0x77 }) = (0x55, 0x77, .p, .p, .token) := by decide

/-- R283, `MA!30:40`: the 1 of 0x40 is the second slot. -/
theorem test_payloadA :
    let t := after (.payloadA [(0x34, 0x30)]) { inToken .a with syncDuration := 0x30 }
    (ringRead t 0 false, ringRead t 0 true, ringRead t 1 false, ringRead t 1 true, t.cpWr, t.checksum) =
      (36, 12, 12, 36, 8, 0x40) := by decide

/-- R284. -/
theorem test_payloadM :
    let t := after (.payloadM [(0x34, 0x30)]) (inToken .m)
    (t.ring, t.cpWr, t.checksum, t.cpPhase) = ([], 0, 0x40, .payHi) := by decide

/-- R285: the high count comes first. -/
theorem test_payloadP :
    let t := after (.payloadP [(0x33, 0x43), (0x31, 0x34)]) (inToken .p)
    (ringRead t 0 false, ringRead t 0 true, t.cpWr, t.cpPhold) = (0x14, 0x3C, 1, none) := by decide

/-- R287, R288. -/
theorem test_arguments :
    let q := fun (s : State) => (s.syncDuration, s.bitCount, s.checksum)
    q (after (.syncdur 0x33 0x30) (inToken .a)) = (0x30, 0, 0x30) ∧
    q (after (.bitcount 0x32 0x30) (inToken .a)) = (0, 0x20, 0x20) := by decide

/-- V-S6b: a range of 16 is skipped, the sentinel is written all the same; one more is transmitted (V-S6c). -/
theorem test_check_range :
    let q := fun (s : State) => (s.cpPhase, s.mode, s.msgEnd)
    q (after (.check 0x35 0x35) { inToken .a with checksum := 0x55, bitCount := 0x0F }) = (.token, .receiving, 0x10) ∧
    q (after (.check 0x35 0x35) { inToken .a with checksum := 0x55, bitCount := 0x10 }) = (.txWait, .startTransmit, 0x11) ∧
    ringRead (after (.check 0x35 0x35) { inToken .a with checksum := 0x55, bitCount := 0x0F }) 0x0F false = 255 := by decide

/-- R290. -/
theorem test_check_mismatch :
    let t := after (.check 0x35 0x34) { inToken .a with checksum := 0x55 }
    (t.uartTx, t.cpPhase) = ([0x21, 0x2A, 0x0A], .flush) := by decide

/-- R300, V-L1. -/
theorem test_eol :
    let t := after .eol (inToken .a)
    (t.uartTx, t.runningState, t.mode, t.cpPhase) = ([0x2A, 0x4F, 0x4B, 0x0A], .syncSearch, .receiving, .entry) := by decide

/-- V-K1 to V-K3. -/
theorem test_keywords :
    let q := fun (s : State) => (s.displayPulses, s.stackReq, s.uartTx, s.runningState)
    q (after .pulse atEntry) = (true, false, [0x2A, 0x4F, 0x4B, 0x0A], .syncSearch) ∧
    q (after .demod { atEntry with displayPulses := true }) = (false, false, [0x2A, 0x4F, 0x4B, 0x0A], .syncSearch) ∧
    q (after .stack atEntry) = (false, true, [0x2A, 0x4F, 0x4B, 0x0A], .syncSearch) := by decide

/-- R297: `X` at the start of a line. -/
theorem test_unexpected :
    let t := after (.unexpected 0x58) atEntry
    (t.uartTx, t.cpPhase, t.mode) = ([0x21, 0x58, 0x0A], .flush, .idle) := by decide

/-- V-E8: the cancellation disables the transceiver before the parser reads. -/
theorem test_cancel :
    let t := after (.dispatchCancel 1) { emitting .decodingAsk 0x50 20 60 with uartRxQ := [0x4D] }
    (t.runningState, t.decPhase, t.mode, t.cpPhase, t.uartTx) = (.receivingCommand, .idle, .idle, .mType, []) := by decide

/-- R292: the driver is `Idle`, the first cycle of three is over. -/
theorem test_next_cycle :
    let t := after .dispatchReceiveCommand { atEntry with cpPhase := .txWait, mode := .idle }
    (t.cpRep, t.mode, t.cpPhase) = (1, .startTransmit, .txWait) := by decide

/-- R270: 1000 ticks without a byte. -/
theorem test_idle_timeout :
    (after .dispatchReceiveCommand { inToken .a with tickcount := 1000 }).runningState = .syncSearch ∧
    (after .dispatchReceiveCommand { inToken .a with tickcount := 999 }).runningState = .receivingCommand := by decide

/-- R213, R223, R234, R245: the headers. -/
theorem test_out_headers :
    (after .outMa State.reset).uartTx = [0x4D, 0x41, 0x3A] ∧ (after .outMo State.reset).uartTx = [0x4D, 0x4F, 0x3A] ∧
    (after .outMm State.reset).uartTx = [0x4D, 0x4D, 0x3A] ∧ (after .outMp State.reset).uartTx = [0x4D, 0x50, 0x3A] := by
  decide

/-- R251, R246. -/
theorem test_out_payload :
    (after (.outByte 0xA5) State.reset).uartTx = [0x41, 0x35] ∧
    (after (.outPulse 0x3C 0x14) State.reset).uartTx = [0x33, 0x43, 0x31, 0x34] ∧
    (after (.outPulse 0x3C 0x14) State.reset).checksum = 0x50 := by decide

/-- R254, R300, R297, R290: the responses. -/
theorem test_out_responses :
    (after .outOk atEntry).uartTx = [0x2A, 0x4F, 0x4B, 0x0A] ∧
    (after (.outErrbyte 0x58) atEntry).uartTx = [0x21, 0x58, 0x0A] ∧
    (after .outErrsum atEntry).uartTx = [0x21, 0x2A, 0x0A] ∧
    (after (.outTrailer 0 0x90 0xE5) { State.reset with syncDuration := 0x90, checksum := 0x55 }).uartTx =
      [0x23, 0x30, 0x30, 0x21, 0x39, 0x30, 0x2A, 0x45, 0x35, 0x0A] := by decide

/-! ## 4. States and operands that meet the statements' hypotheses, clause by clause -/

/-- StepRunsDecodedOperation. -/
theorem test_hyp_step :
    ({ State.reset with script := [.code false 4 0b0011] } : State).script = OpWord.code false 4 0b0011 :: [] ∧
    decode (.code false 4 0b0011) = .ok .dispatch ∧ Instr.dispatch.wellFormed = true ∧
    State.reset.script = [] ∧ decode (.code false 4 0b0111) = .error .unknownCode := by decide

/-- DecodeEncodeRoundTrip, at the ends of the operands' ranges. -/
theorem test_hyp_roundTrip :
    (Instr.dispatchCancel 4).wellFormed = true ∧ (Instr.payloadP [(0x30, 0x66)]).wellFormed = true ∧
    (Instr.unexpected 0xFF).wellFormed = true ∧ (Instr.outErrbyte 0x00).wellFormed = true := by decide

/-- DecodedWordKeepsEveryBit. -/
theorem test_hyp_keepsEveryBit : decode (.rx .p [0x3A, 0x66, 0x46]) = .ok (.payloadP [(0x66, 0x46)]) := by decide

/-- StepKeepsInvariant. -/
theorem test_hyp_invariant :
    Inv { replaying with script := [.code false 4 0b0101] } ∧
    step { replaying with script := [.code false 4 0b0101] } = .next (enableTransmitter replaying) :=
  ⟨by decide, rfl⟩

/-- EventsKeepTaskDiscipline and ChecksumLaw: a decode that is emitting, and its next DISPATCH. -/
theorem test_hyp_discipline :
    isEvent .dispatch = true ∧ TaskOk (emitting .decodingAsk 0x50 20 60) ∧
    exec .dispatch (emitting .decodingAsk 0x50 20 60) = .next (after .dispatch (emitting .decodingAsk 0x50 20 60)) :=
  ⟨rfl, by decide, rfl⟩

/-- ChecksumLaw, first clause: a line whose header has been printed; the second clause after its end. -/
theorem test_hyp_checksumLaw :
    let s := { emitting .decodingAsk 0x50 20 60 with decoded := true, checksum := 0x55, uartTx := [0x4D, 0x41, 0x3A] }
    (isEvent .dispatch = true ∧ TaskOk s ∧ LineLaw s ∧ exec .dispatch s = .next (after .dispatch s)) ∧
    (LineLaw { s with runningState := .decodeDone } ∧ ({ s with runningState := .decodeDone } : State).runningState = .decodeDone) := by
  refine ⟨⟨rfl, by decide, ⟨?_, fun _ => ⟨rfl, [], [], rfl, rfl⟩⟩, rfl⟩, ⟨?_, fun _ => ⟨rfl, [], [], rfl, rfl⟩⟩, rfl⟩
  · exact fun h => absurd h (by decide)
  · exact fun h => absurd h (by decide)

/-- RunningStateFollowsTable: the three clauses. -/
theorem test_hyp_table :
    (isEvent .reset = true ∧ exec .reset State.reset = .next (after .reset State.reset)) ∧
    (isEvent (.uartRx 0x50) = true ∧ Instr.uartRx 0x50 ≠ .reset ∧ Instr.uartRx 0x50 ≠ .dispatch ∧
      exec (.uartRx 0x50) State.reset =
        .next (uartRxEvent Config.uartRxDepth Config.overflowDropsNew 0x50 State.reset)) ∧
    (isEvent .dispatch = true ∧ exec .dispatch State.reset = .next (after .dispatch State.reset)) :=
  ⟨⟨rfl, rfl⟩, ⟨rfl, by decide, by decide, rfl⟩, rfl, rfl⟩

/-- OnlyTicksTouchTimerState and OutputOnlyGrows. -/
theorem test_hyp_timerState :
    Instr.dispatch ≠ .reset ∧ (∀ level, Instr.dispatch ∉ tickRows level) ∧
    exec .dispatch State.reset = .next (after .dispatch State.reset) :=
  ⟨by decide, by decide, rfl⟩

/-- OutputOnlyGrows, the operations that emit nothing. -/
theorem test_hyp_silent :
    (Instr.tickUnarmed true ≠ .reset ∧ (∃ level, Instr.tickUnarmed true ∈ tickRows level) ∧
      exec (.tickUnarmed true) State.reset = .next (tickEvent Config.tickFreeRunning true State.reset)) ∧
    (∃ b, Instr.uartRx 0 = .uartRx b) :=
  ⟨⟨by decide, ⟨true, by decide⟩, rfl⟩, 0, rfl⟩

/-- OpenSlotIsNeverRead: the open slot of `emitting` is slot 4. -/
theorem test_hyp_openSlot :
    Instr.dispatchDecodeAsk ∈ readers ∧
    ∀ j c, j ≠ (emitting .decodingAsk 0x50 20 60).current →
      Memory.read (ringWriteSlot (emitting .decodingAsk 0x50 20 60) 4 1 1).ring (ringAddr j c) =
        ringRead (emitting .decodingAsk 0x50 20 60) j c := by
  refine ⟨by decide, fun j c hj => ?_⟩
  exact (ringRead_ringWriteSlot (s := emitting .decodingAsk 0x50 20 60) (by decide) 4 j c 1 1).trans (if_neg hj)

/-- SamplerTick, at an edge that closes the slot. -/
theorem test_hyp_samplerTick :
    Instr.tickSampler true ∈ tickRows true ∧ Memory.wf (sampling 255 0 false).ring = true ∧
    (sampling 255 0 false).ocieA = true ∧ (sampling 255 0 false).ocieB = false := by decide

/-- SlotShape: the shortest pulse, and the shortest low count of the second clause. -/
theorem test_hyp_slotShape :
    let s := sampling 0 0 true
    (1 ≤ 1 ∧ Memory.wf s.ring = true ∧ s.ocieA = true ∧ s.ocieB = false ∧ s.prevLevel = true ∧
      ringRead s s.current false = 0 ∧ ringRead s s.current true = 0) ∧
    (20 < 21 ∧ (sampling 0 0 false).prevLevel = false) := by decide

/-- TransmitStart, TransmitCount (each clause at the end of its count), ReplayedSlotLength. -/
theorem test_hyp_transmit :
    let s := { replaying with mode := .transmitting, txRemHigh := 1, txRemLow := 2, txBit := true }
    (Instr.tickTxdriver false ∈ tickRows false ∧ replaying.ocieA = false ∧ replaying.ocieB = true ∧
      replaying.mode = .startTransmit) ∧
    (s.ocieA = false ∧ s.ocieB = true ∧ s.mode = .transmitting ∧ s.txBit = true ∧ s.txBit = decide (s.txRemHigh ≠ 0)) ∧
    (({ s with txBit := false } : State).txBit = false ∧ s.txRemLow - 1 ≠ 0) ∧
    ({ s with txBit := false, txRemLow := 1 } : State).txRemLow - 1 = 0 := by decide

/-- ReplayedSlotLength at its two counts of 0: no high tick and 256 low ticks. -/
theorem test_hyp_replayedSlot :
    let s := { replaying with mode := .transmitting, txRemHigh := 0, txRemLow := 0, txBit := false }
    s.ocieA = false ∧ s.ocieB = true ∧ s.mode = .transmitting ∧ s.txBit = decide (s.txRemHigh ≠ 0) ∧
    256 ≤ s.txRemHigh.toNat + (if s.txRemLow = 0 then 256 else s.txRemLow.toNat) := by decide

/-- TickWithoutHandlerEffect: both clauses. -/
theorem test_hyp_tickWithoutEffect :
    (Instr.tickUnarmed true ∈ tickRows true ∧ (disableTransceiver State.reset).ocieA = false ∧
      (disableTransceiver State.reset).ocieB = false) ∧
    (({ replaying with mode := .idle } : State).ocieA = false ∧ ({ replaying with mode := .idle } : State).ocieB = true) := by
  decide

/-- DispatchRunsNamedTask, CancellationRunsParser: a decode with a byte queued; and a decode with none. -/
theorem test_hyp_dispatch :
    let s := { emitting .decodeRawPulses 0x50 20 60 with uartRxQ := [0x4D] }
    (s.wake = true ∧ isDecoding s.runningState = true ∧ s.uartRxQ ≠ [] ∧ runningCode s.runningState = 4) ∧
    ((emitting .decodingAsk 0 0 0).wake = true ∧ (emitting .decodingAsk 0 0 0).uartRxQ = []) ∧
    ({ s with wake := false } : State).wake = false := by decide

/-- UnselectedOperationChangesNothing: its three clauses. -/
theorem test_hyp_unselected :
    State.reset.runningState ≠ .decodeDone ∧
    ¬(runningCode State.reset.runningState = 1 ∧ isDecoding State.reset.runningState = true ∧ State.reset.uartRxQ ≠ []) ∧
    (inboundBytes .ma = some [0x4D, 0x41] ∧ State.reset.runningState ≠ .receivingCommand ∧
      ({ atEntry with cpPhase := .txWait } : State).cpPhase = .txWait) := by decide

/-- SearcherPicksUpOrWaits: its two clauses. -/
theorem test_hyp_pickup :
    let s := { State.reset with ssPhase := .search, uartRxQ := [0x4D] }
    (s.runningState = .syncSearch ∧ s.ssPhase = .search ∧ s.syncLen = 0 ∧ s.uartRxQ ≠ []) ∧
    (¬(({ s with syncLen := 3 } : State).syncLen = 0 ∧ s.uartRxQ ≠ []) ∧ s.ssPi = s.current) := by decide

/-- A search with one match to go on, or to end with. -/
def searching (len : BitVec 4) (low high sd : Byte) : State :=
  { withSlots 0 [(low, high)] State.reset with current := 1, ssPhase := .search, syncLen := len, syncDuration := sd }

/-- SearcherExaminesOnePulse: a match at the lowest cycle (V-C14's slot 2) and a pulse whose two halves are halved. -/
theorem test_hyp_examines :
    let s := searching 0 20 12 31
    s.runningState = .syncSearch ∧ s.ssPhase = .search ∧ ¬(s.syncLen = 0 ∧ s.uartRxQ ≠ []) ∧ s.ssPi ≠ s.current ∧
    Normalized (ringRead s s.ssPi false).toNat (ringRead s s.ssPi true).toNat s.syncDuration.toNat 20 12 ∧
    Normalized 96 96 96 48 48 ∧ (examined 20 12 s).syncLen ≠ 8 := by
  refine ⟨by decide, by decide, by decide, by decide, ?_, ?_, by decide⟩ <;> (unfold Normalized; decide)

/-- SearcherClassifies. -/
theorem test_hyp_classifies :
    let s := searching 7 60 20 0x50
    s.runningState = .syncSearch ∧ s.ssPhase = .search ∧ ¬(s.syncLen = 0 ∧ s.uartRxQ ≠ []) ∧ s.ssPi ≠ s.current ∧
    Normalized (ringRead s s.ssPi false).toNat (ringRead s s.ssPi true).toNat s.syncDuration.toNat 60 20 ∧
    (examined 60 20 s).syncLen = 8 := by
  refine ⟨by decide, by decide, by decide, by decide, ?_, by decide⟩
  unfold Normalized
  decide

/-- SearcherResumes: a retry that is due, and one that has been made. -/
theorem test_hyp_resumes :
    let s := { State.reset with ssPhase := .awaitDecoder, manchesterHits := 1 }
    (s.runningState = .syncSearch ∧ s.ssPhase = .awaitDecoder ∧ s.decoded = false ∧ s.ssChoice = .ask ∧
      s.manchesterHits ≠ 0 ∧ s.ssRetried = false) ∧
    ¬(s.decoded = false ∧ s.ssChoice = .ask ∧ s.manchesterHits ≠ 0 ∧ ({ s with ssRetried := true } : State).ssRetried = false) ∧
    State.reset.ssPhase = .restart := by decide

/-- A decoder in lock-in with `n` pulses counted. -/
def locking (k : LockDecoder) (n : BitVec 6) (sd low high : Byte) : State :=
  { emitting k.state sd low high with decPhase := .lockIn, decN := n }

/-- LockInEntersWaitsAndFails and LockInCountsAndCommits, at the last pulse of a lock-in: valid at the tolerance of 8, not valid
one beyond it. -/
theorem test_hyp_lockIn :
    let s := locking .ask 19 0x50 60 28
    let f := locking .ask 19 0x50 60 29
    (s.runningState = LockDecoder.ask.state ∧ s.decPhase = .lockIn ∧ s.decN.toNat < LockDecoder.ask.need ∧ s.decPi ≠ s.current ∧
      LockDecoder.ask.good s.syncDuration.toNat (ringRead s s.decPi false).toNat (ringRead s s.decPi true).toNat = true) ∧
    (f.decPi ≠ f.current ∧
      LockDecoder.ask.good f.syncDuration.toNat (ringRead f f.decPi false).toNat (ringRead f f.decPi true).toNat = false) ∧
    ({ s with decPhase := .idle } : State).decPhase = .idle ∧ ({ s with decPi := 4 } : State).decPi = s.current := by decide

/-- The same for OOK (an eighth, inclusive) and Manchester (a quarter, strict). -/
theorem test_hyp_lockIn_others :
    LockDecoder.ook.good 0x90 126 0 = true ∧ LockDecoder.ook.good 0x90 125 0 = false ∧
    LockDecoder.man.good 0x40 17 32 = true ∧ LockDecoder.man.good 0x40 16 32 = false ∧
    (locking .ook 0 0x90 0 0).runningState = LockDecoder.ook.state ∧
    (locking .man 31 0x40 0 0).decN.toNat < LockDecoder.man.need := by decide

/-- AskEmits, OokEmits, RawDumps: waiting, the saturated slot, the longest slot that is not. -/
theorem test_hyp_emits :
    let w := fun r => ({ emitting r 0x50 20 60 with decPi := 4 } : State)
    ((w .decodingAsk).decPhase = .emit ∧ (w .decodingAsk).decPi = (w .decodingAsk).current) ∧
    ((emitting .decodingOok 0x90 255 1).decPi ≠ (emitting .decodingOok 0x90 255 1).current ∧
      ringRead (emitting .decodingOok 0x90 255 1) 3 false = 255) ∧
    ringRead (emitting .decodeRawPulses 0x90 254 1) 3 false ≠ 255 ∧
    ({ emitting .decodeRawPulses 0x90 254 1 with decPhase := .idle } : State).decPhase = .idle := by decide

/-- ManchesterEmits: its four clauses at the guard and one bit before it. -/
theorem test_hyp_manchester :
    let s := emitting .decodingManchester 0x40 255 32
    (s.runningState = .decodingManchester ∧ s.decPhase = .emit ∧ 0xd0 ≤ ({ s with bitCount := 0xd0 } : State).bitCount.toNat) ∧
    (({ s with bitCount := 0xcf } : State).bitCount.toNat < 0xd0 ∧ ({ s with decPi := 4 } : State).decPi = s.current) ∧
    (s.decPi ≠ s.current ∧ s.mPhase = false ∧ ringRead s s.decPi false = 255) ∧
    ¬(({ s with mPhase := true } : State).mPhase = false ∧ ringRead s s.decPi false = 255) := by decide

/-- ManchesterClocksAgree: the clocks equal, and one apart at an odd and an even count. -/
theorem test_hyp_clocks :
    let s := emitting .decodingManchester 0x40 32 32
    (s.stuffClock = s.demiClock ∧ ClocksAgree s ∧ s.runningState = .decodingManchester) ∧
    (({ s with stuffClock := 255 } : State).stuffClock ≠ s.demiClock ∧
      ({ s with stuffClock := 255 } : State).stuffClock.toNat % 2 = 1 ∧ ClocksAgree { s with stuffClock := 255 }) ∧
    (({ s with stuffClock := 254 } : State).stuffClock ≠ s.demiClock ∧
      ({ s with stuffClock := 254 } : State).stuffClock.toNat % 2 = 0) ∧
    (exec .dispatchDecodeManchester s = .next (after .dispatchDecodeManchester s) ∧
      (after .dispatchDecodeManchester s).decPhase = .emit) :=
  ⟨by decide, by decide, by decide, rfl, by decide⟩

/-- DecodersFrame. -/
theorem test_hyp_decoders : Instr.dispatchDecodeAsk ∈ bitDecoders ∧ Instr.dispatchDecodeOok ∈ bitDecoders := by decide

/-- BitsAndPartialBytes: the eighth bit of a byte and the wrap of the count; a flush with and without bits. -/
theorem test_hyp_bits :
    ((6 : Byte) + 1).toNat % 8 ≠ 0 ∧ ((255 : Byte) + 1).toNat % 8 = 0 ∧ (0 : Byte).toNat % 8 = 0 ∧ (7 : Byte).toNat % 8 ≠ 0 := by
  decide

/-- PayloadIsMsbFirst: one bit, and eight bits from the end of the count. -/
theorem test_hyp_msbFirst :
    (1 ≤ 1 ∧ (1 : Byte).toNat < 2 ^ 1 ∧ State.reset.bitCount.toNat % 8 = 0 ∧ State.reset.byteAccumulator = 0) ∧
    ((255 : Byte).toNat < 2 ^ 8 ∧ ({ State.reset with bitCount := 248 } : State).bitCount.toNat % 8 = 0) := by decide

/-- TrailerIsEmitted. -/
theorem test_hyp_trailer : ({ State.reset with runningState := .decodeDone } : State).runningState = .decodeDone := by decide

/-- ParserEntersWaitsAndTimesOut, ParserReadsByteByByte: entry; waiting with and without a byte. -/
theorem test_hyp_parserWaits :
    (atEntry.runningState = .receivingCommand ∧ atEntry.cpPhase = .entry) ∧
    (waitsForByte (inToken .a) = true ∧ (inToken .a).uartRxQ = []) ∧
    (waitsForByte { inToken .a with cpPhase := .flush, uartRxQ := [0x0A] } = true ∧
      ({ inToken .a with cpPhase := .flush, uartRxQ := [0x0A] } : State).uartRxQ = 0x0A :: []) := by decide

/-- ParserReadsByteByByte: a byte after which the parser is in the line, and one after which it is not. -/
theorem test_hyp_parserByte :
    (cpHandleByte 0x21 (inToken .a)).runningState = .receivingCommand ∧
    (cpHandleByte 0x0A (inToken .a)).runningState ≠ .receivingCommand := by decide

/-- TransmitCycles: its four clauses. -/
theorem test_hyp_cycles :
    let s := { atEntry with cpPhase := .txWait }
    s.runningState = .receivingCommand ∧ ({ s with cpPhase := .txStart } : State).cpPhase = .txStart ∧ s.cpPhase = .txWait ∧
    ({ s with mode := .transmitting } : State).mode ≠ .idle ∧ ({ s with mode := .idle } : State).mode = .idle ∧
    (({ s with cpRep := 1 } : State).cpRep + 1).toNat < 3 ∧ ¬((({ s with cpRep := 2 } : State).cpRep + 1).toNat < 3) := by decide

/-- InboundOperationIsItsBytes. -/
theorem test_hyp_inbound :
    inboundBytes (.check 0x36 0x36) = some [0x2A, 0x36, 0x36] ∧ (inToken .a).runningState = .receivingCommand ∧
    (inToken .a).cpPhase ≠ .txStart ∧ (inToken .a).cpPhase ≠ .txWait ∧ (inToken .a).uartRxQ = [] := by decide

/-- HeadersSeedTheLine, KeywordsSetTheirFlag: at the entry and at the start of a line. -/
theorem test_hyp_lineStart : AtLineStart atEntry ∧ AtLineStart { atEntry with cpPhase := .start } := by decide

/-- The tokens' statements: between tokens and where a payload may end; a ring in canonical form; digits at both ends. -/
theorem test_hyp_token :
    (AtToken (inToken .a) ∧ AtToken { inToken .p with cpPhase := .payHi } ∧ Memory.wf (inToken .a).ring = true) ∧
    ((inToken .a).cpType = .a ∧ (inToken .m).cpType = .m ∧ (inToken .p).cpType = .p) ∧
    (pairsAreHex [] = true ∧ pairsAreHex [(0x30, 0x66)] = true ∧ hexval 0x30 = some 0 ∧ hexval 0x46 = some 15 ∧
      hexval 0x66 = some 15) ∧
    (Instr.payloadP [] ∈ [Instr.payloadA [], .payloadM [], .payloadP []]) := by decide

/-- PayloadPStoresPulsePairs: a pulse held, and none. -/
theorem test_hyp_pulseHeld :
    (after (.payloadP []) (inToken .p)).cpPhold = none ∧ (after (.payloadP [(0x33, 0x43)]) (inToken .p)).cpPhold = some 0x3C := by
  decide

/-- CheckTokenTriggers: a claim that differs by one and one that agrees; a range of 16 and one of 17. -/
theorem test_hyp_check :
    let v : Byte := BitVec.ofNat 8 (16 * (5 : BitVec 4).toNat + (4 : BitVec 4).toNat)
    v ≠ (0x55 : Byte) ∧ v = (0x54 : Byte) ∧ ((0x0F : Byte) + 1).toNat ≤ 16 ∧ ¬(((0x10 : Byte) + 1).toNat ≤ 16) := by decide

/-- BadArgumentDigits: its three clauses. -/
theorem test_hyp_badDigits :
    (hexval 0x30 = some 0 ∧ hexval 0x47 = none) ∧ (hexval 0x47 = none ∧ (0x47 : Byte) ≠ 0x0A) ∧ hexval 0x0A = none := by decide

/-- UnexpectedByteIsFlushed: a byte each phase does not accept, the newline among them; the flush. -/
theorem test_hyp_unexpected :
    raisesUnexpected atEntry 0x0A = true ∧ raisesUnexpected (inToken .a) 0x0D = true ∧
    raisesUnexpected { atEntry with cpPhase := .kw, cpKi := 7 } 0x00 = true ∧
    raisesUnexpected { atEntry with cpPhase := .payHi } 0x47 = true ∧
    ({ atEntry with cpPhase := .flush } : State).cpPhase = .flush := by decide

end Sys2Proof.Tests
end

section
/-! PROOF. A step of the machine: the word it fetches, and what it answers to each outcome of the decoder. -/

namespace Sys2Proof.Proofs.Scope
open Sys2Proof Sys2Proof.Machine

variable {s s' : State} {w : OpWord}

/-! ## Fetching from the pending words (log 1) -/

theorem fetch_of_script_nil (h : s.script = []) : fetch s = none := by
  simp only [fetch, h]

theorem fetch_of_script_cons {rest : List OpWord} (h : s.script = w :: rest) :
    fetch s = some (w, { s with script := rest }) := by
  simp only [fetch, h]

/-! ## A step, by what was fetched and decoded (R11) -/

theorem step_of_fetch_none (h : fetch s = none) : step s = .next s := by
  simp only [step, h]

theorem step_of_decode_ok {i : Instr} (hf : fetch s = some (w, s')) (hd : decode w = .ok i) : step s = exec i s' := by
  simp only [step, hf, hd]

theorem step_of_decode_error {r : Reject} (hf : fetch s = some (w, s')) (hd : decode w = .error r) :
    step s = .refused (.undecodable r) := by
  simp only [step, hf, hd]

end Sys2Proof.Proofs.Scope

namespace Sys2Proof.Proofs
open Sys2Proof Sys2Proof.Machine Sys2Proof.Proofs.Scope

/-- Settles O1: the script decides what is fetched, and the decoder's answer on that word decides the step. The operation's
well-formedness is not needed: `step` runs whatever the decoder reads. -/
theorem stepRunsDecodedOperation : Obligations.StepRunsDecodedOperation := by
  refine ⟨?runs, ?idle, ?refuses⟩
  case runs =>
    intro s w rest i hscript hdecode _
    exact step_of_decode_ok (fetch_of_script_cons hscript) hdecode
  case idle =>
    intro s hscript
    exact step_of_fetch_none (fetch_of_script_nil hscript)
  case refuses =>
    intro s w rest r hscript hdecode
    exact step_of_decode_error (fetch_of_script_cons hscript) hdecode

end Sys2Proof.Proofs
end

section
/-! PROOF. The invariants of 10_state.md: what the searcher writes, and what operations do to the transceiver, the search counts
and the resume points; from that R52 (a) to (f), the timer's elements (R24, R25, R29, R31) and the output's growth (R49). -/

namespace Sys2Proof.Proofs.Invariants
open Sys2Proof Sys2Proof.Machine

variable {s t : State}

/-! ## All that a run of the searcher writes (R202) -/

/-- `t` is `s` after something of the searcher: its own elements and those of the hand-off (R199) moved, nothing else. -/
def Searched (s t : State) : Prop :=
  t = { s with
        runningState := t.runningState, syncDuration := t.syncDuration, syncLen := t.syncLen
        manchesterHits := t.manchesterHits, syncStart := t.syncStart, ssPi := t.ssPi, ssPhase := t.ssPhase
        ssChoice := t.ssChoice, ssRetried := t.ssRetried, msgStart := t.msgStart, msgEnd := t.msgEnd
        checksum := t.checksum, bitCount := t.bitCount, byteAccumulator := t.byteAccumulator, decoded := t.decoded }

theorem Searched.trans {u : State} (h : Searched s t) (h' : Searched t u) : Searched s u := by
  unfold Searched at h h' ⊢
  conv_lhs => rw [h', h]

theorem ssExamine_searched (s : State) : Searched s (ssExamine s) := by
  obtain ⟨_, _, _, _, _, h⟩ := ssExamine_frame s
  rw [h]
  rfl

theorem ssClassify_searched (s : State) : Searched s (ssClassify s) := rfl

theorem ssLoop_searched (s : State) : Searched s (ssLoop Config.ringSlots s) := by
  refine ssLoop_induct (P := Searched s) (Q := Searched s) ?fuel rfl ?pulse ?pickup ?wait ?classify
  case fuel => exact (ovfSub_le s.ssPi s.current).trans (by decide)
  case pulse => exact fun u h _ _ => h.trans (ssExamine_searched u)
  case pickup => exact fun u h _ _ => h.trans rfl
  case wait => exact fun u h _ _ => h
  case classify => exact fun u h _ _ => (h.trans (ssExamine_searched u)).trans (ssClassify_searched _)

theorem syncSearch_searched (s : State) : Searched s (syncSearch s) := by
  have restarted : Searched s (ssLoop Config.ringSlots (ssRestart s)) :=
    Searched.trans (t := ssRestart s) rfl (ssLoop_searched _)
  unfold syncSearch
  split
  · split
    · rfl
    · exact restarted
  · exact restarted
  · exact ssLoop_searched s

/-! ## The Manchester commit as one update (R234) -/

theorem manCommit_eq (s : State) :
    manCommit s =
      { s with
        uartTx := s.uartTx ++ [chM, chM, chColon], decoded := true, msgType := .m, decPi := s.msgStart, decPhase := .emit
        mPhase := false, mBit := false, demiClock := 0, stuffClock := 0 } := rfl

/-! ## The counts of a search (R52 (e), R203) -/

/-- One examined pulse clears both counts, or counts the cycle and perhaps a hit (R195, R196). -/
theorem ssExamine_counts (s : State) :
    ((ssExamine s).syncLen = 0 ∧ (ssExamine s).manchesterHits = 0) ∨
    ((ssExamine s).syncLen = s.syncLen + 1 ∧
      ((ssExamine s).manchesterHits = s.manchesterHits + 1 ∨ (ssExamine s).manchesterHits = s.manchesterHits)) := by
  unfold ssExamine
  simp only
  split
  · exact .inr ⟨rfl, ite_eq_or_eq _ _ _⟩
  · exact .inl ⟨rfl, rfl⟩

/-- A search that has not reached 8 matches has at most 8 after one more pulse. -/
theorem ssExamine_counts_le (hl : s.syncLen.toNat < 8) (hh : s.manchesterHits.toNat ≤ s.syncLen.toNat) :
    (ssExamine s).syncLen.toNat ≤ 8 ∧ (ssExamine s).manchesterHits.toNat ≤ (ssExamine s).syncLen.toNat := by
  rcases ssExamine_counts s with ⟨el, eh⟩ | ⟨el, eh | eh⟩ <;> rw [el, eh]
  · decide
  · bv_omega
  · bv_omega

theorem toNat_lt_eight_of_ne_syncLen {n : BitVec 4} (h : n.toNat ≤ 8) (hne : n ≠ Config.syncLen) : n.toNat < 8 :=
  lt_of_le_of_ne h fun he => hne (BitVec.eq_of_toNat_eq he)

theorem ssClassify_searchOk (hl : s.syncLen.toNat ≤ 8) (hh : s.manchesterHits.toNat ≤ s.syncLen.toNat) :
    SearchOk (ssClassify s) :=
  ⟨hl, hh, fun h => by cases h⟩

/-- The pulse loop, entered below 8 matches, yields or hands off with the counts in their ranges. -/
theorem ssLoop_searchOk (hl : s.syncLen.toNat < 8) (hh : s.manchesterHits.toNat ≤ s.syncLen.toNat) :
    SearchOk (ssLoop Config.ringSlots s) := by
  refine ssLoop_induct (P := fun u => u.syncLen.toNat < 8 ∧ u.manchesterHits.toNat ≤ u.syncLen.toNat)
    (Q := fun u => SearchOk u) ?fuel ⟨hl, hh⟩ ?pulse ?pickup ?wait ?classify
  case fuel => exact (ovfSub_le s.ssPi s.current).trans (by decide)
  case pulse =>
    rintro u ⟨hl, hh⟩ - h8
    obtain ⟨hl', hh'⟩ := ssExamine_counts_le hl hh
    exact ⟨toNat_lt_eight_of_ne_syncLen hl' h8, hh'⟩
  case pickup =>
    rintro u ⟨hl, hh⟩ - -
    exact ⟨hl.le, hh, fun h => by cases h⟩
  case wait =>
    rintro u ⟨hl, hh⟩ - -
    exact ⟨hl.le, hh, fun _ => hl⟩
  case classify =>
    rintro u ⟨hl, hh⟩ - -
    obtain ⟨hl', hh'⟩ := ssExamine_counts_le hl hh
    exact ssClassify_searchOk hl' hh'

theorem syncSearch_searchOk (h : SearchOk s) : SearchOk (syncSearch s) := by
  have restarted : SearchOk (ssLoop Config.ringSlots (ssRestart s)) :=
    ssLoop_searchOk (s := ssRestart s) (Nat.zero_lt_succ 7) le_rfl
  unfold syncSearch
  split
  · split
    · exact h
    · exact restarted
  · exact restarted
  · next hp =>
    obtain ⟨-, hh, hsearch⟩ := h
    exact ssLoop_searchOk (hsearch hp) hh

theorem searchOk_of_restart (h : SearchOk s) (hl : t.syncLen = s.syncLen) (hh : t.manchesterHits = s.manchesterHits)
    (hp : t.ssPhase = .restart) : SearchOk t := by
  obtain ⟨h1, h2, -⟩ := h
  exact ⟨by rw [hl]; exact h1, by rw [hl, hh]; exact h2, fun x => by simp [hp] at x⟩

/-! ## The transceiver (R52 (a) to (d)) -/

theorem enableReceiver_transceiverOk (s : State) : TransceiverOk (enableReceiver s) := by simp [TransceiverOk]

theorem enableTransmitter_transceiverOk (s : State) : TransceiverOk (enableTransmitter s) := by simp [TransceiverOk]

theorem disableTransceiver_transceiverOk (s : State) : TransceiverOk (disableTransceiver s) := by simp [TransceiverOk]

/-- With the driver armed, R52 asks that the sampler is not, that the antenna is on, and that the mode is not Receiving. -/
theorem transceiverOk_driver_iff (hb : s.ocieB = true) :
    TransceiverOk s ↔ s.ocieA = false ∧ s.mode ≠ .receiving ∧ s.antenna = true := by
  cases ha : s.ocieA <;> cases hm : s.mode <;> simp [TransceiverOk, ha, hb, hm]

/-- The driver never enters Receiving (R151 to R155). -/
theorem txDriver_mode_ne_receiving (h : s.mode ≠ .receiving) : (txDriver s).mode ≠ .receiving := by
  cases hm : s.mode with
  | idle => rwa [txDriver_still (.inl hm)]
  | receiving => contradiction
  | startTransmit => simp [txDriver_start hm]
  | transmitting =>
    rw [txDriver_transmitting hm]
    change (txCount s).mode ≠ _
    cases hb : s.txBit with
    | true => rwa [txCount_high hb]
    | false =>
      by_cases h0 : s.txRemLow - 1 = 0
      · rw [txCount_reload hb h0]
        change (if s.current + 1 = s.msgEnd then Mode.idle else s.mode) ≠ _
        split
        · simp
        · exact h
      · rwa [txCount_low hb h0]

theorem txDriver_inv (hb : s.ocieB = true) (h : Inv s) : Inv (txDriver s) := by
  obtain ⟨hring, htrans, hsearch⟩ := h
  obtain ⟨ha, hm, hant⟩ := (transceiverOk_driver_iff hb).mp htrans
  obtain ⟨_, _, _, _, _, _, he⟩ := txDriver_frame s
  refine ⟨?_, (transceiverOk_driver_iff ?_).mpr ⟨?_, txDriver_mode_ne_receiving hm, ?_⟩, ?_⟩ <;> rw [he]
  · exact hring
  · exact hb
  · exact ha
  · exact hant
  · exact hsearch

/-! ## Inv under TICK (R171) -/

theorem tickEvent_inv (free level : Bool) (h : Inv s) : Inv (tickEvent free level s) := by
  cases ha : s.ocieA <;> cases hb : s.ocieB
  case false.false =>
    rw [tickEvent_unarmed free level ha hb]
    cases free <;> exact h
  case false.true =>
    rw [tickEvent_driver free level ha hb]
    exact txDriver_inv (s := { s with tickcount := _ }) hb h
  case true.false =>
    obtain ⟨hring, htrans, hsearch⟩ := h
    obtain ⟨m, he, hm, -⟩ := sampler_spec hring level
    rw [tickEvent_sampler free level ha hb, he]
    exact ⟨hm, htrans, hsearch⟩
  case true.true =>
    obtain ⟨-, ⟨hboth, -⟩, -⟩ := h
    exact absurd ⟨ha, hb⟩ hboth

/-! ## Inv under every other operation -/

theorem enableReceiver_inv : Inv s → Inv (enableReceiver s) :=
  fun ⟨hring, _, hsearch⟩ => ⟨hring, enableReceiver_transceiverOk s, hsearch⟩

theorem enableTransmitter_inv : Inv s → Inv (enableTransmitter s) :=
  fun ⟨hring, _, hsearch⟩ => ⟨hring, enableTransmitter_transceiverOk s, hsearch⟩

theorem disableTransceiver_inv : Inv s → Inv (disableTransceiver s) :=
  fun ⟨hring, _, hsearch⟩ => ⟨hring, disableTransceiver_transceiverOk s, hsearch⟩

theorem exitPath_inv : Inv s → Inv (exitPath s) :=
  fun ⟨hring, _, hsearch⟩ => ⟨hring, enableReceiver_transceiverOk s, searchOk_of_restart hsearch rfl rfl rfl⟩

theorem cancelDecode_inv : Inv s → Inv (cancelDecode s) :=
  fun ⟨hring, _, hsearch⟩ => ⟨hring, disableTransceiver_transceiverOk s, searchOk_of_restart hsearch rfl rfl rfl⟩

/-- E3 reports the byte, then leaves the line or flushes it (R297, R313). -/
theorem raiseUnexpectedByte_ways (c : Byte) (s : State) :
    raiseUnexpectedByte c s = exitPath (emit [chBang, c, chNl] s) ∨
    raiseUnexpectedByte c s = { emit [chBang, c, chNl] s with cpPhase := .flush } :=
  ite_eq_or_eq _ _ _

theorem raiseUnexpectedByte_inv (c : Byte) (h : Inv s) : Inv (raiseUnexpectedByte c s) := by
  rcases raiseUnexpectedByte_ways c s with he | he <;> rw [he]
  · exact exitPath_inv (s := emit _ s) h
  · exact h

theorem syncSearch_inv (h : Inv s) : Inv (syncSearch s) := by
  obtain ⟨hring, htrans, hsearch⟩ := h
  have he := syncSearch_searched s
  refine ⟨?_, ?_, syncSearch_searchOk hsearch⟩ <;> rw [he]
  · exact hring
  · exact htrans

theorem inLine_inv (hl : InLine s t) (h : Inv s) : Inv t := by
  obtain ⟨hring, htrans, hsearch⟩ := h
  obtain ⟨he, -, hwf, -⟩ := hl
  refine ⟨hwf hring, ?_, ?_⟩ <;> rw [he]
  · exact htrans
  · exact hsearch

/-- Where a building block writes none of the elements of `Inv`, the invariant before it is the one after it. -/
theorem inv_keptByTasks : KeptByTasks fun s t => Inv s → Inv t where
  refl _ := id
  trans _ _ _ h h' := h' ∘ h
  woken _ _ := id
  queued _ _ _ := id
  cancelled _ := cancelDecode_inv
  begins := by
    rintro s _ ⟨-, _, _, _, rfl | rfl | rfl⟩
    · exact id
    · exact disableTransceiver_inv
    · exact enableReceiver_inv
  move := by
    rintro s t ⟨u, q, hl, ht⟩ h
    have hu : Inv u := inLine_inv hl h
    rcases ht with rfl | rfl | rfl
    · exact hu
    · exact enableTransmitter_inv (s := { u with uartRxQ := q }) hu
    · exact exitPath_inv (s := { u with uartRxQ := q }) hu
  emitted := by
    rintro s _ ⟨_, _, _, _, _, _, _, _, rfl⟩
    exact id
  ended _ _ := id
  commits _ _ := id
  manCommits s := by
    rw [manCommit_eq]
    exact id
  locking _ _ _ := id
  lockFails _ := id
  trails _ := id
  okay s := exitPath_inv (s := emit _ s)
  badByte _ c := raiseUnexpectedByte_inv c
  badSum _ := id
  receiverOn _ := enableReceiver_inv
  transmitterOn _ := enableTransmitter_inv
  transceiverOff _ := disableTransceiver_inv
  searches _ := syncSearch_inv

theorem reset_inv : Inv State.reset := ⟨reset_ring_wf, by decide, by decide⟩

theorem exec_inv {i : Instr} (h : Inv s) (he : exec i s = .next t) : Inv t := by
  by_cases hr : i = .reset
  · subst hr
    cases he
    exact reset_inv
  by_cases ht : ∃ level, i ∈ tickRows level
  · obtain ⟨level, hi⟩ := ht
    rw [exec_tickRows hi] at he
    cases he
    exact tickEvent_inv _ level h
  · exact inv_keptByTasks.exec hr (not_exists.mp ht) he h

/-! ## The resume points (R52 (f)) -/

theorem taskOk_of_sameTasks (hs : SameTasks s t) (h : TaskOk s) : TaskOk t := by
  simp only [TaskOk, hs.runningState, hs.decPhase, hs.cpPhase, hs.ssPhase]
  exact h

theorem decPhase_of_taskOk (h : TaskOk s) (hr : isDecoding s.runningState = false) : s.decPhase = .idle := by
  obtain ⟨hdec, -⟩ := h
  by_contra hne
  simp [hdec hne] at hr

theorem cpPhase_of_taskOk (h : TaskOk s) (hr : s.runningState ≠ .receivingCommand) : s.cpPhase = .entry := by
  obtain ⟨-, -, hcp, -⟩ := h
  by_contra hne
  exact hr (hcp hne)

/-- A command is received with the searcher at its restart: neither searching nor waiting for a decoder (R193, R175). -/
theorem ssPhase_of_taskOk (h : TaskOk s) (hr : s.runningState = .receivingCommand) : s.ssPhase = .restart := by
  obtain ⟨-, -, -, hsearch, hawait⟩ := h
  cases hp : s.ssPhase with
  | restart => rfl
  | search => exact absurd (hr.symm.trans (hsearch hp)) (by decide)
  | awaitDecoder => simp [hr, isDecoding, hp] at hawait

/-- While a decoder runs, the parser is at its entry and the searcher does not search. -/
theorem others_of_decoding (h : TaskOk s) (hr : isDecoding s.runningState = true) :
    s.cpPhase = .entry ∧ s.ssPhase ≠ .search := by
  obtain ⟨-, -, -, hsearch, -⟩ := id h
  refine ⟨cpPhase_of_taskOk h fun x => ?_, fun hp => ?_⟩
  · simp [x, isDecoding] at hr
  · simp [hsearch hp, isDecoding] at hr

/-- With no decoder and no parser under way, what R52 (f) asks of the searcher is all it asks. -/
theorem taskOk_of_idle (hd : s.decPhase = .idle) (hc : s.cpPhase = .entry)
    (hsearch : s.ssPhase = .search → s.runningState = .syncSearch)
    (hawait : s.ssPhase = .awaitDecoder →
      isDecoding s.runningState = true ∨ s.runningState = .decodeDone ∨ s.runningState = .syncSearch) : TaskOk s :=
  ⟨fun x => absurd hd x, fun x => by simp [hd] at x, fun x => absurd hc x, hsearch, hawait⟩

theorem syncSearch_taskOk (h : TaskOk s) (hr : s.runningState = .syncSearch) : TaskOk (syncSearch s) := by
  obtain ⟨hd, hc, hout⟩ := syncSearch_out hr
  have hd' := hd.trans (decPhase_of_taskOk h (by simp [hr, isDecoding]))
  have hc' := hc.trans (cpPhase_of_taskOk h (by simp [hr]))
  rcases hout with ⟨hr', hp⟩ | ⟨-, hp⟩ | ⟨hr', hp⟩
  · exact taskOk_of_idle hd' hc' (fun _ => hr') (by simp [hp])
  · exact taskOk_of_idle hd' hc' (by simp [hp]) (by simp [hp])
  · exact taskOk_of_idle hd' hc' (by simp [hp]) (fun _ => .inl hr')

/-- A decode that ended, with or without a message, leaves the searcher waiting or to restart. -/
theorem taskOk_of_decode_ended (h : TaskOk s) (hr : isDecoding s.runningState = true) (hc : t.cpPhase = s.cpPhase)
    (hp : t.ssPhase = s.ssPhase) (hd : t.decPhase = .idle)
    (ht : t.runningState = .syncSearch ∨ t.runningState = .decodeDone) : TaskOk t := by
  obtain ⟨hentry, hsearch⟩ := others_of_decoding h hr
  exact taskOk_of_idle hd (hc.trans hentry) (fun x => absurd (hp.symm.trans x) hsearch) (fun _ => .inr ht.symm)

/-- A decode that goes on, which only a decoder with a lock-in does in `LockIn` (R245). -/
theorem taskOk_of_decode_goes_on (h : TaskOk s) (hr : isDecoding s.runningState = true) (hc : t.cpPhase = s.cpPhase)
    (hp : t.ssPhase = s.ssPhase) (ht : t.runningState = s.runningState)
    (hl : t.decPhase = .lockIn → s.runningState ≠ .decodeRawPulses) : TaskOk t := by
  obtain ⟨hentry, hsearch⟩ := others_of_decoding h hr
  have hdec : isDecoding t.runningState = true := ht ▸ hr
  exact ⟨fun _ => hdec, fun x => ht ▸ hl x, fun x => absurd (hc.trans hentry) x,
    fun x => absurd (hp.symm.trans x) hsearch, fun _ => .inl hdec⟩

theorem lockDecoder_taskOk (k : LockDecoder) (h : TaskOk s) (hr : s.runningState = k.state) : TaskOk (k.run s) := by
  have hdec : isDecoding s.runningState = true := by rw [hr]; cases k <;> rfl
  have hraw : s.runningState ≠ .decodeRawPulses := by rw [hr]; cases k <;> simp [LockDecoder.state]
  obtain ⟨hc, hp, ⟨ht, -⟩ | ⟨ht, hd⟩ | ⟨ht, hd⟩⟩ := k.run_out s
  · exact taskOk_of_decode_goes_on h hdec hc hp ht (fun _ => hraw)
  · exact taskOk_of_decode_ended h hdec hc hp hd (.inl ht)
  · exact taskOk_of_decode_ended h hdec hc hp hd (.inr ht)

theorem decodePulses_taskOk (h : TaskOk s) (hr : s.runningState = .decodeRawPulses) : TaskOk (decodePulses s) := by
  have hdec : isDecoding s.runningState = true := by rw [hr]; rfl
  obtain ⟨hc, hp, ⟨ht, -, hl⟩ | ⟨ht, hd⟩⟩ := decodePulses_out s
  · obtain ⟨-, hlock, -⟩ := id h
    exact taskOk_of_decode_goes_on h hdec hc hp ht (fun x => hlock (hl x))
  · exact taskOk_of_decode_ended h hdec hc hp hd (.inr ht)

theorem trailer_taskOk (h : TaskOk s) (hr : s.runningState = .decodeDone) : TaskOk (trailer s) := by
  have hd : s.decPhase = .idle := decPhase_of_taskOk h (by simp [hr, isDecoding])
  have hc : s.cpPhase = .entry := cpPhase_of_taskOk h (by simp [hr])
  exact taskOk_of_idle (s := trailer s) hd hc (fun _ => rfl) (fun _ => .inr (.inr rfl))

theorem receiveCommand_taskOk (h : TaskOk s) (hr : s.runningState = .receivingCommand) :
    TaskOk (receiveCommand s) := by
  obtain ⟨hd, hout⟩ := receiveCommand_out hr
  have hd' := hd.trans (decPhase_of_taskOk h (by simp [hr, isDecoding]))
  rcases hout with ⟨hr', hp⟩ | ⟨-, hc, hp⟩
  · have hp' := hp.trans (ssPhase_of_taskOk h hr)
    exact ⟨fun x => absurd hd' x, fun x => by simp [hd'] at x, fun _ => hr', by simp [hp'], by simp [hp']⟩
  · exact taskOk_of_idle hd' hc (by simp [hp]) (by simp [hp])

theorem runTask_taskOk (h : TaskOk s) : TaskOk (runTask s) := by
  unfold runTask
  split
  case h_1 hr => exact syncSearch_taskOk h hr
  case h_2 hr => exact lockDecoder_taskOk .ask h hr
  case h_3 hr => exact lockDecoder_taskOk .ook h hr
  case h_4 hr => exact lockDecoder_taskOk .man h hr
  case h_5 hr => exact decodePulses_taskOk h hr
  case h_6 hr => exact trailer_taskOk h hr
  case h_7 hr => exact receiveCommand_taskOk h hr

/-- A cancellation leaves the parser, at its entry, as the one task (R175). -/
theorem cancelDecode_taskOk (s : State) : TaskOk (cancelDecode s) := by
  simp [TaskOk, cancelDecode]

theorem dispatchEvent_taskOk (h : TaskOk s) : TaskOk (dispatchEvent s) := by
  unfold dispatchEvent dispatchTask
  split
  · split
    · exact runTask_taskOk (cancelDecode_taskOk _)
    · exact runTask_taskOk (s := { s with wake := false }) h
  · exact h

theorem reset_taskOk : TaskOk State.reset := by decide

/-! ## The timer's elements (R24, R25, R29, R31) -/

/-- The transmitter pin, the driver's locals, the tick count and the sampler's last level. -/
def timerElements (s : State) : (Bool × Bool × Byte × Byte) × BitVec 16 × Bool :=
  ((s.txPin, s.txBit, s.txRemLow, s.txRemHigh), s.tickcount, s.prevLevel)

theorem timerElements_eq_iff :
    timerElements t = timerElements s ↔
      t.txPin = s.txPin ∧ t.txBit = s.txBit ∧ t.txRemLow = s.txRemLow ∧ t.txRemHigh = s.txRemHigh ∧
      t.tickcount = s.tickcount ∧ t.prevLevel = s.prevLevel := by
  simp only [timerElements, Prod.mk.injEq, and_assoc]

theorem raiseUnexpectedByte_timerElements (c : Byte) (s : State) :
    timerElements (raiseUnexpectedByte c s) = timerElements s := by
  rcases raiseUnexpectedByte_ways c s with he | he <;> rw [he] <;> rfl

theorem timerElements_keptByTasks : KeptByTasks fun s t => timerElements t = timerElements s where
  refl _ := rfl
  trans _ _ _ h h' := h'.trans h
  woken _ _ := rfl
  queued _ _ _ := rfl
  cancelled _ := rfl
  begins := by
    rintro s _ ⟨-, _, _, _, rfl | rfl | rfl⟩ <;> rfl
  move := by
    rintro s t ⟨u, q, ⟨hl, -⟩, ht⟩
    have hu : timerElements u = timerElements s := (congrArg timerElements hl).trans rfl
    rcases ht with rfl | rfl | rfl <;> exact hu
  emitted := by
    rintro s _ ⟨_, _, _, _, _, _, _, _, rfl⟩
    rfl
  ended _ _ := rfl
  commits _ _ := rfl
  manCommits s := by
    rw [manCommit_eq]
    rfl
  locking _ _ _ := rfl
  lockFails _ := rfl
  trails _ := rfl
  okay _ := rfl
  badByte s c := raiseUnexpectedByte_timerElements c s
  badSum _ := rfl
  receiverOn _ := rfl
  transmitterOn _ := rfl
  transceiverOff _ := rfl
  searches s := (congrArg timerElements (syncSearch_searched s)).trans rfl

/-! ## The output stream (R49, R250) -/

theorem raiseUnexpectedByte_uartTx (c : Byte) (s : State) : s.uartTx <+: (raiseUnexpectedByte c s).uartTx := by
  rcases raiseUnexpectedByte_ways c s with he | he <;> rw [he] <;> exact List.prefix_append _ _

theorem output_keptByTasks : KeptByTasks fun s t => s.uartTx <+: t.uartTx where
  refl _ := List.prefix_rfl
  trans _ _ _ := List.IsPrefix.trans
  woken _ _ := List.prefix_rfl
  queued _ _ _ := List.prefix_rfl
  cancelled _ := List.prefix_rfl
  begins := by
    rintro s _ ⟨-, _, _, _, rfl | rfl | rfl⟩ <;> exact List.prefix_rfl
  move := by
    rintro s _ ⟨u, q, ⟨-, hout, -⟩, rfl | rfl | rfl⟩ <;> exact hout
  emitted := by
    rintro s _ ⟨_, _, _, _, _, _, _, _, rfl⟩
    exact List.prefix_append _ _
  ended _ _ := List.prefix_rfl
  commits _ _ := List.prefix_append _ _
  manCommits _ := List.prefix_append _ _
  locking _ _ _ := List.prefix_rfl
  lockFails _ := List.prefix_rfl
  trails _ := List.prefix_append _ _
  okay _ := List.prefix_append _ _
  badByte s c := raiseUnexpectedByte_uartTx c s
  badSum _ := List.prefix_append _ _
  receiverOn _ := List.prefix_rfl
  transmitterOn _ := List.prefix_rfl
  transceiverOff _ := List.prefix_rfl
  searches s := by
    rw [syncSearch_searched s]

theorem exec_uartTx_of_tick {i : Instr} {level : Bool} (hi : i ∈ tickRows level) (he : exec i s = .next t) :
    t.uartTx = s.uartTx := by
  rw [exec_tickRows hi] at he
  cases he
  exact (tickEvent_sameTasks _ level s).uartTx

theorem exec_uartTx_of_uartRx {b : Byte} (he : exec (.uartRx b) s = .next t) : t.uartTx = s.uartTx := by
  cases he
  exact (uartRxEvent_sameTasks _ _ b s).uartTx

end Sys2Proof.Proofs.Invariants

namespace Sys2Proof.Proofs
open Sys2Proof Sys2Proof.Machine Sys2Proof.Proofs.Scope Sys2Proof.Proofs.Invariants

/-- Settles O5: no line is in progress at reset, so the checksum law asks nothing of it. -/
theorem resetMeetsInvariants : Obligations.ResetMeetsInvariants := by
  have not_fresh : ¬LineFresh State.reset := by decide
  have not_open : ¬LineOpen State.reset := by decide
  exact ⟨reset_inv, reset_taskOk, fun h => absurd h not_fresh, fun h => absurd h not_open⟩

/-- Settles O6: taking a word off the script touches nothing of `Inv`, and every operation keeps it. -/
theorem stepKeepsInvariant : Obligations.StepKeepsInvariant := by
  intro s t h hstep
  cases hs : s.script with
  | nil =>
    rw [step_of_fetch_none (fetch_of_script_nil hs)] at hstep
    cases hstep
    exact h
  | cons w rest =>
    have hf := fetch_of_script_cons hs
    cases hd : decode w with
    | ok i =>
      rw [step_of_decode_ok hf hd] at hstep
      exact exec_inv (s := { s with script := rest }) h hstep
    | error r =>
      rw [step_of_decode_error hf hd] at hstep
      cases hstep

/-- Settles O7: RESET starts all tasks over, TICK and UART_RX touch none, and a DISPATCH runs the one that `running_state`
names, whose ways out all meet R52 (f). -/
theorem eventsKeepTaskDiscipline : Obligations.EventsKeepTaskDiscipline := by
  intro i s t hi h he
  have tick : ∀ {level}, i ∈ tickRows level → TaskOk t := by
    intro level hl
    rw [exec_tickRows hl] at he
    cases he
    exact taskOk_of_sameTasks (tickEvent_sameTasks _ level s) h
  cases i with
  | reset =>
    cases he
    exact reset_taskOk
  | tickSampler level => exact tick (level := level) (by simp [tickRows])
  | tickTxdriver level => exact tick (level := level) (by simp [tickRows])
  | tickUnarmed level => exact tick (level := level) (by simp [tickRows])
  | uartRx b =>
    cases he
    exact taskOk_of_sameTasks (uartRxEvent_sameTasks _ _ b s) h
  | dispatch =>
    cases he
    exact dispatchEvent_taskOk h
  | _ => cases hi

/-- Settles O9: no building block of a task writes an element of the timer. -/
theorem onlyTicksTouchTimerState : Obligations.OnlyTicksTouchTimerState := by
  intro i s t hr ht he
  exact timerElements_eq_iff.mp (timerElements_keptByTasks.exec hr ht he)

/-- Settles O10: a task only appends to the output, and TICK and UART_RX leave it as it is. -/
theorem outputOnlyGrows : Obligations.OutputOnlyGrows := by
  intro i s t hr he
  refine ⟨?grows, ?silent⟩
  case grows =>
    by_cases ht : ∃ level, i ∈ tickRows level
    · obtain ⟨level, hi⟩ := ht
      exact (exec_uartTx_of_tick hi he).symm ▸ List.prefix_rfl
    · exact output_keptByTasks.exec hr (not_exists.mp ht) he
  case silent =>
    rintro (⟨level, hi⟩ | ⟨b, rfl⟩)
    · exact exec_uartTx_of_tick hi he
    · exact exec_uartTx_of_uartRx he

end Sys2Proof.Proofs
end

section
/-! PROOF. The open slot is never read (20_memory.md R78, R80): exchanging the ring for one that agrees with it outside the slot
`current` passes through every step of the searcher and of the decoders. Each loop compares its cursor with `current` before it
reads, and nothing else in a reader touches the ring. -/

namespace Sys2Proof.Proofs.OpenSlot
open Sys2Proof Sys2Proof.Machine

variable {m : Memory} {s t : State}

/-! ## Exchanging the ring -/

/-- `s` with another ring. -/
def withRing (m : Memory) (s : State) : State := { s with ring := m }

/-- The memory `m` and the ring of `s` agree outside the slot the sampler is filling. -/
def AgreesOffOpen (m : Memory) (s : State) : Prop :=
  ∀ j c, j ≠ s.current → Memory.read m (ringAddr j c) = ringRead s j c

/-- What a step does does not depend on the ring at all, and it leaves the ring alone. -/
def RingBlind (f : State → State) : Prop := ∀ m s, f (withRing m s) = withRing m (f s)

/-- What a step does does not depend on the open slot, and it leaves the ring alone. -/
def OpenSlotBlind (f : State → State) : Prop := ∀ m s, AgreesOffOpen m s → f (withRing m s) = withRing m (f s)

/-- A closed slot reads the same in both rings. -/
theorem AgreesOffOpen.ringRead_eq (h : AgreesOffOpen m s) {j : Byte} (hj : j ≠ s.current) (c : Bool) :
    ringRead (withRing m s) j c = ringRead s j c :=
  h j c hj

theorem AgreesOffOpen.of_emitted (h : AgreesOffOpen m s) (he : Emitted s t) : AgreesOffOpen m t := by
  obtain ⟨_, _, _, _, _, _, _, _, rfl⟩ := he
  exact h

theorem AgreesOffOpen.of_examined (h : AgreesOffOpen m s) : AgreesOffOpen m (ssExamine s) := by
  obtain ⟨_, _, _, _, _, he⟩ := ssExamine_frame s
  rw [he]
  exact h

/-- Steps that pass the exchange on, behind a test that comes out alike. -/
theorem ite_eq_withRing {p : Prop} [Decidable p] {a b : State} (ha : p → s = withRing m a)
    (hb : ¬p → t = withRing m b) : (if p then s else t) = withRing m (if p then a else b) := by
  split
  case isTrue hp => exact ha hp
  case isFalse hp => exact hb hp

theorem RingBlind.comp {f g : State → State} (hg : RingBlind g) (hf : RingBlind f) : RingBlind fun s => g (f s) :=
  fun m s => (congrArg g (hf m s)).trans (hg m (f s))

/-! ## What touches no ring: the emitter, the commits, the decoders' locals -/

theorem stuffBit_ringBlind (b : Bool) : RingBlind (stuffBit b) := by
  intro m s
  unfold stuffBit
  exact ite_eq_withRing (fun _ => rfl) fun _ => rfl

theorem stuffIf_ringBlind (p : Prop) [Decidable p] (b : Bool) : RingBlind fun s => if p then stuffBit b s else s :=
  fun m s => ite_eq_withRing (fun _ => stuffBit_ringBlind b m s) fun _ => rfl

theorem flushPartial_ringBlind : RingBlind flushPartial := by
  intro m s
  unfold flushPartial
  exact ite_eq_withRing (fun _ => rfl) fun _ => rfl

theorem finishBits_ringBlind : RingBlind finishBits :=
  fun m s => congrArg (decoderEnd (inc8 s.decPi)) (flushPartial_ringBlind m s)

theorem commitOf_ringBlind (k : LockDecoder) : RingBlind k.commitOf := by
  cases k <;> exact fun _ _ => rfl

theorem ookPulse_ringBlind (p0 p1 : Byte) : RingBlind (ookPulse p0 p1) := fun m s =>
  ((stuffIf_ringBlind (ookNear s.syncDuration p1.toNat s.syncDuration.toNat) true).comp
    (stuffIf_ringBlind (ookNear s.syncDuration p0.toNat s.syncDuration.toNat) false)) m s

theorem catchUp_ringBlind : RingBlind catchUp := by
  intro m s
  unfold catchUp
  refine ite_eq_withRing (fun _ => ?bit) fun _ => rfl
  exact congrArg stuffAdvance (stuffIf_ringBlind (s.stuffClock.toNat % 2 = 1) s.mBit m s)

theorem manLatch_ringBlind (h : Byte) : RingBlind (manLatch h) := by
  intro m s
  unfold manLatch
  exact ite_eq_withRing (fun _ => rfl) fun _ => rfl

theorem manFlip_ringBlind : RingBlind manFlip := by
  intro m s
  unfold manFlip
  exact ite_eq_withRing (fun _ => rfl) fun _ => rfl

/-! ## The searcher (R202) -/

theorem ssExamine_withRing (h : AgreesOffOpen m s) (hp : s.ssPi ≠ s.current) :
    ssExamine (withRing m s) = withRing m (ssExamine s) := by
  have hpulse : ssPulse (withRing m s) = ssPulse s :=
    congrArg₂ (fun p0 p1 : Byte => normalize p0.toNat p1.toNat s.syncDuration.toNat)
      (h.ringRead_eq hp false) (h.ringRead_eq hp true)
  have advance : RingBlind ssAdvance := fun _ _ => rfl
  simp only [ssExamine, hpulse, ← advance m]
  congr 1
  exact ite_eq_withRing (fun _ => rfl) fun _ => rfl

theorem ssLoop_openSlotBlind (n : Nat) : OpenSlotBlind (ssLoop n) := by
  intro m s h
  induction n generalizing s with
  | zero =>
    unfold ssLoop
    exact ite_eq_withRing (fun _ => rfl) fun _ => ite_eq_withRing (fun _ => rfl) fun _ => rfl
  | succ n ih =>
    unfold ssLoop
    refine ite_eq_withRing (fun _ => rfl) fun _ => ite_eq_withRing (fun _ => rfl) fun hp => ?_
    rw [ssExamine_withRing h hp]
    exact ite_eq_withRing (fun _ => rfl) fun _ => ih _ h.of_examined

theorem syncSearch_openSlotBlind : OpenSlotBlind syncSearch := by
  intro m s h
  have restarted : ssLoop Config.ringSlots (ssRestart (withRing m s)) =
      withRing m (ssLoop Config.ringSlots (ssRestart s)) :=
    ssLoop_openSlotBlind _ m (ssRestart s) h
  cases hp : s.ssPhase with
  | restart =>
    rw [syncSearch_restart (.inl hp)]
    exact (syncSearch_restart (s := withRing m s) (.inl hp)).trans restarted
  | search =>
    rw [syncSearch_search hp]
    exact (syncSearch_search (s := withRing m s) hp).trans (ssLoop_openSlotBlind _ m s h)
  | awaitDecoder =>
    cases hr : retryDue s with
    | true =>
      rw [syncSearch_retry hp hr]
      exact syncSearch_retry (s := withRing m s) hp hr
    | false =>
      rw [syncSearch_restart (.inr ⟨hp, hr⟩)]
      exact (syncSearch_restart (s := withRing m s) (.inr ⟨hp, hr⟩)).trans restarted

/-! ## The decoders' emission loops (R214, R224, R235, R246) -/

theorem pulseLoop_openSlotBlind {body : Byte → Byte → State → State} {finish : State → State}
    (hb : ∀ p0 p1, RingBlind (body p0 p1)) (he : ∀ p0 p1 u, Emitted u (body p0 p1 u)) (hf : RingBlind finish)
    (n : Nat) : OpenSlotBlind (pulseLoop body finish n) := by
  intro m s h
  induction n generalizing s with
  | zero =>
    unfold pulseLoop
    refine ite_eq_withRing (fun _ => rfl) fun hp => ?_
    rw [show ringRead (withRing m s) (withRing m s).decPi false = _ from h.ringRead_eq hp false]
    exact ite_eq_withRing (fun _ => hf m s) fun _ => rfl
  | succ n ih =>
    unfold pulseLoop
    refine ite_eq_withRing (fun _ => rfl) fun hp => ?_
    have hread : ∀ c, ringRead (withRing m s) (withRing m s).decPi c = ringRead s s.decPi c := h.ringRead_eq hp
    simp only [hread, hb _ _ m s]
    refine ite_eq_withRing (fun _ => hf m s) fun _ => ?_
    exact ih _ (h.of_emitted ((he _ _ s).trans (decAdvance_emitted _)))

theorem manHalf_withRing (h : AgreesOffOpen m s) (hp : s.decPi ≠ s.current) :
    manHalf (withRing m s) = withRing m (manHalf s) := by
  have hread : ringRead (withRing m s) (withRing m s).decPi (withRing m s).mPhase = ringRead s s.decPi s.mPhase :=
    h.ringRead_eq hp s.mPhase
  unfold manHalf
  simp only [hread]
  exact (manFlip_ringBlind.comp (catchUp_ringBlind.comp ((manLatch_ringBlind _).comp catchUp_ringBlind))) m s

theorem manLoop_openSlotBlind (n : Nat) : OpenSlotBlind (manLoop n) := by
  intro m s h
  induction n generalizing s with
  | zero =>
    unfold manLoop
    refine ite_eq_withRing (fun _ => congrArg (decoderEnd s.decPi) (flushPartial_ringBlind m s)) fun _ =>
      ite_eq_withRing (fun _ => rfl) fun hp => ?_
    rw [show ringRead (withRing m s) (withRing m s).decPi false = _ from h.ringRead_eq hp false]
    exact ite_eq_withRing (fun _ => finishBits_ringBlind m s) fun _ => rfl
  | succ n ih =>
    unfold manLoop
    refine ite_eq_withRing (fun _ => congrArg (decoderEnd s.decPi) (flushPartial_ringBlind m s)) fun _ =>
      ite_eq_withRing (fun _ => rfl) fun hp => ?_
    rw [show ringRead (withRing m s) (withRing m s).decPi false = _ from h.ringRead_eq hp false, manHalf_withRing h hp]
    exact ite_eq_withRing (fun _ => finishBits_ringBlind m s) fun _ => ih _ (h.of_emitted (manHalf_emitted s))

theorem emission_openSlotBlind (k : LockDecoder) : OpenSlotBlind k.emission := by
  cases k with
  | ask => exact pulseLoop_openSlotBlind (fun _ _ => stuffBit_ringBlind _) askPulse_emitted finishBits_ringBlind _
  | ook => exact pulseLoop_openSlotBlind ookPulse_ringBlind ookPulse_emitted finishBits_ringBlind _
  | man => exact manLoop_openSlotBlind _

/-! ## A run of a decoder (R216, R226, R239, R248) -/

/-- The lock-in loop and what the decoder makes of its end. -/
theorem lockLoop_openSlotBlind (k : LockDecoder) (valid : Byte → Byte → Bool) (n : Nat) :
    OpenSlotBlind fun s => k.after (lockLoop valid n s) := by
  intro m s h
  induction n generalizing s with
  | zero =>
    have hc : AgreesOffOpen m (k.commitOf s) := by cases k <;> exact h
    exact (congrArg k.emission (commitOf_ringBlind k m s)).trans (emission_openSlotBlind k m _ hc)
  | succ n ih =>
    simp only [lockLoop, apply_ite k.after]
    refine ite_eq_withRing (fun _ => rfl) fun hp => ?_
    have hread : ∀ c, ringRead (withRing m s) (withRing m s).decPi c = ringRead s s.decPi c := h.ringRead_eq hp
    simp only [hread]
    exact ite_eq_withRing (fun _ => ih { s with decN := s.decN + 1, decPi := inc8 s.decPi } h) fun _ => rfl

theorem run_openSlotBlind (k : LockDecoder) : OpenSlotBlind k.run := by
  have locking : ∀ {m s}, s.decPhase = .lockIn → AgreesOffOpen m s → k.run (withRing m s) = withRing m (k.run s) := by
    intro m s hl h
    rw [k.run_lockIn hl]
    exact (k.run_lockIn (s := withRing m s) hl).trans (lockLoop_openSlotBlind k _ _ m s h)
  intro m s h
  cases hd : s.decPhase with
  | idle =>
    rw [k.run_idle hd]
    exact (k.run_idle (s := withRing m s) hd).trans
      (locking (s := { s with decPi := s.msgStart, decN := 0, decPhase := .lockIn }) rfl h)
  | lockIn => exact locking hd h
  | emit =>
    rw [k.run_emit hd]
    exact (k.run_emit (s := withRing m s) hd).trans (emission_openSlotBlind k m s h)

theorem decodePulses_openSlotBlind : OpenSlotBlind decodePulses := by
  have dump := pulseLoop_openSlotBlind (body := rawPulse) (finish := finishRaw) (fun _ _ _ _ => rfl) rawPulse_emitted
    (fun _ _ => rfl) Config.ringSlots
  intro m s h
  unfold decodePulses
  by_cases hi : s.decPhase = .idle
  · rw [if_pos hi, if_pos (show (withRing m s).decPhase = .idle from hi)]
    exact dump m (commit .p s) h
  · rw [if_neg hi, if_neg (show ¬(withRing m s).decPhase = .idle from hi)]
    exact dump m s h

/-! ## The operations of the readers -/

/-- A dispatch target whose task is blind to the open slot (R78). -/
theorem taskStep_openSlotBlind {task : State → State} (ht : OpenSlotBlind task) (r : RunningState) :
    OpenSlotBlind (taskStep r task) :=
  fun m s h => ite_eq_withRing (fun _ => ht m s h) fun _ => rfl

/-- Every reader is a step that is blind to the open slot. -/
theorem exec_reader {i : Instr} (hi : i ∈ readers) :
    ∃ f, OpenSlotBlind f ∧ ∀ s, exec i s = .next (f s) := by
  simp only [readers, List.mem_cons, List.not_mem_nil, or_false] at hi
  rcases hi with rfl | rfl | rfl | rfl | rfl
  · exact ⟨_, taskStep_openSlotBlind syncSearch_openSlotBlind .syncSearch, fun _ => rfl⟩
  · exact ⟨_, taskStep_openSlotBlind (run_openSlotBlind .ask) .decodingAsk, fun _ => rfl⟩
  · exact ⟨_, taskStep_openSlotBlind (run_openSlotBlind .ook) .decodingOok, fun _ => rfl⟩
  · exact ⟨_, taskStep_openSlotBlind (run_openSlotBlind .man) .decodingManchester, fun _ => rfl⟩
  · exact ⟨_, taskStep_openSlotBlind decodePulses_openSlotBlind .decodeRawPulses, fun _ => rfl⟩

end Sys2Proof.Proofs.OpenSlot

namespace Sys2Proof.Proofs
open Sys2Proof Sys2Proof.Machine Sys2Proof.Proofs.OpenSlot

/-- Settles O11: a reader's step is blind to the open slot, since its loops test `pi = current` before they read. -/
theorem openSlotIsNeverRead : Obligations.OpenSlotIsNeverRead := by
  intro i s m hi hagree
  obtain ⟨f, hblind, hexec⟩ := exec_reader hi
  exact ⟨f s, hexec s, (hexec _).trans (congrArg Host.Outcome.next (hblind m s hagree))⟩

end Sys2Proof.Proofs
end

section
/-! PROOF. Words and operations (30_encoding.md R102 to R119): the decoder reads back what the encoder writes, and what it reads
was written by the encoder. Each of the three kinds of word has its own decoder, so the facts come in three groups. -/

namespace Sys2Proof.Proofs.Encoding
open Sys2Proof Sys2Proof.Machine

/-! ## Patterns of bits, read back (R119, R175) -/

theorem decodeCode_uartRx (b : Byte) : decodeCode false 12 (0b0010 * 256 + b.toNat) = .ok (.uartRx b) := by
  have hb := b.isLt
  have hu : isUartWord 12 (0b0010 * 256 + b.toNat) = true := decide_eq_true ⟨rfl, by omega⟩
  have hv : BitVec.ofNat 8 ((0b0010 * 256 + b.toNat) % 256) = b := by
    apply BitVec.eq_of_toNat_eq
    rw [BitVec.toNat_ofNat]
    omega
  unfold decodeCode
  rw [Bool.false_and, if_neg Bool.false_ne_true, if_pos hu, hv]

/-- A queued byte beside the pattern of a decoding task makes it the task's cancellation. -/
theorem decodeCode_dispatchCancel {sss : BitVec 3} (h : (Instr.dispatchCancel sss).wellFormed = true) :
    decodeCode true 7 (0b0011 * 8 + sss.toNat) = .ok (.dispatchCancel sss) := by
  obtain ⟨hlo, hhi⟩ := of_decide_eq_true h
  have hc : isCancelWord 7 (0b0011 * 8 + sss.toNat) = true := decide_eq_true ⟨rfl, by omega, by omega, by omega⟩
  have hv : BitVec.ofNat 3 ((0b0011 * 8 + sss.toNat) % 8) = sss := by
    apply BitVec.eq_of_toNat_eq
    rw [BitVec.toNat_ofNat]
    omega
  unfold decodeCode
  rw [Bool.true_and, if_pos hc, hv]

/-! ## Inbound bytes, read back (R110 to R113) -/

theorem decodeRx_payload (t : MType) {pairs : List DigitPair} (h : pairsAreHex pairs = true) :
    decodeRx t (chColon :: pairBytes pairs) = .ok (payloadOf t pairs) := by
  unfold decodeRx
  dsimp only
  rw [if_pos rfl, parsePairs_pairBytes h]

/-- Three bytes that neither `':'` nor a keyword begins are an argument token. -/
theorem decodeRx_three (t : MType) {k : Byte} (hk : k ≠ chColon) (h l : Byte) :
    decodeRx t [k, h, l] = decodeArg k h l := by
  unfold decodeRx
  dsimp only
  rw [if_neg hk, if_neg (by simp [pulseBytes]), if_neg (by simp [demodBytes]), if_neg (by simp [stackBytes])]

theorem decodeRx_unexpected (t : MType) {c : Byte} (h : (Instr.unexpected c).wellFormed = true) :
    decodeRx t [c] = .ok (.unexpected c) := by
  obtain ⟨hnl, hcolon⟩ := of_decide_eq_true h
  unfold decodeRx
  dsimp only
  rw [if_neg hcolon, if_neg (by simp [pulseBytes]), if_neg (by simp [demodBytes]), if_neg (by simp [stackBytes])]
  exact if_neg hnl

/-! ## Outbound records, read back (R104 to R107) -/

theorem decodeTx_outByte (v : Byte) : decodeTx (hex2 v) = .ok (.outByte v) := by
  unfold decodeTx hex2
  simp only [pairValueUpper_hex2]

/-- The digits of a dumped pulse are not `*OK\n`: no digit is a star. -/
theorem decodeTx_outPulse (p1 p0 : Byte) : decodeTx (hex2 p1 ++ hex2 p0) = .ok (.outPulse p1 p0) := by
  have hstar := (hexdigit_ne (BitVec.ofNat 4 (p1.toNat / 16))).1
  change decodeTx4 _ _ _ _ = _
  unfold decodeTx4
  rw [if_neg (fun h => hstar (List.cons.inj h).1), pairValueUpper_hex2, pairValueUpper_hex2]

theorem decodeTx_outTrailer (n d c : Byte) : decodeTx (trailerString n d c) = .ok (.outTrailer n d c) := by
  change decodeTrailer _ _ _ _ _ _ _ _ _ _ = _
  unfold decodeTrailer
  rw [if_pos ⟨rfl, rfl, rfl, rfl⟩, pairValueUpper_hex2, pairValueUpper_hex2, pairValueUpper_hex2]

theorem decodeTx_outErrbyte {c : Byte} (h : (Instr.outErrbyte c).wellFormed = true) :
    decodeTx [chBang, c, chNl] = .ok (.outErrbyte c) :=
  if_neg (of_decide_eq_true h)

/-! ## What each decoder reads -/

/-- `i` is an operation whose operands its row admits and whose text is that of the word `w`. -/
def SpelledBy (w : OpWord) (i : Instr) : Prop := i.wellFormed = true ∧ wordText (encode i) = wordText w

/-- A decoder's test for one operation: what it answers was spelled, in either branch. -/
theorem spelledBy_of_ite {p : Prop} [Decidable p] {w : OpWord} {i j : Instr} {rest : Except Reject Instr}
    (h : (if p then .ok j else rest) = .ok i) (hj : p → SpelledBy w j) (hrest : rest = .ok i → SpelledBy w i) :
    SpelledBy w i := by
  split at h
  · next hp =>
    cases h
    exact hj hp
  · exact hrest h

/-- Every row of the table of patterns is the word of its operation. -/
theorem codeTable_spelled :
    ∀ row ∈ codeTable, row.2.2.wellFormed = true ∧ wordText (encode row.2.2) = ((row.1, row.2.1), [], false) := by
  decide

theorem decodeCode_spelled {pending : Bool} {len bits : Nat} {i : Instr} (h : decodeCode pending len bits = .ok i) :
    SpelledBy (.code pending len bits) i := by
  unfold decodeCode at h
  split at h
  · next hc =>
    obtain ⟨rfl, hhi, hlo, hle⟩ := of_decide_eq_true (Bool.and_eq_true_iff.mp hc).2
    cases h
    have hv : (BitVec.ofNat 3 (bits % 8)).toNat = bits % 8 := by
      rw [BitVec.toNat_ofNat]
      omega
    have hbits : 0b0011 * 8 + bits % 8 = bits := by omega
    refine ⟨decide_eq_true ?_, ?_⟩
    · rw [hv]
      exact ⟨hlo, hle⟩
    · simp only [encode, wordText, hv, hbits]
  split at h
  · next hu =>
    obtain ⟨rfl, hhi⟩ := of_decide_eq_true hu
    cases h
    have hbits : 0b0010 * 256 + (BitVec.ofNat 8 (bits % 256)).toNat = bits := by
      rw [BitVec.toNat_ofNat]
      omega
    refine ⟨rfl, ?_⟩
    simp only [encode, wordText, hbits]
  · split at h
    · next hl =>
      cases h
      exact codeTable_spelled _ (lookupCode_mem hl)
    · cases h

theorem payloadOf_spelled (t : MType) {bytes : List Byte} {pairs : List DigitPair}
    (h : parsePairs bytes = some pairs) : SpelledBy (.rx t (chColon :: bytes)) (payloadOf t pairs) := by
  obtain ⟨rfl, hhex⟩ := pairBytes_of_parsePairs h
  cases t <;> exact ⟨hhex, rfl⟩

theorem decodeArg_spelled {t : MType} {k h l : Byte} {i : Instr} (hd : decodeArg k h l = .ok i) :
    SpelledBy (.rx t [k, h, l]) i := by
  unfold decodeArg at hd
  refine spelledBy_of_ite hd (fun hk => ⟨rfl, by rw [hk]; rfl⟩) fun hd => ?_
  refine spelledBy_of_ite hd (fun hk => ⟨rfl, by rw [hk]; rfl⟩) fun hd => ?_
  refine spelledBy_of_ite hd (fun hk => ⟨rfl, by rw [hk]; rfl⟩) fun hd => ?_
  cases hd

theorem decodeRx_spelled {t : MType} {bytes : List Byte} {i : Instr} (h : decodeRx t bytes = .ok i) :
    SpelledBy (.rx t bytes) i := by
  unfold decodeRx at h
  split at h
  case h_1 => cases h
  case h_2 c rest =>
    split at h
    case isTrue hc =>
      subst hc
      split at h
      case h_1 hp =>
        cases h
        exact payloadOf_spelled t hp
      case h_2 => cases h
    case isFalse hcolon =>
      refine spelledBy_of_ite h (fun hb => ⟨rfl, by rw [hb]; rfl⟩) fun h => ?_
      refine spelledBy_of_ite h (fun hb => ⟨rfl, by rw [hb]; rfl⟩) fun h => ?_
      refine spelledBy_of_ite h (fun hb => ⟨rfl, by rw [hb]; rfl⟩) fun h => ?_
      split at h
      case h_1 =>
        split at h
        · next hnl =>
          cases h
          exact ⟨rfl, by rw [hnl]; rfl⟩
        · next hnl =>
          cases h
          exact ⟨decide_eq_true ⟨hnl, hcolon⟩, rfl⟩
      case h_2 =>
        refine spelledBy_of_ite h (fun ⟨hm, hx⟩ => ⟨rfl, by rw [hm, hx]; rfl⟩) fun h => ?_
        refine spelledBy_of_ite h (fun ⟨hm, hx⟩ => ⟨rfl, by rw [hm, hx]; rfl⟩) fun h => ?_
        refine spelledBy_of_ite h (fun ⟨hm, hx⟩ => ⟨rfl, by rw [hm, hx]; rfl⟩) fun h => ?_
        cases h
      case h_3 => exact decodeArg_spelled h
      case h_4 => cases h

theorem decodeTx3_spelled {b0 b1 b2 : Byte} {i : Instr} (h : decodeTx3 b0 b1 b2 = .ok i) :
    SpelledBy (.tx [b0, b1, b2]) i := by
  unfold decodeTx3 at h
  split at h
  case isTrue hheader =>
    obtain ⟨rfl, rfl⟩ := hheader
    refine spelledBy_of_ite h (fun hb => ⟨rfl, by rw [hb]; rfl⟩) fun h => ?_
    refine spelledBy_of_ite h (fun hb => ⟨rfl, by rw [hb]; rfl⟩) fun h => ?_
    refine spelledBy_of_ite h (fun hb => ⟨rfl, by rw [hb]; rfl⟩) fun h => ?_
    refine spelledBy_of_ite h (fun hb => ⟨rfl, by rw [hb]; rfl⟩) fun h => ?_
    cases h
  case isFalse =>
    split at h
    case isTrue hresponse =>
      obtain ⟨rfl, rfl⟩ := hresponse
      split at h
      · next hb =>
        cases h
        exact ⟨rfl, by rw [hb]; rfl⟩
      · next hb =>
        cases h
        exact ⟨decide_eq_true hb, rfl⟩
    case isFalse => cases h

theorem decodeTx4_spelled {b0 b1 b2 b3 : Byte} {i : Instr} (h : decodeTx4 b0 b1 b2 b3 = .ok i) :
    SpelledBy (.tx [b0, b1, b2, b3]) i := by
  unfold decodeTx4 at h
  split at h
  · next hb =>
    cases h
    exact ⟨rfl, by rw [hb]; rfl⟩
  · split at h
    · next p1 p0 h1 h0 =>
      cases h
      refine ⟨rfl, ?_⟩
      simp only [encode, wordText, hex2_of_pairValueUpper h1, hex2_of_pairValueUpper h0, List.cons_append, List.nil_append]
    · cases h

theorem decodeTrailer_spelled {b0 n1 n0 b3 d1 d0 b6 c1 c0 b9 : Byte} {i : Instr}
    (h : decodeTrailer b0 n1 n0 b3 d1 d0 b6 c1 c0 b9 = .ok i) :
    SpelledBy (.tx [b0, n1, n0, b3, d1, d0, b6, c1, c0, b9]) i := by
  unfold decodeTrailer at h
  split at h
  · next hm =>
    obtain ⟨rfl, rfl, rfl, rfl⟩ := hm
    split at h
    · next hn hd hc =>
      cases h
      refine ⟨rfl, ?_⟩
      simp only [encode, wordText, hex2_of_pairValueUpper hn, hex2_of_pairValueUpper hd, hex2_of_pairValueUpper hc,
        List.cons_append, List.nil_append]
    · cases h
  · cases h

theorem decodeTx_spelled {bytes : List Byte} {i : Instr} (h : decodeTx bytes = .ok i) : SpelledBy (.tx bytes) i := by
  unfold decodeTx at h
  split at h
  · split at h
    · next hv =>
      cases h
      refine ⟨rfl, ?_⟩
      simp only [encode, wordText, hex2_of_pairValueUpper hv]
    · cases h
  · exact decodeTx3_spelled h
  · exact decodeTx4_spelled h
  · exact decodeTrailer_spelled h
  · cases h

end Sys2Proof.Proofs.Encoding

namespace Sys2Proof.Proofs
open Sys2Proof Sys2Proof.Machine Sys2Proof.Proofs.Encoding

/-- Settles O2: the rows with operands by the lemma of their word, the rows without by evaluating both functions. -/
theorem decodeEncodeRoundTrip : Obligations.DecodeEncodeRoundTrip := by
  intro i h
  cases i with
  | tickSampler level => cases level <;> rfl
  | tickTxdriver level => cases level <;> rfl
  | tickUnarmed level => cases level <;> rfl
  | uartRx b => exact decodeCode_uartRx b
  | dispatchCancel sss => exact decodeCode_dispatchCancel h
  | payloadA pairs => exact decodeRx_payload .a h
  | payloadM pairs => exact decodeRx_payload .m h
  | payloadP pairs => exact decodeRx_payload .p h
  | syncdur d1 d0 => exact decodeRx_three .a (k := chBang) (by decide) d1 d0
  | bitcount d1 d0 => exact decodeRx_three .a (k := chHash) (by decide) d1 d0
  | check d1 d0 => exact decodeRx_three .a (k := chStar) (by decide) d1 d0
  | unexpected c => exact decodeRx_unexpected .a h
  | outByte v => exact decodeTx_outByte v
  | outPulse p1 p0 => exact decodeTx_outPulse p1 p0
  | outTrailer n d c => exact decodeTx_outTrailer n d c
  | outErrbyte c => exact decodeTx_outErrbyte h
  | _ => rfl

/-- Settles O3: every answer of each of the three decoders is spelled by the word it was read from. -/
theorem decodedWordKeepsEveryBit : Obligations.DecodedWordKeepsEveryBit := by
  intro w i h
  cases w with
  | code pending len bits => exact decodeCode_spelled h
  | rx t bytes => exact decodeRx_spelled h
  | tx bytes => exact decodeTx_spelled h

/-- Settles O4: each word is closed, so the decoder is run on it. -/
theorem writtenWordsDecode : Obligations.WrittenWordsDecode := by
  refine ⟨?sampler, ?uart, ?task, ?cancellation, ?payload, ?token, ?record⟩
  case sampler => rfl
  case uart => exact decodeCode_uartRx 0x41
  case task => rfl
  case cancellation => exact decodeCode_dispatchCancel (sss := 3) (by decide)
  case payload => exact decodeRx_payload .p (pairs := [(0x46, 0x66)]) (by decide)
  case token => exact decodeRx_three .a (k := chStar) (by decide) 0x46 0x35
  case record => exact decodeTx_outTrailer 0x20 0x30 0x6D

end Sys2Proof.Proofs
end

section
/-! PROOF. The checksum law of an outbound line (30_encoding.md R108, 48 R255). A line is fresh until its header is printed, open
until its trailer, and closed otherwise; each task moves it on by one of these steps or leaves it. -/

namespace Sys2Proof.Proofs.ChecksumLine
open Sys2Proof Sys2Proof.Machine Sys2Proof.Proofs.Invariants

variable {s t : State}

/-! ## A line that is closed, fresh or open -/

/-- What the hand-off of a train sets, and nothing changes until the header is printed (R199). -/
def Seeded (s : State) : Prop := s.checksum = 0x55 ∧ s.bitCount = 0 ∧ s.byteAccumulator = 0

/-- A state with no line asks nothing. -/
theorem lineLaw_of_closed (hf : ¬LineFresh s) (ho : ¬LineOpen s) : LineLaw s :=
  ⟨fun h => absurd h hf, fun h => absurd h ho⟩

/-- The searcher has no line unless it waits for a decoder that printed nothing. -/
theorem lineLaw_of_searching (hr : s.runningState = .syncSearch) (h : ¬(s.ssPhase = .awaitDecoder ∧ s.decoded = false)) :
    LineLaw s :=
  lineLaw_of_closed (by simpa [LineFresh, hr, isDecoding] using h) (by simp [LineOpen, hr, isDecoding])

/-- The parser has no line. -/
theorem lineLaw_of_receiving (hr : s.runningState = .receivingCommand) : LineLaw s :=
  lineLaw_of_closed (by simp [LineFresh, hr, isDecoding]) (by simp [LineOpen, hr, isDecoding])

/-- A line without its header. -/
theorem lineLaw_of_seeded (h : Seeded s) (ho : ¬LineOpen s) : LineLaw s := ⟨fun _ => h, fun x => absurd x ho⟩

/-- A line with its header. -/
theorem lineLaw_of_soFar (hf : ¬LineFresh s) (hd : s.decoded = true) {before bs : List Byte}
    (h : LineSoFar s before bs) : LineLaw s :=
  ⟨fun x => absurd x hf, fun _ => ⟨hd, before, bs, h⟩⟩

theorem seeded_of_fresh (h : LineLaw s) (hf : LineFresh s) : Seeded s := h.1 hf

theorem soFar_of_open (h : LineLaw s) (ho : LineOpen s) : s.decoded = true ∧ ∃ before bs, LineSoFar s before bs := h.2 ho

/-- What a TICK and a UART_RX leave alone is all the law looks at. -/
theorem lineLaw_of_sameTasks (hs : SameTasks s t) (h : LineLaw s) : LineLaw t := by
  obtain ⟨hr, hd, -, hp, hdec, hsum, hn, hacc, hout, htype⟩ := hs
  simp only [LineLaw, LineFresh, LineOpen, LineSoFar, hr, hd, hp, hdec, hsum, hn, hacc, hout, htype]
  exact h

/-! ## The searcher (R199, R200) -/

/-- A search that names a decoder has seeded its line. -/
theorem ssLoop_seeds (hr : s.runningState = .syncSearch) (h : isDecoding (ssLoop Config.ringSlots s).runningState = true) :
    Seeded (ssLoop Config.ringSlots s) := by
  revert h
  refine ssLoop_induct (P := fun u => u.runningState = .syncSearch)
    (Q := fun u => isDecoding u.runningState = true → Seeded u) ?fuel hr ?pulse ?pickup ?wait ?classify
  case fuel => exact (ovfSub_le s.ssPi s.current).trans (by decide)
  case pulse =>
    intro u hu _ _
    obtain ⟨_, _, _, _, _, he⟩ := ssExamine_frame u
    rw [he]
    exact hu
  case pickup => exact fun u _ _ _ hdec => by cases hdec
  case wait =>
    intro u hu _ _ hdec
    rw [hu] at hdec
    cases hdec
  case classify => exact fun u _ _ _ _ => ⟨rfl, rfl, rfl⟩

/-- The searcher names a decoder for a line it has seeded, or again for the fresh line of the decoder that failed. -/
theorem syncSearch_seeds (h : LineLaw s) (hr : s.runningState = .syncSearch)
    (hdec : isDecoding (syncSearch s).runningState = true) : Seeded (syncSearch s) := by
  cases hp : s.ssPhase with
  | restart =>
    rw [syncSearch_restart (.inl hp)] at hdec ⊢
    exact ssLoop_seeds (s := ssRestart s) hr hdec
  | search =>
    rw [syncSearch_search hp] at hdec ⊢
    exact ssLoop_seeds hr hdec
  | awaitDecoder =>
    cases hretry : retryDue s with
    | true =>
      obtain ⟨hnot, -⟩ := retryDue_iff.mp hretry
      have hseed : Seeded s := seeded_of_fresh h (.inr ⟨hr, hp, hnot⟩)
      rw [syncSearch_retry hp hretry]
      exact hseed
    | false =>
      rw [syncSearch_restart (.inr ⟨hp, hretry⟩)] at hdec ⊢
      exact ssLoop_seeds (s := ssRestart s) hr hdec

theorem syncSearch_lineLaw (ht : TaskOk s) (h : LineLaw s) (hr : s.runningState = .syncSearch) :
    LineLaw (syncSearch s) := by
  obtain ⟨hd, -, ⟨hr', hp⟩ | ⟨hr', -⟩ | ⟨hdec, -⟩⟩ := syncSearch_out hr
  · exact lineLaw_of_searching hr' (by simp [hp])
  · exact lineLaw_of_receiving hr'
  · have hidle := hd.trans (decPhase_of_taskOk ht (by simp [hr, isDecoding]))
    refine lineLaw_of_seeded (syncSearch_seeds h hr hdec) ?_
    rintro (⟨-, hemit⟩ | hdone)
    · exact absurd (hidle.symm.trans hemit) (by decide)
    · simp [hdone, isDecoding] at hdec

/-! ## The decoders (R213 to R215, R245 to R247) -/

theorem emitted_lineSoFar {before bs : List Byte} (he : Emitted s t) (h : LineSoFar s before bs) :
    ∃ bs', LineSoFar t before bs' := by
  obtain ⟨more, _, _, _, _, _, _, _, rfl⟩ := he
  obtain ⟨hout, hsum⟩ := h
  refine ⟨bs ++ more, ?_, ?_⟩
  · simp only [hout, payloadText_append, List.append_assoc]
  · simp only [hsum, byteSum_append, BitVec.add_assoc]

/-- A run of the emission loop of a line with its header: more payload bytes, and perhaps the end of the message. -/
theorem emittedTo_lineLaw (he : EmittedTo s t) (hr : isDecoding s.runningState = true) (hp : s.decPhase = .emit)
    (hd : s.decoded = true) {before bs : List Byte} (h : LineSoFar s before bs) : LineLaw t := by
  rcases he with he | ⟨u, next, he, rfl⟩
  · obtain ⟨bs', h'⟩ := emitted_lineSoFar he h
    obtain ⟨_, _, _, _, _, _, _, _, rfl⟩ := he
    refine lineLaw_of_soFar ?_ hd h'
    rintro (⟨-, hne⟩ | ⟨hs, -⟩)
    · exact hne hp
    · exact absurd (hs ▸ hr : isDecoding .syncSearch = true) (by decide)
  · obtain ⟨bs', h'⟩ := emitted_lineSoFar he h
    obtain ⟨_, _, _, _, _, _, _, _, rfl⟩ := he
    exact lineLaw_of_soFar (by simp [LineFresh, decoderEnd, isDecoding]) hd h'

/-- The emission loop, resumed. -/
theorem lineLaw_of_resumed (h : LineLaw s) (hr : isDecoding s.runningState = true) (hp : s.decPhase = .emit)
    (he : EmittedTo s t) : LineLaw t := by
  obtain ⟨hd, before, bs, hline⟩ := soFar_of_open h (.inl ⟨hr, hp⟩)
  exact emittedTo_lineLaw he hr hp hd hline

/-- A commit prints the header of a fresh line (R213, R223, R234, R245). -/
theorem committed_lineSoFar (k : LockDecoder) (h : Seeded s) :
    LineSoFar (k.committed s) s.uartTx [] := by
  obtain ⟨hsum, -⟩ := h
  cases k <;> exact ⟨(List.append_nil _).symm, hsum⟩

theorem lockDecoder_lineLaw (k : LockDecoder) (h : LineLaw s) (hr : s.runningState = k.state) :
    LineLaw (k.run s) := by
  have hdec : isDecoding s.runningState = true := by rw [hr]; cases k <;> rfl
  rcases k.run_cases s with ⟨hp, he⟩ | ⟨hp, a, c, hcases⟩
  · rw [he]
    exact lineLaw_of_resumed h hdec hp (k.emission_emittedTo s)
  have hseed : Seeded s := seeded_of_fresh h (.inl ⟨hdec, hp⟩)
  rcases hcases with he | he | he <;> rw [he]
  · refine lineLaw_of_seeded hseed ?_
    rintro (⟨-, hemit⟩ | hdone)
    · cases hemit
    · rw [show s.runningState = .decodeDone from hdone] at hdec
      cases hdec
  · refine lineLaw_of_seeded hseed ?_
    rintro (⟨hdec', -⟩ | hdone)
    · cases hdec'
    · cases hdone
  · exact emittedTo_lineLaw (k.emission_emittedTo _) (by cases k <;> exact hdec) (by cases k <;> rfl)
      (by cases k <;> rfl) (committed_lineSoFar k (s := { s with decPi := a, decN := c, decPhase := .lockIn }) hseed)

theorem decodePulses_lineLaw (ht : TaskOk s) (h : LineLaw s) (hr : s.runningState = .decodeRawPulses) :
    LineLaw (decodePulses s) := by
  have hdec : isDecoding s.runningState = true := by rw [hr]; rfl
  rcases decodePulses_cases s with ⟨hp, he⟩ | ⟨hp, he⟩
  · obtain ⟨-, hlock, -⟩ := ht
    have hemit : s.decPhase = .emit := by
      cases hd : s.decPhase with
      | idle => exact absurd hd hp
      | lockIn => exact absurd hr (hlock hd)
      | emit => rfl
    exact lineLaw_of_resumed h hdec hemit he
  · obtain ⟨hsum, -⟩ := seeded_of_fresh h (.inl ⟨hdec, by simp [hp]⟩)
    have hline : LineSoFar (commit .p s) s.uartTx [] := ⟨(List.append_nil _).symm, hsum⟩
    exact emittedTo_lineLaw he hdec rfl rfl hline

/-! ## The trailer and the parser -/

/-- The printed sum, as an addition of bytes (R254, R9). -/
theorem trailer_eq (s : State) :
    trailer s =
      { s with
        uartTx := s.uartTx ++ trailerString s.bitCount s.syncDuration (s.checksum + s.bitCount + s.syncDuration)
        checksum := s.checksum + s.bitCount + s.syncDuration, runningState := .syncSearch } := by
  have hsum : BitVec.ofNat 8 (s.checksum.toNat + s.bitCount.toNat + s.syncDuration.toNat) =
      s.checksum + s.bitCount + s.syncDuration := by
    apply BitVec.eq_of_toNat_eq
    simp
  unfold trailer
  rw [hsum]
  rfl

theorem exec_dispatchTrailer (h : s.runningState = .decodeDone) : exec .dispatchTrailer s = .next (trailer s) :=
  congrArg _ (if_pos h)

/-- After the trailer the message counts as decoded, so the searcher does not try the line again. -/
theorem trailer_lineLaw (h : LineLaw s) (hr : s.runningState = .decodeDone) : LineLaw (trailer s) := by
  obtain ⟨hd, -⟩ := soFar_of_open h (.inr hr)
  exact lineLaw_of_searching (s := trailer s) rfl fun ⟨_, hnot⟩ => absurd (hd.symm.trans hnot) (by decide)

theorem receiveCommand_lineLaw (hr : s.runningState = .receivingCommand) : LineLaw (receiveCommand s) := by
  obtain ⟨-, ⟨hr', -⟩ | ⟨hr', -, hp⟩⟩ := receiveCommand_out hr
  · exact lineLaw_of_receiving hr'
  · exact lineLaw_of_searching hr' (by simp [hp])

/-! ## DISPATCH (R173, R175) -/

theorem runTask_lineLaw (ht : TaskOk s) (h : LineLaw s) : LineLaw (runTask s) := by
  unfold runTask
  split
  case h_1 hr => exact syncSearch_lineLaw ht h hr
  case h_2 hr => exact lockDecoder_lineLaw .ask h hr
  case h_3 hr => exact lockDecoder_lineLaw .ook h hr
  case h_4 hr => exact lockDecoder_lineLaw .man h hr
  case h_5 hr => exact decodePulses_lineLaw ht h hr
  case h_6 hr => exact trailer_lineLaw h hr
  case h_7 hr => exact receiveCommand_lineLaw hr

/-- A cancellation drops the line with its decode. -/
theorem dispatchEvent_lineLaw (ht : TaskOk s) (h : LineLaw s) : LineLaw (dispatchEvent s) := by
  cases hw : s.wake with
  | false =>
    rw [dispatchEvent_asleep hw]
    exact h
  | true =>
    rw [dispatchEvent_awake hw]
    by_cases hc : cancelDue { s with wake := false } = true
    · rw [dispatchTask_cancel hc]
      exact receiveCommand_lineLaw rfl
    · rw [dispatchTask_task hc]
      exact runTask_lineLaw (s := { s with wake := false }) ht h

/-- Every event keeps the law (R255). -/
theorem exec_lineLaw {i : Instr} (hi : isEvent i = true) (ht : TaskOk s) (h : LineLaw s) (he : exec i s = .next t) :
    LineLaw t := by
  have tick : ∀ {level}, i ∈ tickRows level → LineLaw t := by
    intro level hl
    rw [exec_tickRows hl] at he
    cases he
    exact lineLaw_of_sameTasks (tickEvent_sameTasks _ level s) h
  cases i with
  | reset =>
    cases he
    obtain ⟨-, -, hreset⟩ := resetMeetsInvariants
    exact hreset
  | tickSampler level => exact tick (level := level) (by simp [tickRows])
  | tickTxdriver level => exact tick (level := level) (by simp [tickRows])
  | tickUnarmed level => exact tick (level := level) (by simp [tickRows])
  | uartRx b =>
    cases he
    exact lineLaw_of_sameTasks (uartRxEvent_sameTasks _ _ b s) h
  | dispatch =>
    cases he
    exact dispatchEvent_lineLaw ht h
  | _ => cases hi

end Sys2Proof.Proofs.ChecksumLine

namespace Sys2Proof.Proofs
open Sys2Proof Sys2Proof.Machine Sys2Proof.Proofs.ChecksumLine

/-- Settles O38: every event keeps the law, and at the trailer the law gives the header, the payload bytes and the sum to which
the trailer adds the two numbers it prints. -/
theorem checksumLaw : Obligations.ChecksumLaw := by
  refine ⟨fun i s t hi ht h he => exec_lineLaw hi ht h he, ?printed⟩
  case printed =>
    intro s h hr
    obtain ⟨-, before, bs, hout, hsum⟩ := soFar_of_open h (.inr hr)
    refine ⟨before, bs, trailer s, exec_dispatchTrailer hr, ?_⟩
    rw [trailer_eq]
    simp only [hout, hsum, trailerString, List.append_assoc, List.cons_append, List.nil_append]
    rfl

end Sys2Proof.Proofs
end

section
/-! PROOF. What each task writes (30_encoding.md R122): the frame of the searcher, of the four decoders and of the parser. A dispatch
target whose task is not the running one changes nothing, so a frame is a statement about the task alone. -/

namespace Sys2Proof.Proofs.TaskFrames
open Sys2Proof Sys2Proof.Machine

variable {s t u : State}

/-- A dispatch target runs its task or nothing: what holds of both outcomes holds of its answer. -/
theorem exec_targetOf_answers {Q : State → Prop} (r : RunningState) (hstill : Q s)
    (htask : s.runningState = r → Q (runTask s)) : ∃ t, exec (targetOf r) s = .next t ∧ Q t := by
  by_cases hr : s.runningState = r
  · exact ⟨runTask s, exec_targetOf hr, htask hr⟩
  · exact ⟨s, exec_targetOf_other hr, hstill⟩

theorem runTask_searcher (h : s.runningState = .syncSearch) : runTask s = syncSearch s := by simp only [runTask, h]

theorem runTask_lockDecoder (k : LockDecoder) (h : s.runningState = k.state) : runTask s = k.run s := by
  unfold runTask
  rw [h]
  cases k <;> rfl

theorem runTask_rawDumper (h : s.runningState = .decodeRawPulses) : runTask s = decodePulses s := by
  simp only [runTask, h]

theorem runTask_parser (h : s.runningState = .receivingCommand) : runTask s = receiveCommand s := by
  simp only [runTask, h]

/-! ## The decoders -/

/-- `t` is `s` but for what the four decoders together write: the emitter's elements, the line's and their locals. -/
def DecoderWrites (s t : State) : Prop :=
  t = { s with
        decPhase := t.decPhase, decPi := t.decPi, decN := t.decN, mPhase := t.mPhase, mBit := t.mBit
        demiClock := t.demiClock, stuffClock := t.stuffClock, decoded := t.decoded, msgType := t.msgType
        msgStart := t.msgStart, runningState := t.runningState, byteAccumulator := t.byteAccumulator
        bitCount := t.bitCount, checksum := t.checksum, uartTx := t.uartTx }

theorem DecoderWrites.trans (h : DecoderWrites s t) (h' : DecoderWrites t u) : DecoderWrites s u := by
  unfold DecoderWrites at h h' ⊢
  conv_lhs => rw [h', h]

theorem emittedTo_decoderWrites (h : EmittedTo s t) : DecoderWrites s t := by
  rcases h with ⟨_, _, _, _, _, _, _, _, rfl⟩ | ⟨_, _, ⟨_, _, _, _, _, _, _, _, rfl⟩, rfl⟩ <;> rfl

theorem committed_decoderWrites (k : LockDecoder) (s : State) : DecoderWrites s (k.committed s) := by cases k <;> rfl

theorem lockDecoder_decoderWrites (k : LockDecoder) (s : State) : DecoderWrites s (k.run s) := by
  rcases k.run_cases s with ⟨-, he⟩ | ⟨-, a, c, he | he | he⟩ <;> rw [he]
  · exact emittedTo_decoderWrites (k.emission_emittedTo s)
  · rfl
  · rfl
  · have hlock : DecoderWrites s { s with decPi := a, decN := c, decPhase := .lockIn } := rfl
    exact (hlock.trans (committed_decoderWrites k _)).trans (emittedTo_decoderWrites (k.emission_emittedTo _))

theorem decodePulses_decoderWrites (s : State) : DecoderWrites s (decodePulses s) := by
  rcases decodePulses_cases s with ⟨-, he⟩ | ⟨-, he⟩
  · exact emittedTo_decoderWrites he
  · exact DecoderWrites.trans (t := commit .p s) rfl (emittedTo_decoderWrites he)

theorem manLocals_eq_iff :
    manLocals t = manLocals s ↔
      t.mPhase = s.mPhase ∧ t.mBit = s.mBit ∧ t.demiClock = s.demiClock ∧ t.stuffClock = s.stuffClock := by
  simp only [manLocals, Prod.mk.injEq]

theorem emission_manLocals {k : LockDecoder} (hk : k ≠ .man) (s : State) : manLocals (k.emission s) = manLocals s := by
  cases k with
  | ask => exact askEmit_manLocals s
  | ook => exact ookEmit_manLocals s
  | man => contradiction

theorem committed_manLocals {k : LockDecoder} (hk : k ≠ .man) (s : State) :
    manLocals (k.committed s) = manLocals s := by
  cases k with
  | ask => rfl
  | ook => rfl
  | man => contradiction

/-- Only the Manchester decoder writes the half-bit clocks, the latch and the phase. -/
theorem lockDecoder_manLocals {k : LockDecoder} (hk : k ≠ .man) (s : State) : manLocals (k.run s) = manLocals s := by
  rcases k.run_cases s with ⟨-, he⟩ | ⟨-, a, c, he | he | he⟩ <;> rw [he]
  · exact emission_manLocals hk s
  · rfl
  · rfl
  · rw [emission_manLocals hk, committed_manLocals hk]
    rfl

/-- What the raw dumper leaves of the elements that the other decoders write (R245, R246). -/
theorem decodePulses_keeps (s : State) :
    manLocals (decodePulses s) = manLocals s ∧ (decodePulses s).byteAccumulator = s.byteAccumulator ∧
      (decodePulses s).decN = s.decN := by
  have dump : ∀ u, manLocals (pulseLoop rawPulse finishRaw Config.ringSlots u) = manLocals u ∧
      (pulseLoop rawPulse finishRaw Config.ringSlots u).byteAccumulator = u.byteAccumulator ∧
      (pulseLoop rawPulse finishRaw Config.ringSlots u).decN = u.decN := by
    intro u
    obtain ⟨hlocals, hacc⟩ := rawLoop_keeps Config.ringSlots u
    refine ⟨hlocals, hacc, pulseLoop_keeps (·.decN) (finish := finishRaw) (fun p0 p1 v => ?_) (fun _ => rfl)
      (fun _ => rfl) _ u⟩
    obtain ⟨_, _, _, he⟩ := rawPulse_frame p0 p1 v
    rw [he]
  unfold decodePulses
  split
  · exact dump (commit .p s)
  · exact dump s

/-! ## The parser -/

/-- `t` is `s` but for what the parser writes: the line's elements, the transceiver's, the ring and the queue. -/
def ParserWrites (s t : State) : Prop :=
  t = { s with
        ring := t.ring, current := t.current, msgStart := t.msgStart, msgEnd := t.msgEnd, mode := t.mode
        ocieA := t.ocieA, ocieB := t.ocieB, antenna := t.antenna, runningState := t.runningState
        syncDuration := t.syncDuration, ssPhase := t.ssPhase, byteAccumulator := t.byteAccumulator
        bitCount := t.bitCount, checksum := t.checksum, msgType := t.msgType, displayPulses := t.displayPulses
        stackReq := t.stackReq, uartRxQ := t.uartRxQ, uartTx := t.uartTx, cpPhase := t.cpPhase, cpType := t.cpType
        cpWr := t.cpWr, cpHold := t.cpHold, cpPhold := t.cpPhold, cpK := t.cpK, cpKw := t.cpKw, cpKi := t.cpKi
        cpT0 := t.cpT0, cpRep := t.cpRep }

theorem ParserWrites.trans (h : ParserWrites s t) (h' : ParserWrites t u) : ParserWrites s u := by
  unfold ParserWrites at h h' ⊢
  conv_lhs => rw [h', h]

theorem parserBegins_writes (h : ParserBegins s t) : ParserWrites s t ∧ t.uartRxQ = s.uartRxQ := by
  obtain ⟨-, _, _, _, rfl | rfl | rfl⟩ := h <;> exact ⟨rfl, rfl⟩

theorem inLine_parserWrites (h : InLine s t) : ParserWrites s t := by
  obtain ⟨he, -⟩ := h
  rw [he]
  rfl

/-- A run of the parser leaves an end of the queue unread, whether the line goes on, a cycle starts or the line is left. -/
theorem parserRun_writes (h : ParserRun s t) : t.uartRxQ <:+ s.uartRxQ ∧ ParserWrites s t := by
  obtain ⟨u, q, hline, hq, ht⟩ := h
  have hu := inLine_parserWrites hline
  rcases ht with rfl | rfl | rfl <;> exact ⟨hq, hu.trans rfl⟩

theorem receiveCommand_writes (hr : s.runningState = .receivingCommand) :
    (receiveCommand s).uartRxQ <:+ s.uartRxQ ∧ ParserWrites s (receiveCommand s) := by
  obtain ⟨b, hbegins, hrun⟩ := receiveCommand_cases hr
  obtain ⟨hb, hqueue⟩ := parserBegins_writes hbegins
  obtain ⟨hsuffix, ht⟩ := parserRun_writes hrun
  exact ⟨hqueue ▸ hsuffix, hb.trans ht⟩

end Sys2Proof.Proofs.TaskFrames

namespace Sys2Proof.Proofs
open Sys2Proof Sys2Proof.Machine Sys2Proof.Proofs.Invariants Sys2Proof.Proofs.TaskFrames

/-- Settles O27: a run of the searcher moves its own elements and those of the hand-off. -/
theorem searcherFrame : Obligations.SearcherFrame := fun s =>
  exec_targetOf_answers (Q := Searched s) .syncSearch rfl fun hr => runTask_searcher hr ▸ syncSearch_searched s

/-- Settles O35: one frame holds of all four decoders; what a decoder's own row leaves out of it, the decoder keeps. -/
theorem decodersFrame : Obligations.DecodersFrame := by
  intro s
  refine ⟨?bitDecoders, ?manchester, ?raw⟩
  case bitDecoders =>
    intro i hi
    obtain ⟨k, hk, rfl⟩ : ∃ k : LockDecoder, k ≠ .man ∧ i = targetOf k.state := by
      simp only [bitDecoders, List.mem_cons, List.not_mem_nil, or_false] at hi
      rcases hi with rfl | rfl
      · exact ⟨.ask, by decide, rfl⟩
      · exact ⟨.ook, by decide, rfl⟩
    obtain ⟨t, he, ht, hlocals⟩ := exec_targetOf_answers (s := s)
      (Q := fun t => DecoderWrites s t ∧ manLocals t = manLocals s) k.state ⟨rfl, rfl⟩ fun hr =>
      runTask_lockDecoder k hr ▸ ⟨lockDecoder_decoderWrites k s, lockDecoder_manLocals hk s⟩
    obtain ⟨hphase, hbit, hdemi, hstuff⟩ := manLocals_eq_iff.mp hlocals
    refine ⟨t, he, ?_⟩
    conv_lhs => rw [ht, hphase, hbit, hdemi, hstuff]
  case manchester =>
    exact exec_targetOf_answers (Q := DecoderWrites s) .decodingManchester rfl fun hr =>
      runTask_lockDecoder .man hr ▸ lockDecoder_decoderWrites .man s
  case raw =>
    obtain ⟨t, he, ht, hlocals, hacc, hn⟩ := exec_targetOf_answers (s := s)
      (Q := fun t => DecoderWrites s t ∧ manLocals t = manLocals s ∧ t.byteAccumulator = s.byteAccumulator ∧
        t.decN = s.decN) .decodeRawPulses ⟨rfl, rfl, rfl, rfl⟩ fun hr =>
      runTask_rawDumper hr ▸ ⟨decodePulses_decoderWrites s, decodePulses_keeps s⟩
    obtain ⟨hphase, hbit, hdemi, hstuff⟩ := manLocals_eq_iff.mp hlocals
    refine ⟨t, he, ?_⟩
    conv_lhs => rw [ht, hphase, hbit, hdemi, hstuff, hacc, hn]

/-- Settles O44: the frame and the queue of a run of the parser. -/
theorem parserFrame : Obligations.ParserFrame := fun s =>
  exec_targetOf_answers (Q := fun t => t.uartRxQ <:+ s.uartRxQ ∧ ParserWrites s t) .receivingCommand
    ⟨List.suffix_rfl, rfl⟩ fun hr => runTask_parser hr ▸ receiveCommand_writes hr

end Sys2Proof.Proofs
end

section
/-! PROOF. The order of the bits in a printed byte (30_encoding.md R105, 48 R252, R253): the accumulator holds the bits stuffed so
far at its top, and a byte that is not full is printed as it stands. -/

namespace Sys2Proof.Proofs.MsbFirst
open Sys2Proof Sys2Proof.Machine

/-- The `k` highest of the `n` bits of `v`, at the top of a byte: the accumulator after `k` of `n` bits. -/
def topBits (n : Nat) (v : Byte) (k : Nat) : Byte := BitVec.ofNat 8 (v.toNat / 2 ^ (n - k) * 2 ^ (8 - k))

/-- The `n` bits of `v`, most significant first. -/
def msbBits (n : Nat) (v : Byte) : List Bool := (List.range n).map fun k => v.getLsbD (n - 1 - k)

theorem topBits_zero {n : Nat} {v : Byte} (h : v.toNat < 2 ^ n) : topBits n v 0 = 0 := by
  simp [topBits, Nat.div_eq_of_lt h]

theorem topBits_all (n : Nat) (v : Byte) : topBits n v n = BitVec.ofNat 8 (v.toNat * 2 ^ (8 - n)) := by
  simp [topBits]

/-- A bit below the lowest position of a multiple is added to it by OR. -/
theorem or_bit_eq_add (a j : Nat) (b : Bool) :
    a * 2 ^ (j + 1) ||| (if b then 2 ^ j else 0) = (2 * a + b.toNat) * 2 ^ j := by
  have hlt : (if b then 2 ^ j else 0) < 2 ^ (j + 1) := by
    have := Nat.two_pow_pos j
    cases b <;> simp [Nat.pow_succ]
  rw [Nat.mul_comm a, ← Nat.two_pow_add_eq_or_of_lt hlt]
  cases b <;> simp <;> ring

/-- The next bit of `v` goes below the bits already placed (R252). -/
theorem placeBit_topBits {n k : Nat} (v : Byte) (hk : k < n) (h8 : k < 8) :
    placeBit (topBits n v k) k (v.getLsbD (n - 1 - k)) = topBits n v (k + 1) := by
  have hbit : (v.getLsbD (n - 1 - k)).toNat = v.toNat / 2 ^ (n - 1 - k) % 2 :=
    Nat.toNat_testBit _ _
  have hhalf : v.toNat / 2 ^ (n - k) = v.toNat / 2 ^ (n - 1 - k) / 2 := by
    rw [show n - k = n - 1 - k + 1 by omega, Nat.pow_succ, Nat.div_div_eq_div_mul]
  have hsum : 2 * (v.toNat / 2 ^ (n - k)) + (v.getLsbD (n - 1 - k)).toNat = v.toNat / 2 ^ (n - (k + 1)) := by
    rw [hbit, hhalf, show n - (k + 1) = n - 1 - k by omega]
    omega
  rw [placeBit_eq, topBits, topBits, show 8 - k = 7 - k + 1 by omega, show 8 - (k + 1) = 7 - k by omega, ← hsum,
    ← or_bit_eq_add, BitVec.ofNat_or]

/-- The count of a byte boundary and `k` bits more. -/
theorem bitCount_mod {c : Byte} (h : c.toNat % 8 = 0) (k : Nat) : (c + BitVec.ofNat 8 k).toNat % 8 = k % 8 := by
  rw [BitVec.toNat_add, BitVec.toNat_ofNat]
  omega

theorem bitCount_succ (c : Byte) (k : Nat) : c + BitVec.ofNat 8 k + 1 = c + BitVec.ofNat 8 (k + 1) := by
  rw [BitVec.ofNat_add, BitVec.add_assoc]
  rfl

variable {n : Nat} {v : Byte} {s : State}

/-- The state after the first `k` bits of a byte that they do not fill. -/
def stuffed (n : Nat) (v : Byte) (k : Nat) (s : State) : State :=
  { s with byteAccumulator := topBits n v k, bitCount := s.bitCount + BitVec.ofNat 8 k }

/-- The state after a printed byte. -/
def printed (n : Nat) (v : Byte) (s : State) : State :=
  { s with
    byteAccumulator := 0, bitCount := s.bitCount + BitVec.ofNat 8 n
    uartTx := s.uartTx ++ hex2 (topBits n v n), checksum := s.checksum + topBits n v n }

theorem stuffed_zero (hv : v.toNat < 2 ^ n) (hacc : s.byteAccumulator = 0) : stuffed n v 0 s = s := by
  unfold stuffed
  rw [topBits_zero hv, ← hacc]
  simp

theorem stuffBit_stuffed {k : Nat} (hc : s.bitCount.toNat % 8 = 0) (hk : k < n) (h7 : k < 7) :
    stuffBit (v.getLsbD (n - 1 - k)) (stuffed n v k s) = stuffed n v (k + 1) s := by
  have hmod : (stuffed n v k s).bitCount.toNat % 8 = k := (bitCount_mod hc k).trans (by omega)
  have hnext : (stuffed n v k s).bitCount + 1 = s.bitCount + BitVec.ofNat 8 (k + 1) := bitCount_succ _ k
  rw [stuffBit_inside _ (by rw [hnext, bitCount_mod hc _]; omega), hmod, hnext]
  unfold stuffed
  simp only [placeBit_topBits v hk (by omega : k < 8)]

theorem stuffBit_eighth (hc : s.bitCount.toNat % 8 = 0) :
    stuffBit (v.getLsbD 0) (stuffed 8 v 7 s) = printed 8 v s := by
  have hmod : (stuffed 8 v 7 s).bitCount.toNat % 8 = 7 := bitCount_mod hc _
  have hnext : (stuffed 8 v 7 s).bitCount + 1 = s.bitCount + BitVec.ofNat 8 8 := bitCount_succ _ 7
  rw [stuffBit_full _ (by rw [hnext, bitCount_mod hc _]), hmod, hnext]
  unfold stuffed printed
  simp only [placeBit_topBits v (n := 8) (k := 7) (by omega) (by omega)]

/-- Stuffing the first `k` bits, from a byte boundary. -/
theorem foldl_stuffBit (hc : s.bitCount.toNat % 8 = 0) (hv : v.toNat < 2 ^ n) (hacc : s.byteAccumulator = 0) {k : Nat}
    (hk : k ≤ n) (h7 : k ≤ 7) :
    ((List.range k).map fun j => v.getLsbD (n - 1 - j)).foldl (fun u b => stuffBit b u) s = stuffed n v k s := by
  induction k with
  | zero => exact (stuffed_zero hv hacc).symm
  | succ k ih =>
    rw [List.range_succ, List.map_append, List.foldl_append, ih (by omega) (by omega)]
    exact stuffBit_stuffed hc (by omega) (by omega)

/-- A byte that is not full is printed by the flush, a full one by its eighth bit. -/
theorem flushPartial_foldl_stuffBit (h1 : 1 ≤ n) (h8 : n ≤ 8) (hv : v.toNat < 2 ^ n) (hc : s.bitCount.toNat % 8 = 0)
    (hacc : s.byteAccumulator = 0) :
    flushPartial ((msbBits n v).foldl (fun u b => stuffBit b u) s) = printed n v s := by
  by_cases hn : n = 8
  · subst hn
    have hfold : (msbBits 8 v).foldl (fun u b => stuffBit b u) s = printed 8 v s := by
      rw [msbBits, List.range_succ, List.map_append, List.foldl_append,
        foldl_stuffBit hc hv hacc (by omega) (by omega)]
      exact stuffBit_eighth hc
    have hboundary : (printed 8 v s).bitCount.toNat % 8 = 0 := bitCount_mod hc 8
    rw [hfold, flushPartial_none hboundary]
  · have hpartial : (stuffed n v n s).bitCount.toNat % 8 ≠ 0 := by
      rw [show (stuffed n v n s).bitCount = s.bitCount + BitVec.ofNat 8 n from rfl, bitCount_mod hc n]
      omega
    rw [msbBits, foldl_stuffBit hc hv hacc le_rfl (by omega), flushPartial_some hpartial]
    rfl

end Sys2Proof.Proofs.MsbFirst

namespace Sys2Proof.Proofs
open Sys2Proof Sys2Proof.Machine Sys2Proof.Proofs.MsbFirst

/-- Settles O37: the byte printed holds all `n` bits at its top, and the accumulator is clear again. -/
theorem payloadIsMsbFirst : Obligations.PayloadIsMsbFirst := by
  intro n v s h1 h8 hv hc hacc bits t
  refine (flushPartial_foldl_stuffBit h1 h8 hv hc hacc).trans ?_
  unfold printed
  rw [topBits_all, ← hacc]

end Sys2Proof.Proofs
end

section
/-! PROOF. The sampler over a run of ticks (40_sampler.md R142 to R147): the tick of R145 as a step of the machine, the counts of
the open slot tick by tick, and what the next rising edge makes of them. -/

namespace Sys2Proof.Proofs.Sampler
open Sys2Proof Sys2Proof.Machine

variable {s : State} {c : Byte} {prev level : Bool} {n : Bool → Nat}

/-! ## Running operations in sequence -/

theorem runOps_cons_of_next {i : Instr} {rest : List Instr} {t : State} (h : exec i s = .next t) :
    runOps (i :: rest) s = runOps rest t := by
  simp only [runOps, h]

theorem runOps_append_of_next {xs ys : List Instr} {t : State} (h : runOps xs s = .next t) :
    runOps (xs ++ ys) s = runOps ys t := by
  induction xs generalizing s with
  | nil =>
    cases h
    rfl
  | cons x xs ih =>
    rw [List.cons_append]
    cases hx : exec x s with
    | next u =>
      rw [runOps_cons_of_next hx] at h ⊢
      exact ih h
    | fault r => simp only [runOps, hx, reduceCtorEq] at h
    | refused r => simp only [runOps, hx, reduceCtorEq] at h

/-! ## One tick (R142 to R145, R171) -/

/-- Where the sampler stands after a tick, in the numbers of R143 (a). -/
theorem samplerNext_eq (s : State) (level : Bool) :
    samplerNext s level =
      if (s.prevLevel = false ∧ level = true) ∧
          (20 < (countedSlot s level s.current false).toNat ∨ 20 < (countedSlot s level s.current true).toNat) then
        s.current + 1
      else s.current := by
  rw [samplerNext, inc8_eq]
  exact if_congr (and_congr_right' decide_eq_true_iff) rfl rfl

/-- Any row of TICK with the sampler armed and the driver not. -/
theorem exec_tick_of_armed {i : Instr} (hi : i ∈ tickRows level) (hwf : Memory.wf s.ring = true)
    (ha : s.ocieA = true) (hb : s.ocieB = false) :
    ∃ m, exec i s = .next
        { s with
          ring := m, current := samplerNext s level, tickcount := s.tickcount + 1, prevLevel := level, wake := true } ∧
      Memory.wf m = true ∧
      ∀ j b, Memory.read m (ringAddr j b) =
        if (s.prevLevel = false ∧ level = true) ∧ j = samplerNext s level then 0 else countedSlot s level j b := by
  obtain ⟨m, htick, hm, hread⟩ := sampler_spec hwf level
  refine ⟨m, ?_, hm, hread⟩
  rw [exec_tickRows hi, tickEvent_sampler _ level ha hb, htick]

/-! ## The open slot while it is filled (R142) -/

/-- The armed sampler fills slot `c`, saw `prev` last, and holds the numbers of ticks `n` (low, high) up to 255. -/
structure Filling (c : Byte) (prev : Bool) (n : Bool → Nat) (s : State) : Prop where
  wf : Memory.wf s.ring = true
  armed : s.ocieA = true
  driverOff : s.ocieB = false
  current : s.current = c
  prevLevel : s.prevLevel = prev
  counts : ∀ b, (ringRead s c b).toNat = min (n b) 255

/-- `n` after `k` more ticks of `level`. -/
def addTicks (n : Bool → Nat) (level : Bool) (k : Nat) (b : Bool) : Nat := n b + if b = level then k else 0

/-- The ticks of a pulse: `hi` high, `lo` low. -/
def pulseTicks (hi lo : Nat) : Bool → Nat
  | true => hi
  | false => lo

theorem addTicks_pulseTicks_high (hi lo k : Nat) : addTicks (pulseTicks hi lo) true k = pulseTicks (hi + k) lo := by
  funext b
  cases b <;> rfl

theorem addTicks_pulseTicks_low (hi lo k : Nat) : addTicks (pulseTicks hi lo) false k = pulseTicks hi (lo + k) := by
  funext b
  cases b <;> rfl

theorem addTicks_zero (n : Bool → Nat) (level : Bool) : addTicks n level 0 = n := by
  funext b
  simp [addTicks]

theorem addTicks_succ (n : Bool → Nat) (level : Bool) (k : Nat) :
    addTicks (addTicks n level 1) level k = addTicks n level (k + 1) := by
  funext b
  unfold addTicks
  split <;> omega

/-- A cleared slot holds no ticks. -/
theorem filling_of_clear (hwf : Memory.wf s.ring = true) (ha : s.ocieA = true) (hb : s.ocieB = false)
    (hlow : ringRead s s.current false = 0) (hhigh : ringRead s s.current true = 0) :
    Filling s.current s.prevLevel (pulseTicks 0 0) s :=
  ⟨hwf, ha, hb, rfl, rfl, fun
    | false => by rw [hlow]; rfl
    | true => by rw [hhigh]; rfl⟩

/-- The count saturates at 255 just as the number of ticks is cut off there. -/
theorem Filling.countedSlot_toNat (h : Filling c prev n s) (level b : Bool) :
    (countedSlot s level c b).toNat = min (addTicks n level 1 b) 255 := by
  have hcount := h.counts b
  by_cases hb : b = level
  · rw [countedSlot, if_pos ⟨h.current.symm, hb⟩, satInc_toNat, addTicks, if_pos hb]
    omega
  · rw [countedSlot, if_neg (fun e => hb e.2), addTicks, if_neg hb]
    exact hcount

/-- A tick that is no rising edge counts its level. -/
theorem Filling.tick (h : Filling c prev n s) (hedge : ¬(prev = false ∧ level = true)) :
    ∃ t, exec (.tickSampler level) s = .next t ∧ Filling c level (addTicks n level 1) t := by
  obtain ⟨m, htick, hm, hread⟩ := exec_tick_of_armed (i := .tickSampler level) List.mem_cons_self h.wf h.armed h.driverOff
  have hno : ¬(s.prevLevel = false ∧ level = true) := by rwa [h.prevLevel]
  have hstay : samplerNext s level = c := by rw [samplerNext_eq, if_neg (fun e => hno e.1), h.current]
  refine ⟨_, htick, hm, h.armed, h.driverOff, hstay, rfl, fun b => ?_⟩
  rw [ringRead, hread, if_neg (fun e => hno e.1), h.countedSlot_toNat]

/-- A phase of `k` ticks without a rising edge adds `k` to its count. -/
theorem Filling.ticks (h : Filling c prev n s) (hedge : ¬(prev = false ∧ level = true)) (k : Nat) :
    ∃ t, runOps (List.replicate k (.tickSampler level)) s = .next t ∧
      Filling c (if k = 0 then prev else level) (addTicks n level k) t := by
  induction k generalizing s prev n with
  | zero => exact ⟨s, rfl, by rwa [addTicks_zero]⟩
  | succ k ih =>
    obtain ⟨u, hu, hfill⟩ := h.tick hedge
    obtain ⟨t, ht, hfill'⟩ := ih hfill (by cases level <;> simp)
    refine ⟨t, ?_, ?_⟩
    · rw [List.replicate_succ, runOps_cons_of_next hu, ht]
    · rwa [ite_self, addTicks_succ] at hfill'

/-! ## The rising edge (R143, R146, R147) -/

/-- Slot `c` was ended with `n` ticks (low, high): closed when one number exceeds 20, otherwise used again; the slot then open
is clear. -/
def SlotEnded (c : Byte) (n : Bool → Nat) (t : State) : Prop :=
  (20 < n true ∨ 20 < n false → t.current = c + 1 ∧ ∀ b, (ringRead t c b).toNat = min (n b) 255) ∧
  (¬(20 < n true ∨ 20 < n false) → t.current = c) ∧
  ∀ b, ringRead t t.current b = 0

/-- The edge tick is counted high in the slot that ends, and then that slot is judged. -/
theorem Filling.edge (h : Filling c false n s) :
    ∃ t, exec (.tickSampler true) s = .next t ∧ SlotEnded c (addTicks n true 1) t := by
  obtain ⟨m, htick, -, hread⟩ := exec_tick_of_armed (i := .tickSampler true) List.mem_cons_self h.wf h.armed h.driverOff
  have hrise : s.prevLevel = false ∧ true = true := ⟨h.prevLevel, rfl⟩
  have hlow := h.countedSlot_toNat true false
  have hhigh := h.countedSlot_toNat true true
  have hnext : samplerNext s true =
      if 20 < addTicks n true 1 true ∨ 20 < addTicks n true 1 false then c + 1 else c := by
    rw [samplerNext_eq, h.current, hlow, hhigh]
    exact if_congr (by rw [and_iff_right hrise]; omega) rfl rfl
  refine ⟨_, htick, fun hlong => ?closed, fun hshort => hnext.trans (if_neg hshort), fun b => ?clear⟩
  case closed =>
    have hmove : samplerNext s true = c + 1 := hnext.trans (if_pos hlong)
    refine ⟨hmove, fun b => ?_⟩
    rw [ringRead, hread, if_neg (fun e => by bv_omega), h.countedSlot_toNat]
  case clear => rw [ringRead, hread, if_pos ⟨hrise, rfl⟩]

/-- A low phase of `lo` ticks and the edge after it end the slot. -/
theorem Filling.lowTicks_edge {hi lo : Nat} (h : Filling c prev (pulseTicks hi 0) s) (hlo : 1 ≤ lo) :
    ∃ t, runOps (List.replicate lo (.tickSampler false) ++ [.tickSampler true]) s = .next t ∧
      SlotEnded c (pulseTicks (hi + 1) lo) t := by
  obtain ⟨u, hlows, hfill⟩ := h.ticks (level := false) (by simp) lo
  rw [if_neg (by omega), addTicks_pulseTicks_low, Nat.zero_add] at hfill
  obtain ⟨t, hedge, hended⟩ := hfill.edge
  rw [addTicks_pulseTicks_high] at hended
  exact ⟨t, (runOps_append_of_next hlows).trans (runOps_cons_of_next hedge), hended⟩

end Sys2Proof.Proofs.Sampler

namespace Sys2Proof.Proofs
open Sys2Proof Sys2Proof.Machine Sys2Proof.Proofs.Sampler

/-- Settles O13: every row of TICK is the one event, and with channel A alone armed that event is the sampler of R145. -/
theorem samplerTick : Obligations.SamplerTick := by
  intro i level s hi hwf ha hb counted rising next
  have hcounted : counted = countedSlot s level := by
    funext j b
    simp only [counted, countedSlot, satInc_eq]
  have hnext : next = samplerNext s level := by
    rw [samplerNext_eq, ← hcounted]
  rw [hcounted, hnext]
  exact exec_tick_of_armed hi hwf ha hb

/-- Settles O14: the counts of the open slot follow the numbers of ticks through the high phase, the low phase and the edge. -/
theorem slotShape : Obligations.SlotShape := by
  refine ⟨?pulse, ?lowPin⟩
  case pulse =>
    intro hi lo s hhi hlo hwf ha hb hprev hlow hhigh
    have hclear := filling_of_clear hwf ha hb hlow hhigh
    obtain ⟨u, hhighs, hfill⟩ := hclear.ticks (level := true) (by simp [hprev]) (hi - 1)
    rw [addTicks_pulseTicks_high, Nat.zero_add] at hfill
    obtain ⟨t, hrest, hended⟩ := hfill.lowTicks_edge hlo
    rw [Nat.sub_add_cancel hhi] at hended
    obtain ⟨hclosed, hreused, hopen⟩ := hended
    refine ⟨t, ?_, fun hlong => ?_, hreused, hopen false, hopen true⟩
    · rw [List.append_assoc, runOps_append_of_next hhighs, hrest]
    · obtain ⟨hmove, hcounts⟩ := hclosed hlong
      exact ⟨hmove, hcounts true, hcounts false⟩
  case lowPin =>
    intro lo s hlo hwf ha hb _ hlow hhigh
    obtain ⟨t, hrun, hclosed, -, -⟩ := (filling_of_clear hwf ha hb hlow hhigh).lowTicks_edge (by omega : 1 ≤ lo)
    obtain ⟨hmove, hcounts⟩ := hclosed (.inr hlo)
    exact ⟨t, hrun, hmove, BitVec.eq_of_toNat_eq (hcounts true), hcounts false⟩

end Sys2Proof.Proofs
end

section
/-! PROOF. The transmit driver (41_transmit_driver.md R151 to R157): its TICK as a step of the machine, one equation per case of the
mode and the phase, and a reloaded slot followed tick by tick until its end. -/

namespace Sys2Proof.Proofs.Transmit
open Sys2Proof Sys2Proof.Machine Sys2Proof.Proofs.Sampler

variable {i : Instr} {level : Bool} {s t : State}

/-! ## One tick (R151 to R154, R171) -/

/-- The free-running count of a TICK without the sampler (R171, open). -/
def freeCounted (s : State) : State :=
  { s with tickcount := if Config.tickFreeRunning then s.tickcount + 1 else s.tickcount }

/-- What a TICK does besides its driver: it counts and wakes. -/
def ticked (s : State) : State := { freeCounted s with wake := true }

section
variable (hi : i ∈ tickRows level) (ha : s.ocieA = false) (hb : s.ocieB = true)
include hi ha hb

/-- Any row of TICK with the driver armed and the sampler not runs the driver once. -/
theorem exec_tick_of_driver : exec i s = .next { txDriver (freeCounted s) with wake := true } := by
  rw [exec_tickRows hi, tickEvent_driver _ level ha hb]
  rfl

theorem exec_tick_still (hm : s.mode = .idle ∨ s.mode = .receiving) : exec i s = .next (ticked s) := by
  rw [exec_tick_of_driver hi ha hb, txDriver_still (s := freeCounted s) hm]
  rfl

theorem exec_tick_start (hm : s.mode = .startTransmit) :
    exec i s = .next
      { ticked s with
        current := s.msgStart
        txRemLow := ringRead s s.msgStart false
        txRemHigh := ringRead s s.msgStart true
        txBit := true
        mode := .transmitting
        txPin := true } := by
  rw [exec_tick_of_driver hi ha hb, txDriver_start (s := freeCounted s) hm]
  rfl

theorem exec_tick_high (hm : s.mode = .transmitting) (hbit : s.txBit = true) :
    exec i s = .next
      { ticked s with
        txRemHigh := s.txRemHigh - 1
        txBit := decide (s.txRemHigh - 1 ≠ 0)
        txPin := decide (s.txRemHigh - 1 ≠ 0) } := by
  rw [exec_tick_of_driver hi ha hb, txDriver_transmitting (s := freeCounted s) hm,
    txCount_high (s := freeCounted s) hbit]
  rfl

theorem exec_tick_low (hm : s.mode = .transmitting) (hbit : s.txBit = false) (hlow : s.txRemLow - 1 ≠ 0) :
    exec i s = .next { ticked s with txRemLow := s.txRemLow - 1, txPin := false } := by
  rw [exec_tick_of_driver hi ha hb, txDriver_transmitting (s := freeCounted s) hm,
    txCount_low (s := freeCounted s) hbit hlow, ← hbit]
  rfl

theorem exec_tick_reload (hm : s.mode = .transmitting) (hbit : s.txBit = false) (hlow : s.txRemLow - 1 = 0) :
    exec i s = .next
      { ticked s with
        current := s.current + 1
        txRemLow := ringRead s (s.current + 1) false
        txRemHigh := ringRead s (s.current + 1) true
        mode := if s.current + 1 = s.msgEnd then .idle else .transmitting
        txBit := decide (ringRead s (s.current + 1) true ≠ 0)
        txPin := decide (ringRead s (s.current + 1) true ≠ 0) } := by
  rw [exec_tick_of_driver hi ha hb, txDriver_transmitting (s := freeCounted s) hm,
    txCount_reload (s := freeCounted s) hbit hlow, ← hm]
  rfl

end

/-! ## A slot followed tick by tick (R156, R157) -/

/-- How many ticks a low count lasts: it is decremented before it is tested, so 0 lasts 256 (R157). -/
def lowTicks (v : Byte) : Nat := if v = 0 then 256 else v.toNat

theorem lowTicks_pos (v : Byte) : 1 ≤ lowTicks v := by
  unfold lowTicks
  split <;> bv_omega

theorem lowTicks_le (v : Byte) : lowTicks v ≤ 256 := by
  unfold lowTicks
  split <;> bv_omega

theorem toNat_eq_lowTicks_mod (v : Byte) : v.toNat = lowTicks v % 256 := by
  unfold lowTicks
  split <;> bv_omega

/-- All the ticks of the slot whose counts `s` has loaded. -/
def slotTicks (s : State) : Nat := s.txRemHigh.toNat + lowTicks s.txRemLow

/-- `t` is `n` ticks into the slot that `s` has loaded: the high count runs down first, then the low one. -/
structure Replaying (s : State) (n : Nat) (t : State) : Prop where
  samplerOff : t.ocieA = false
  armed : t.ocieB = true
  mode : t.mode = .transmitting
  ring : t.ring = s.ring
  current : t.current = s.current
  msgEnd : t.msgEnd = s.msgEnd
  high : t.txRemHigh.toNat = s.txRemHigh.toNat - n
  low : t.txRemLow.toNat = (lowTicks s.txRemLow - (n - s.txRemHigh.toNat)) % 256
  bit : t.txBit = decide (n < s.txRemHigh.toNat)
  pin : 0 < n → t.txPin = decide (n < s.txRemHigh.toNat)

/-- A reload leaves the slot at its first tick. -/
theorem replaying_zero (ha : s.ocieA = false) (hb : s.ocieB = true) (hm : s.mode = .transmitting)
    (hbit : s.txBit = decide (s.txRemHigh ≠ 0)) : Replaying s 0 s where
  samplerOff := ha
  armed := hb
  mode := hm
  ring := rfl
  current := rfl
  msgEnd := rfl
  high := rfl
  low := by rw [Nat.zero_sub, Nat.sub_zero, ← toNat_eq_lowTicks_mod]
  bit := by rw [hbit, decide_eq_decide]; bv_omega
  pin := fun h => absurd h (Nat.lt_irrefl 0)

variable {n : Nat}

/-- A tick of the high phase. -/
theorem Replaying.highTick (h : Replaying s n t) (hn : n < s.txRemHigh.toNat) :
    ∃ u, exec (.tickTxdriver level) t = .next u ∧ Replaying s (n + 1) u := by
  have hhigh := h.high
  have hlow := h.low
  have hleft : decide (t.txRemHigh - 1 ≠ 0) = decide (n + 1 < s.txRemHigh.toNat) := by
    rw [decide_eq_decide]
    bv_omega
  refine ⟨_, exec_tick_high (level := level) (by simp [tickRows]) h.samplerOff h.armed h.mode
    (h.bit.trans (decide_eq_true hn)), ?_⟩
  exact { samplerOff := h.samplerOff, armed := h.armed, mode := h.mode, ring := h.ring, current := h.current
          msgEnd := h.msgEnd, bit := hleft, pin := fun _ => hleft
          high := by change (t.txRemHigh - 1).toNat = _; bv_omega
          low := by change t.txRemLow.toNat = _; rw [hlow]; congr 2; omega }

/-- A tick of the low phase before its last. -/
theorem Replaying.lowTick (h : Replaying s n t) (hn : s.txRemHigh.toNat ≤ n) (hend : n + 1 < slotTicks s) :
    ∃ u, exec (.tickTxdriver level) t = .next u ∧ Replaying s (n + 1) u := by
  have hhigh := h.high
  have hlow := h.low
  have hle := lowTicks_le s.txRemLow
  unfold slotTicks at hend
  have hbit : t.txBit = false := h.bit.trans (decide_eq_false (by omega))
  have hover : false = decide (n + 1 < s.txRemHigh.toNat) := (decide_eq_false (by omega)).symm
  refine ⟨_, exec_tick_low (level := level) (by simp [tickRows]) h.samplerOff h.armed h.mode hbit (by bv_omega), ?_⟩
  exact { samplerOff := h.samplerOff, armed := h.armed, mode := h.mode, ring := h.ring, current := h.current
          msgEnd := h.msgEnd, bit := hbit.trans hover, pin := fun _ => hover
          high := by change t.txRemHigh.toNat = _; omega
          low := by change (t.txRemLow - 1).toNat = _; bv_omega }

theorem runOps_replicate_succ {u : State} (hrun : runOps (List.replicate n i) s = .next t) (hu : exec i t = .next u) :
    runOps (List.replicate (n + 1) i) s = .next u := by
  rw [List.replicate_succ', runOps_append_of_next hrun, runOps_cons_of_next hu, runOps]

/-- Short of the slot's last tick the slot goes on. -/
theorem Replaying.ticks (h : Replaying s 0 s) (hn : n < slotTicks s) :
    ∃ t, runOps (List.replicate n (.tickTxdriver level)) s = .next t ∧ Replaying s n t := by
  induction n with
  | zero => exact ⟨s, rfl, h⟩
  | succ n ih =>
    obtain ⟨t, hrun, ht⟩ := ih (by omega)
    have hstep : ∃ u, exec (.tickTxdriver level) t = .next u ∧ Replaying s (n + 1) u := by
      by_cases hphase : n < s.txRemHigh.toNat
      · exact ht.highTick hphase
      · exact ht.lowTick (by omega) hn
    obtain ⟨u, hu, hslot⟩ := hstep
    exact ⟨u, runOps_replicate_succ hrun hu, hslot⟩

/-- The next slot is loaded from the ring, and the replay is over at `msg_end` (R152, R153). -/
structure Reloaded (s t : State) : Prop where
  ring : t.ring = s.ring
  current : t.current = s.current + 1
  mode : t.mode = if s.current + 1 = s.msgEnd then .idle else .transmitting
  low : t.txRemLow = ringRead s (s.current + 1) false
  high : t.txRemHigh = ringRead s (s.current + 1) true
  bit : t.txBit = decide (t.txRemHigh ≠ 0)
  pin : t.txPin = t.txBit

/-- The slot's last tick loads the next one. -/
theorem Replaying.lastTick (h : Replaying s n t) (hn : n + 1 = slotTicks s) :
    ∃ u, exec (.tickTxdriver level) t = .next u ∧ Reloaded s u := by
  have hlow := h.low
  have hpos := lowTicks_pos s.txRemLow
  unfold slotTicks at hn
  have hread : ∀ b, ringRead t (t.current + 1) b = ringRead s (s.current + 1) b := fun b => by
    rw [ringRead, ringRead, h.ring, h.current]
  refine ⟨_, exec_tick_reload (level := level) (by simp [tickRows]) h.samplerOff h.armed h.mode
    (h.bit.trans (decide_eq_false (by omega))) (by bv_omega), ?_⟩
  exact { ring := h.ring, current := congrArg (· + 1) h.current, mode := by rw [h.current, h.msgEnd]
          low := hread false, high := hread true, bit := rfl, pin := rfl }

end Sys2Proof.Proofs.Transmit

namespace Sys2Proof.Proofs
open Sys2Proof Sys2Proof.Machine Sys2Proof.Proofs.Sampler Sys2Proof.Proofs.Transmit

/-- Settles O17: short of its last tick the slot runs down its counts, and the last tick is the reload. -/
theorem replayedSlotLength : Obligations.ReplayedSlotLength := by
  intro level s n ha hb hm hbit lo hi hn
  have hstart := replaying_zero ha hb hm hbit
  have htotal : hi + lo = slotTicks s := rfl
  have hpos : 1 ≤ lo := lowTicks_pos s.txRemLow
  by_cases hend : n = hi + lo
  · obtain ⟨m, rfl⟩ : ∃ m, n = m + 1 := ⟨n - 1, by omega⟩
    obtain ⟨t, hrun, ht⟩ := hstart.ticks (level := level) (n := m) (by omega)
    obtain ⟨u, hu, hnext⟩ := ht.lastTick (level := level) (by omega)
    exact ⟨u, runOps_replicate_succ hrun hu, hnext.ring, fun hlt => absurd hend hlt.ne, fun _ =>
      ⟨hnext.current, hnext.mode, hnext.low, hnext.high, hnext.bit, hnext.pin⟩⟩
  · obtain ⟨t, hrun, ht⟩ := hstart.ticks (level := level) (n := n) (by omega)
    exact ⟨t, hrun, ht.ring, fun _ => ⟨ht.current, ht.mode, ht.pin⟩, fun h => absurd h hend⟩

/-- Settles O15: every row of TICK runs the driver, and in StartTransmit the driver is R151. -/
theorem transmitStart : Obligations.TransmitStart :=
  fun _ _ _ hi ha hb hm => exec_tick_start hi ha hb hm

/-- Settles O16: the phase and its count decide which equation of R152 the tick follows. -/
theorem transmitCount : Obligations.TransmitCount := by
  intro i level s hi ha hb hm u
  exact ⟨exec_tick_high hi ha hb hm, exec_tick_low hi ha hb hm, exec_tick_reload hi ha hb hm⟩

/-- Settles O18: the armed driver has no step in Idle and Receiving, and with nothing armed only the free-running count is
left. -/
theorem tickWithoutHandlerEffect : Obligations.TickWithoutHandlerEffect := by
  intro i level s hi ha
  refine ⟨fun hb hm => exec_tick_still hi ha hb hm, fun hb => ?_⟩
  rw [exec_tickRows hi, tickEvent_unarmed _ level ha hb]

end Sys2Proof.Proofs
end

section
/-! PROOF. The transceiver procedures (42_transceiver.md R160 to R163): each of them as a step of the machine, which ends in the
state that the shared procedure of its name leaves. -/

namespace Sys2Proof.Proofs.Transceiver
open Sys2Proof Sys2Proof.Machine

variable (s : State)

theorem exec_enableReceiver : exec .enableReceiver s = .next (enableReceiver s) := rfl

theorem exec_enableTransmitter : exec .enableTransmitter s = .next (enableTransmitter s) := rfl

theorem exec_disableTransceiver : exec .disableTransceiver s = .next (disableTransceiver s) := rfl

end Sys2Proof.Proofs.Transceiver

namespace Sys2Proof.Proofs
open Sys2Proof Sys2Proof.Machine Sys2Proof.Proofs.Transceiver

/-- Settles O56: a procedure stepped alone is the shared one, whose record update names the two enables, the antenna and the mode
and so leaves every other element as it was. -/
theorem transceiverProcedures : Obligations.TransceiverProcedures :=
  fun s => ⟨exec_enableReceiver s, exec_enableTransmitter s, exec_disableTransceiver s⟩

end Sys2Proof.Proofs
end

section
/-! PROOF. The scheduler (43_scheduler.md R171 to R181): which events there are and which of them can move `running_state`, the
move of R177 that each task makes, the queue under UART_RX, and the parts of a DISPATCH that the state does not select. -/

namespace Sys2Proof.Proofs.Scheduler
open Sys2Proof Sys2Proof.Machine

variable {s t : State}

/-! ## The events (R11) -/

theorem isEvent_cases {i : Instr} (h : isEvent i = true) :
    i = .reset ∨ (∃ level, i ∈ tickRows level) ∨ (∃ b, i = .uartRx b) ∨ i = .dispatch := by
  cases i with
  | reset => exact .inl rfl
  | tickSampler level | tickTxdriver level | tickUnarmed level => exact .inr (.inl ⟨level, by simp [tickRows]⟩)
  | uartRx b => exact .inr (.inr (.inl ⟨b, rfl⟩))
  | dispatch => exact .inr (.inr (.inr rfl))
  | _ => cases h

/-- The events that are neither RESET nor DISPATCH (R171, R172) run no task. -/
theorem event_sameTasks {i : Instr} (hi : isEvent i = true) (hr : i ≠ .reset) (hd : i ≠ .dispatch)
    (he : exec i s = .next t) : SameTasks s t := by
  rcases isEvent_cases hi with rfl | ⟨level, hl⟩ | ⟨b, rfl⟩ | rfl
  · contradiction
  · rw [exec_tickRows hl] at he
    cases he
    exact tickEvent_sameTasks _ level s
  · cases he
    exact uartRxEvent_sameTasks _ _ b s
  · contradiction

/-! ## The moves of the tasks (R177) -/

/-- From `r` the table has a move to `r'`, or the two are one. -/
def StaysOrMoves (r r' : RunningState) : Prop := r' = r ∨ taskMoves r r' = true

theorem taskMoves_syncSearch (r : RunningState) :
    taskMoves .syncSearch r = true ↔ isDecoding r = true ∨ r = .receivingCommand := by
  simp [taskMoves]

theorem taskMoves_lockDecoder (k : LockDecoder) (r : RunningState) :
    taskMoves k.state r = true ↔ r = .syncSearch ∨ r = .decodeDone := by
  cases k <;> exact decide_eq_true_iff

theorem syncSearch_moves (hr : s.runningState = .syncSearch) :
    StaysOrMoves .syncSearch (syncSearch s).runningState := by
  obtain ⟨-, -, ⟨hwaits, -⟩ | ⟨hpickup, -⟩ | ⟨hdecoder, -⟩⟩ := syncSearch_out hr
  · exact .inl hwaits
  · exact .inr ((taskMoves_syncSearch _).mpr (.inr hpickup))
  · exact .inr ((taskMoves_syncSearch _).mpr (.inl hdecoder))

theorem lockDecoder_moves (k : LockDecoder) (hr : s.runningState = k.state) :
    StaysOrMoves k.state (k.run s).runningState := by
  obtain ⟨-, -, ⟨hgoesOn, -⟩ | ⟨hfailed, -⟩ | ⟨hdone, -⟩⟩ := k.run_out s
  · exact .inl (hgoesOn.trans hr)
  · exact .inr ((taskMoves_lockDecoder k _).mpr (.inl hfailed))
  · exact .inr ((taskMoves_lockDecoder k _).mpr (.inr hdone))

theorem decodePulses_moves (hr : s.runningState = .decodeRawPulses) :
    StaysOrMoves .decodeRawPulses (decodePulses s).runningState := by
  obtain ⟨-, -, ⟨hgoesOn, -⟩ | ⟨hdone, -⟩⟩ := decodePulses_out s
  · exact .inl (hgoesOn.trans hr)
  · exact .inr (decide_eq_true hdone)

theorem trailer_moves (s : State) : StaysOrMoves .decodeDone (trailer s).runningState := .inr rfl

theorem receiveCommand_moves (hr : s.runningState = .receivingCommand) :
    StaysOrMoves .receivingCommand (receiveCommand s).runningState := by
  obtain ⟨-, ⟨hinLine, -⟩ | ⟨hleft, -⟩⟩ := receiveCommand_out hr
  · exact .inl hinLine
  · exact .inr (decide_eq_true hleft)

theorem runTask_moves (s : State) : StaysOrMoves s.runningState (runTask s).runningState := by
  unfold runTask
  split
  case h_1 hr => exact hr ▸ syncSearch_moves hr
  case h_2 hr => exact hr ▸ lockDecoder_moves .ask hr
  case h_3 hr => exact hr ▸ lockDecoder_moves .ook hr
  case h_4 hr => exact hr ▸ lockDecoder_moves .man hr
  case h_5 hr => exact hr ▸ decodePulses_moves hr
  case h_6 hr => exact hr ▸ trailer_moves s
  case h_7 hr => exact hr ▸ receiveCommand_moves hr

/-! ## DISPATCH (R173, R175) -/

/-- The state whose task a DISPATCH runs: the parser's, if it cancels a decode. -/
def dispatchedState (s : State) : RunningState :=
  if s.wake = true ∧ isDecoding s.runningState = true ∧ s.uartRxQ ≠ [] then .receivingCommand else s.runningState

theorem exec_dispatch (s : State) : exec .dispatch s = .next (dispatchEvent s) := rfl

theorem dispatchEvent_cancel (hw : s.wake = true) (hc : isDecoding s.runningState = true ∧ s.uartRxQ ≠ []) :
    dispatchEvent s = receiveCommand (cancelDecode { s with wake := false }) :=
  (dispatchEvent_awake hw).trans (dispatchTask_cancel (s := { s with wake := false }) (cancelDue_iff.mpr hc))

theorem dispatchEvent_task (hw : s.wake = true) (hc : ¬(isDecoding s.runningState = true ∧ s.uartRxQ ≠ [])) :
    dispatchEvent s = runTask { s with wake := false } :=
  (dispatchEvent_awake hw).trans (dispatchTask_task (s := { s with wake := false }) (mt cancelDue_iff.mp hc))

theorem dispatchEvent_moves (s : State) : StaysOrMoves (dispatchedState s) (dispatchEvent s).runningState := by
  unfold dispatchedState
  cases hw : s.wake with
  | false =>
    rw [dispatchEvent_asleep hw, if_neg (by simp)]
    exact .inl rfl
  | true =>
    by_cases hc : isDecoding s.runningState = true ∧ s.uartRxQ ≠ []
    · rw [dispatchEvent_cancel hw hc, if_pos ⟨rfl, hc⟩]
      exact receiveCommand_moves rfl
    · rw [dispatchEvent_task hw hc, if_neg fun ⟨_, h⟩ => hc h]
      exact runTask_moves { s with wake := false }

/-! ## UART_RX (R172, R87) -/

theorem queueFull_iff {depth : Option Nat} {n : Nat} :
    queueFull depth n = true ↔ ∃ d, depth = some d ∧ d ≤ n := by
  cases depth <;> simp [queueFull]

theorem uartRxEvent_of_full {depth : Option Nat} (choice : Nat → Bool) (b : Byte)
    (h : queueFull depth s.uartRxQ.length = true) :
    uartRxEvent depth choice b s =
      { s with
        uartRxQ := if choice s.freeIx then s.uartRxQ else (s.uartRxQ ++ [b]).drop 1
        freeIx := s.freeIx + 1
        wake := true } := by
  unfold uartRxEvent uartRxAppend
  rw [if_pos h]

theorem uartRxEvent_of_room {depth : Option Nat} (choice : Nat → Bool) (b : Byte)
    (h : ¬(queueFull depth s.uartRxQ.length = true)) :
    uartRxEvent depth choice b s = { s with uartRxQ := s.uartRxQ ++ [b], wake := true } := by
  unfold uartRxEvent uartRxAppend
  rw [if_neg h]

/-! ## Inbound operations (log 5) -/

/-- An inbound operation is the parser's reading of its bytes. -/
theorem exec_inbound {i : Instr} {bytes : List Byte} (h : inboundBytes i = some bytes) (s : State) :
    exec i s = .next (parserReads bytes s) := by
  cases i with
  | ma | mm | mp | payloadA | payloadM | payloadP | syncdur | bitcount | check | eol | pulse | demod | stack
  | unexpected =>
    cases h
    rfl
  | _ => cases h

theorem cpReading_eq_false (h : s.runningState ≠ .receivingCommand ∨ s.cpPhase = .txStart ∨ s.cpPhase = .txWait) :
    cpReading s = false := by
  refine Bool.eq_false_iff.mpr fun hc => ?_
  obtain ⟨hr, hstart, hwait⟩ := cpReading_iff.mp hc
  rcases h with h | h | h
  · exact h hr
  · exact hstart h
  · exact hwait h

end Sys2Proof.Proofs.Scheduler

namespace Sys2Proof.Proofs
open Sys2Proof Sys2Proof.Machine Sys2Proof.Proofs.Scheduler

/-- Settles O8: only a DISPATCH runs a task, and each way out of a task stays or is a row of the table. -/
theorem runningStateFollowsTable : Obligations.RunningStateFollowsTable := by
  intro i s t hi he
  refine ⟨?reset, ?still, ?dispatch⟩
  case reset =>
    rintro rfl
    cases he
    rfl
  case still => exact fun hr hd => (event_sameTasks hi hr hd he).runningState
  case dispatch =>
    rintro rfl
    cases he
    exact dispatchEvent_moves s

/-- Settles O19: whether the queue is full decides which disjunct holds, and the free choice which byte is lost. -/
theorem uartRxAppends : Obligations.UartRxAppends := by
  intro b s
  by_cases hfull : queueFull Config.uartRxDepth s.uartRxQ.length = true
  · exact ⟨_, _, congrArg _ (uartRxEvent_of_full _ b hfull), .inr ⟨ite_eq_or_eq _ _ _, rfl, queueFull_iff.mp hfull⟩⟩
  · have hroom : ∀ d, Config.uartRxDepth = some d → s.uartRxQ.length < d := fun d hd =>
      Nat.lt_of_not_le fun hle => hfull (queueFull_iff.mpr ⟨d, hd, hle⟩)
    exact ⟨_, s.freeIx, congrArg _ (uartRxEvent_of_room _ b hfull), .inl ⟨rfl, rfl, hroom⟩⟩

/-- Settles O20: the cancellation check comes before the task, and each is what its own operation does with `wake` cleared. -/
theorem dispatchRunsNamedTask : Obligations.DispatchRunsNamedTask := by
  intro s
  refine ⟨?asleep, ?awake⟩
  case asleep =>
    intro hw
    rw [exec_dispatch, dispatchEvent_asleep hw]
  case awake =>
    intro hw u
    refine ⟨dispatchEvent s, exec_dispatch s, ?cancels, ?runs⟩
    case cancels =>
      intro hc
      rw [dispatchEvent_cancel hw hc]
      exact exec_dispatchCancel rfl (cancelDue_iff.mpr hc)
    case runs =>
      intro hc
      rw [dispatchEvent_task hw hc]
      exact exec_targetOf rfl

/-- Settles O21: the state the parser starts from is the one `cancelDecode` leaves. -/
theorem cancellationRunsParser : Obligations.CancellationRunsParser := fun _ s hcode hdec hq =>
  ⟨receiveCommand (cancelDecode s), exec_dispatchCancel hcode (cancelDue_iff.mpr ⟨hdec, hq⟩),
    exec_dispatchReceiveCommand rfl⟩

/-- Settles O22: a target tests `running_state`, a cancellation its selector and the queue, an inbound operation whether the
parser is reading. -/
theorem unselectedOperationChangesNothing : Obligations.UnselectedOperationChangesNothing := by
  refine ⟨?target, ?cancellation, ?inbound⟩
  case target => exact fun r s h => exec_targetOf_other h
  case cancellation =>
    intro sss s h
    exact exec_dispatchCancel_other (by rwa [cancelDue_iff])
  case inbound =>
    intro i bytes s hi h
    rw [exec_inbound hi, parserReads_not (cpReading_eq_false h)]

end Sys2Proof.Proofs
end

section
/-! PROOF. The searcher's step (44_sync_search.md): where it ends the step, and where a step is the step of a later state. -/

namespace Sys2Proof.Proofs.Search
open Sys2Proof Sys2Proof.Machine

variable {s : State} {q0 q1 : Int}

/-! ## The elements that select a search, after a pulse and after a restart -/

@[simp] theorem examined_runningState : (examined q0 q1 s).runningState = s.runningState := by
  unfold examined
  dsimp only
  split <;> rfl

@[simp] theorem examined_ssPhase : (examined q0 q1 s).ssPhase = s.ssPhase := by
  unfold examined
  dsimp only
  split <;> rfl

theorem ssRestart_eq_restarted : ssRestart s = restarted s := rfl

/-! ## The branches of a search (R202) -/

/-- The step of a search is a run of the pulse loop. -/
theorem exec_search (hr : s.runningState = .syncSearch) (hp : s.ssPhase = .search) :
    exec .dispatchSyncSearch s = .next (ssLoop Config.ringSlots s) := by
  rw [exec_dispatchSyncSearch hr, syncSearch_search hp]

theorem ssLoop_pickup (hc : s.syncLen = 0 ∧ s.uartRxQ ≠ []) : ssLoop Config.ringSlots s = ssPickup s := by
  rw [← rxAvail_iff] at hc
  rw [ssLoop_unfold, if_pos hc]

theorem ssLoop_wait (hc : ¬(s.syncLen = 0 ∧ s.uartRxQ ≠ [])) (hw : s.ssPi = s.current) :
    ssLoop Config.ringSlots s = s := by
  rw [← rxAvail_iff] at hc
  rw [ssLoop_unfold, if_neg hc, if_pos hw]

/-- With a pulse to examine the loop classifies after it, or goes on after it. -/
theorem ssLoop_pulse (hc : ¬(s.syncLen = 0 ∧ s.uartRxQ ≠ [])) (hw : s.ssPi ≠ s.current)
    (hn : Normalized (ringRead s s.ssPi false).toNat (ringRead s s.ssPi true).toNat s.syncDuration.toNat q0 q1) :
    ssLoop Config.ringSlots s =
      if (examined q0 q1 s).syncLen = 8 then classified (examined q0 q1 s)
      else ssLoop Config.ringSlots (examined q0 q1 s) := by
  rw [← rxAvail_iff] at hc
  rw [ssLoop_unfold, if_neg hc, if_neg hw, ssExamine_eq hn, ssClassify_eq]
  rfl

end Sys2Proof.Proofs.Search

namespace Sys2Proof.Proofs
open Sys2Proof Sys2Proof.Machine Sys2Proof.Proofs.Search

/-- Settles O23: the loop's first two tests, each of which ends the step. -/
theorem searcherPicksUpOrWaits : Obligations.SearcherPicksUpOrWaits := by
  intro s hr hp
  refine ⟨?pickup, ?wait⟩
  case pickup =>
    intro hc
    rw [exec_search hr hp, ssLoop_pickup hc]
    rfl
  case wait =>
    intro hc hw
    rw [exec_search hr hp, ssLoop_wait hc hw]

/-- Settles O24: the state after the pulse is still in a search, and its step is the rest of the loop. -/
theorem searcherExaminesOnePulse : Obligations.SearcherExaminesOnePulse := by
  intro q0 q1 s hr hp hc hw hn h8
  have rest : ssLoop Config.ringSlots s = ssLoop Config.ringSlots (examined q0 q1 s) := by
    rw [ssLoop_pulse hc hw hn, if_neg h8]
  exact ⟨ssLoop Config.ringSlots s, exec_search hr hp,
    rest ▸ exec_search (examined_runningState.trans hr) (examined_ssPhase.trans hp)⟩

/-- Settles O25: the eighth match takes the loop's classifying branch, which ends the step. -/
theorem searcherClassifies : Obligations.SearcherClassifies := by
  intro q0 q1 s hr hp hc hw hn h8
  rw [exec_search hr hp, ssLoop_pulse hc hw hn, if_pos h8]

/-- Settles O26: the retry is made when `retryDue`; every other resumption is a search from the restarted state. -/
theorem searcherResumes : Obligations.SearcherResumes := by
  intro s hr
  refine ⟨?retry, ?restart⟩
  case retry =>
    intro hp hdue
    rw [exec_dispatchSyncSearch hr, syncSearch_retry hp (retryDue_iff.mpr hdue)]
    rfl
  case restart =>
    intro h
    have hover : s.ssPhase = .restart ∨ (s.ssPhase = .awaitDecoder ∧ retryDue s = false) :=
      h.imp_right fun ⟨hp, hnot⟩ => ⟨hp, Bool.eq_false_iff.mpr (hnot ∘ retryDue_iff.mp)⟩
    refine ⟨ssLoop Config.ringSlots (restarted s), ?_, exec_search hr rfl⟩
    rw [exec_dispatchSyncSearch hr, syncSearch_restart hover, ssRestart_eq_restarted]

end Sys2Proof.Proofs
end

section
/-! PROOF. The lock-in of the three decoders and the ASK decoder (45_decode_ask.md R210 to R216, 46 R222, R223, 47 R233, R234): a
step in lock-in for the three at once, the outbound headers, and the ASK emission loop. -/

namespace Sys2Proof.Proofs.Decode
open Sys2Proof Sys2Proof.Machine

variable {k : LockDecoder} {s t : State}

/-! ## The step of a decoder with a lock-in -/

/-- A step that goes on as from a later state of the same decoder answers what it answers from there. -/
theorem exec_op_of_run_eq (hs : s.runningState = k.state) (ht : t.runningState = k.state) (h : k.run s = k.run t) :
    ∃ u, exec k.op s = .next u ∧ exec k.op t = .next u :=
  ⟨k.run t, h ▸ LockDecoder.exec_op hs, LockDecoder.exec_op ht⟩

@[simp] theorem committed_runningState (k : LockDecoder) (s : State) : (k.committed s).runningState = s.runningState := by
  cases k <;> rfl

/-- The state after a pulse that passes the test: counted and stepped over (R211). -/
def counted (s : State) : State := { s with decN := s.decN + 1, decPi := s.decPi + 1 }

/-- The state the step goes on from: the pulse counted, and committed when it was the last one needed (R213). -/
def countedOrCommitted (k : LockDecoder) (s : State) : State :=
  if s.decN.toNat + 1 = k.need then k.committed (counted s) else counted s

theorem countedOrCommitted_runningState (k : LockDecoder) (s : State) :
    (countedOrCommitted k s).runningState = s.runningState := by
  unfold countedOrCommitted
  split
  · exact committed_runningState k (counted s)
  · rfl

/-- The first failing pulse ends the attempt one past itself (R212, R312). -/
theorem run_eq_failed (hp : s.decPhase = .lockIn) (hn : s.decN.toNat < k.need) (hw : s.decPi ≠ s.current)
    (hbad : k.good s.syncDuration.toNat (ringRead s s.decPi false).toNat (ringRead s s.decPi true).toNat = false) :
    k.run s = { s with decoded := false, msgStart := s.decPi + 1, decPhase := .idle, runningState := .syncSearch } := by
  rw [k.run_fails hp hn hw ((k.valid_eq _ _ _).trans hbad), raiseLockInFailure, inc8_eq]

/-- A valid pulse short of the last one is counted; the last one commits at once, since the count then suffices (R211, R213). -/
theorem run_eq_countedOrCommitted (hp : s.decPhase = .lockIn) (hn : s.decN.toNat < k.need) (hw : s.decPi ≠ s.current)
    (hgood : k.good s.syncDuration.toNat (ringRead s s.decPi false).toNat (ringRead s s.decPi true).toNat = true) :
    k.run s = k.run (countedOrCommitted k s) := by
  have hcount : k.run s = k.run (counted s) := by
    rw [k.run_counts hp hn hw ((k.valid_eq _ _ _).trans hgood), inc8_eq, counted]
  unfold countedOrCommitted
  split
  next hlast =>
    have hle := k.need_le
    have henough : k.need ≤ (counted s).decN.toNat := by
      rw [counted, succ_toNat6 (by omega), hlast]
    exact hcount.trans (k.run_commits (s := counted s) hp henough)
  next => exact hcount

/-! ## The outbound headers (R213, R223, R234, R245) -/

theorem exec_outMa (s : State) : exec .outMa s = .next (LockDecoder.committed .ask s) :=
  congrArg Host.Outcome.next (LockDecoder.commitOf_eq .ask s)

theorem exec_outMo (s : State) : exec .outMo s = .next (LockDecoder.committed .ook s) :=
  congrArg Host.Outcome.next (LockDecoder.commitOf_eq .ook s)

theorem exec_outMm (s : State) : exec .outMm s = .next (LockDecoder.committed .man s) :=
  congrArg Host.Outcome.next (LockDecoder.commitOf_eq .man s)

theorem exec_outMp (s : State) : exec .outMp s = .next (commit .p s) := rfl

/-! ## The ASK emission loop (R214, R215) -/

@[simp] theorem stuffBit_decPi (b : Bool) (s : State) : (stuffBit b s).decPi = s.decPi := by
  obtain ⟨_, _, _, _, h⟩ := stuffBit_frame b s
  rw [h]

@[simp] theorem stuffBit_decPhase (b : Bool) (s : State) : (stuffBit b s).decPhase = s.decPhase := by
  obtain ⟨_, _, _, _, h⟩ := stuffBit_frame b s
  rw [h]

@[simp] theorem stuffBit_runningState (b : Bool) (s : State) : (stuffBit b s).runningState = s.runningState := by
  obtain ⟨_, _, _, _, h⟩ := stuffBit_frame b s
  rw [h]

theorem exec_dispatchDecodeAsk_emit (hr : s.runningState = .decodingAsk) (hp : s.decPhase = .emit) :
    exec .dispatchDecodeAsk s = .next (askEmit s) :=
  LockDecoder.exec_emit (k := .ask) hr hp

theorem askEmit_wait (hw : s.decPi = s.current) : askEmit s = s := by
  rw [askEmit_unfold, if_pos hw]

theorem askEmit_saturated (hw : s.decPi ≠ s.current) (hsat : ringRead s s.decPi false = 255) :
    askEmit s = endedAt (s.decPi + 1) s := by
  rw [askEmit_unfold, if_neg hw, if_pos hsat, finishBits_eq]

theorem askEmit_pulse (hw : s.decPi ≠ s.current) (hsat : ringRead s s.decPi false ≠ 255) :
    askEmit s =
      askEmit
        { stuffBit (decide ((ringRead s s.decPi false).toNat < (ringRead s s.decPi true).toNat)) s with
          decPi := s.decPi + 1 } := by
  rw [askEmit_unfold, if_neg hw, if_neg hsat, askPulse, decAdvance, inc8_eq, stuffBit_decPi]

end Sys2Proof.Proofs.Decode

namespace Sys2Proof.Proofs
open Sys2Proof Sys2Proof.Machine Sys2Proof.Proofs.Decode

/-- Settles O28: each clause is the equation of the run in lock-in for that case, for the three decoders at once. -/
theorem lockInEntersWaitsAndFails : Obligations.LockInEntersWaitsAndFails := by
  intro k s hr
  refine ⟨?entry, ?wait, ?fail⟩
  case entry =>
    intro hp
    exact exec_op_of_run_eq hr hr (k.run_idle hp)
  case wait =>
    intro hp hn hw
    rw [LockDecoder.exec_op hr, k.run_waits hp hn hw]
  case fail =>
    intro hp hn hw hbad
    rw [LockDecoder.exec_op hr, run_eq_failed hp hn hw hbad]

/-- Settles O29: the run goes on from the counted state, and from the committed one when the count suffices; neither counting nor
committing leaves the decoder. -/
theorem lockInCountsAndCommits : Obligations.LockInCountsAndCommits := by
  intro k s hr hp hn hw hgood
  exact exec_op_of_run_eq (t := countedOrCommitted k s) hr ((countedOrCommitted_runningState k s).trans hr)
    (run_eq_countedOrCommitted hp hn hw hgood)

/-- Settles O30: one iteration of the emission loop in each of its three cases; a stuffed bit leaves the decoder in the loop. -/
theorem askEmits : Obligations.AskEmits := by
  intro s hr hp
  rw [exec_dispatchDecodeAsk_emit hr hp]
  refine ⟨?wait, ?saturated, ?pulse⟩
  case wait =>
    intro hw
    rw [askEmit_wait hw]
  case saturated =>
    intro hw hsat
    rw [askEmit_saturated hw hsat]
  case pulse =>
    intro hw hsat b
    have hr' : (stuffBit b s).runningState = .decodingAsk := (stuffBit_runningState b s).trans hr
    have hp' : (stuffBit b s).decPhase = .emit := (stuffBit_decPhase b s).trans hp
    exact ⟨askEmit s, rfl, askEmit_pulse hw hsat ▸ exec_dispatchDecodeAsk_emit hr' hp'⟩

/-- Settles O57: a header stepped alone is the commit of its decoder; that of the raw dumper is `commit` itself. -/
theorem outboundHeadersCommit : Obligations.OutboundHeadersCommit :=
  fun s => ⟨exec_outMa s, exec_outMo s, exec_outMm s, exec_outMp s⟩

end Sys2Proof.Proofs
end

section
/-! PROOF. The OOK decoder's emission loop (46_decode_ook.md R224, R225). -/

namespace Sys2Proof.Proofs.Decode
open Sys2Proof Sys2Proof.Machine

variable {s : State}

/-- The bits of the pulse at `dec_pi`, the low count's first, over the integers (R220, R224). -/
def ookStuffed (s : State) : State :=
  let sd : Int := s.syncDuration.toNat
  let u := if near sd (ringRead s s.decPi false).toNat sd then stuffBit false s else s
  if near sd (ringRead s s.decPi true).toNat sd then stuffBit true u else u

theorem ookPulse_eq_ookStuffed (s : State) :
    ookPulse (ringRead s s.decPi false) (ringRead s s.decPi true) s = ookStuffed s := by
  simp only [ookPulse, ookStuffed, ookNear_eq]

/-- The bits of an OOK pulse write the emitter's elements only (R224). -/
theorem ookStuffed_frame (s : State) :
    ∃ acc n c out, ookStuffed s =
      { s with byteAccumulator := acc, bitCount := n, checksum := c, uartTx := out } :=
  ookPulse_eq_ookStuffed s ▸ ookPulse_frame (ringRead s s.decPi false) (ringRead s s.decPi true) s

@[simp] theorem ookStuffed_decPi (s : State) : (ookStuffed s).decPi = s.decPi := by
  obtain ⟨_, _, _, _, h⟩ := ookStuffed_frame s
  rw [h]

@[simp] theorem ookStuffed_decPhase (s : State) : (ookStuffed s).decPhase = s.decPhase := by
  obtain ⟨_, _, _, _, h⟩ := ookStuffed_frame s
  rw [h]

@[simp] theorem ookStuffed_runningState (s : State) : (ookStuffed s).runningState = s.runningState := by
  obtain ⟨_, _, _, _, h⟩ := ookStuffed_frame s
  rw [h]

theorem exec_dispatchDecodeOok_emit (hr : s.runningState = .decodingOok) (hp : s.decPhase = .emit) :
    exec .dispatchDecodeOok s = .next (ookEmit s) :=
  LockDecoder.exec_emit (k := .ook) hr hp

theorem ookEmit_wait (hw : s.decPi = s.current) : ookEmit s = s := by
  rw [ookEmit_unfold, if_pos hw]

theorem ookEmit_saturated (hw : s.decPi ≠ s.current) (hsat : ringRead s s.decPi false = 255) :
    ookEmit s = endedAt (s.decPi + 1) s := by
  rw [ookEmit_unfold, if_neg hw, if_pos hsat, finishBits_eq]

theorem ookEmit_pulse (hw : s.decPi ≠ s.current) (hsat : ringRead s s.decPi false ≠ 255) :
    ookEmit s = ookEmit { ookStuffed s with decPi := s.decPi + 1 } := by
  rw [ookEmit_unfold, if_neg hw, if_neg hsat, ookPulse_eq_ookStuffed, decAdvance, inc8_eq, ookStuffed_decPi]

end Sys2Proof.Proofs.Decode

namespace Sys2Proof.Proofs
open Sys2Proof Sys2Proof.Machine Sys2Proof.Proofs.Decode

/-- Settles O31: one iteration of the emission loop in each of its three cases; the two bits of a pulse leave the decoder in the
loop. -/
theorem ookEmits : Obligations.OokEmits := by
  intro s hr hp
  rw [exec_dispatchDecodeOok_emit hr hp]
  refine ⟨?wait, ?saturated, ?pulse⟩
  case wait =>
    intro hw
    rw [ookEmit_wait hw]
  case saturated =>
    intro hw hsat
    rw [ookEmit_saturated hw hsat]
  case pulse =>
    intro hw hsat
    have hr' : (ookStuffed s).runningState = .decodingOok := (ookStuffed_runningState s).trans hr
    have hp' : (ookStuffed s).decPhase = .emit := (ookStuffed_decPhase s).trans hp
    exact ⟨ookEmit s, rfl, ookEmit_pulse hw hsat ▸ exec_dispatchDecodeOok_emit hr' hp'⟩

end Sys2Proof.Proofs
end

section
/-! PROOF. The Manchester decoder (47_decode_manchester.md R235 to R237): one iteration of the half-pulse loop, `CatchUp` in its
three cases, and the half-bit clocks that a half-pulse leaves at most one apart. -/

namespace Sys2Proof.Proofs.Manchester
open Sys2Proof Sys2Proof.Machine

variable {s : State}

/-! ## CatchUp (R237) -/

@[simp] theorem catchUp_mPhase (s : State) : (catchUp s).mPhase = s.mPhase := by
  obtain ⟨_, _, _, _, _, h⟩ := catchUp_frame s
  rw [h]

@[simp] theorem catchUp_decPi (s : State) : (catchUp s).decPi = s.decPi := by
  obtain ⟨_, _, _, _, _, h⟩ := catchUp_frame s
  rw [h]

@[simp] theorem catchUp_decPhase (s : State) : (catchUp s).decPhase = s.decPhase := by
  obtain ⟨_, _, _, _, _, h⟩ := catchUp_frame s
  rw [h]

@[simp] theorem catchUp_runningState (s : State) : (catchUp s).runningState = s.runningState := by
  obtain ⟨_, _, _, _, _, h⟩ := catchUp_frame s
  rw [h]

@[simp] theorem catchUp_syncDuration (s : State) : (catchUp s).syncDuration = s.syncDuration := by
  obtain ⟨_, _, _, _, _, h⟩ := catchUp_frame s
  rw [h]

theorem catchUp_equal (h : s.stuffClock = s.demiClock) : catchUp s = s := if_neg (not_not_intro h)

theorem catchUp_behind (h : s.stuffClock ≠ s.demiClock) :
    catchUp s = { catchUpBit s with stuffClock := (catchUpBit s).stuffClock + 1 } := by
  rw [catchUp, if_pos h, stuffAdvance, inc8_eq]

theorem catchUp_odd (h : s.stuffClock ≠ s.demiClock) (hodd : s.stuffClock.toNat % 2 = 1) :
    catchUp s = { stuffBit s.mBit s with stuffClock := s.stuffClock + 1 } := by
  have hbit : catchUpBit s = stuffBit s.mBit s := if_pos hodd
  obtain ⟨_, _, _, _, hf⟩ := stuffBit_frame s.mBit s
  rw [catchUp_behind h, hbit, hf]

theorem catchUp_even (h : s.stuffClock ≠ s.demiClock) (heven : s.stuffClock.toNat % 2 = 0) :
    catchUp s = { s with stuffClock := s.stuffClock + 1 } := by
  have hbit : catchUpBit s = s := if_neg (by omega)
  rw [catchUp_behind h, hbit]

/-! ## The clocks (R237) -/

/-- From clocks at most one half-bit apart, `CatchUp` makes them equal. -/
theorem catchUp_closes (h : ClocksAgree s) : (catchUp s).stuffClock = s.demiClock := by
  obtain ⟨-, hstuff⟩ := catchUp_clocks s
  rw [hstuff]
  split
  next heq => exact heq
  next hne =>
    have hone : s.demiClock - s.stuffClock = 1 := h.resolve_left fun h0 => hne (by bv_omega)
    bv_omega

/-- `CatchUp` takes one half-bit off a distance of one or two. -/
theorem catchUp_agrees (h : s.demiClock = s.stuffClock + 1 ∨ s.demiClock = s.stuffClock + 2) :
    ClocksAgree (catchUp s) := by
  have hne : s.stuffClock ≠ s.demiClock := by bv_omega
  obtain ⟨hdemi, hstuff⟩ := catchUp_clocks s
  unfold ClocksAgree
  rw [hdemi, hstuff, if_neg hne]
  bv_omega

/-- A half-pulse keeps the clocks at most one half-bit apart: level after the first `CatchUp`, one or two apart after the half is
counted, and one less after the second. -/
theorem manHalf_agrees (h : ClocksAgree s) : ClocksAgree (manHalf s) := by
  have hfirst : (catchUp s).demiClock = (catchUp s).stuffClock := (catchUp_clocks s).1.trans (catchUp_closes h).symm
  obtain ⟨hs, hd⟩ := manLatch_clocks (ringRead s s.decPi s.mPhase) (catchUp s)
  have hsecond : ClocksAgree (catchUp (manLatch (ringRead s s.decPi s.mPhase) (catchUp s))) := by
    refine catchUp_agrees ?_
    rw [hs, ← hfirst]
    exact hd
  obtain ⟨hs', hd'⟩ := manFlip_clocks (catchUp (manLatch (ringRead s s.decPi s.mPhase) (catchUp s)))
  unfold ClocksAgree manHalf
  rw [hs', hd']
  exact hsecond

/-- A run of the loop that has not ended the message keeps the clocks together. -/
theorem manEmit_agrees (h : ClocksAgree s) (hp : (manEmit s).decPhase = .emit) : ClocksAgree (manEmit s) := by
  refine manLoop_induct (P := fun t => ClocksAgree t) (Q := fun t => t.decPhase = .emit → ClocksAgree t) ?fuel h
    ?half ?guard ?wait ?stop hp
  case fuel =>
    have := manLeft_le s
    simp only [Config.ringSlots]
    omega
  case half => exact fun _ ht _ _ _ => manHalf_agrees ht
  case guard => exact fun _ _ _ hemit => nomatch hemit
  case wait => exact fun _ ht _ _ => ht
  case stop => exact fun _ _ _ hemit => nomatch hemit

theorem committed_agrees (s : State) : ClocksAgree (LockDecoder.man.committed s) :=
  .inl (BitVec.sub_self (0 : Byte))

/-- A run of the decoder that ends in its emission phase: resumed there, or committed with both clocks at 0. -/
theorem run_agrees (h : s.decPhase = .emit → ClocksAgree s) (hp : (LockDecoder.man.run s).decPhase = .emit) :
    ClocksAgree (LockDecoder.man.run s) := by
  rcases LockDecoder.man.run_cases s with ⟨hemit, he⟩ | ⟨-, a, c, he | he | he⟩ <;> rw [he] at hp ⊢
  · exact manEmit_agrees (h hemit) hp
  · cases hp
  · cases hp
  · exact manEmit_agrees (committed_agrees _) hp

/-! ## One half-pulse (R236) -/

/-- The half-pulse `x` consumed, over the integers: a full-clock half latches the phase and counts twice. -/
def halfCounted (x : Byte) (s : State) : State :=
  { s with
    mBit :=
      if (((x.toNat : Int) - s.syncDuration.toNat).natAbs : Int) < (s.syncDuration.toNat : Int) / 4 then s.mPhase
      else s.mBit
    demiClock :=
      if (((x.toNat : Int) - s.syncDuration.toNat).natAbs : Int) < (s.syncDuration.toNat : Int) / 4 then
        s.demiClock + 2
      else s.demiClock + 1 }

theorem manLatch_eq_halfCounted (x : Byte) (s : State) : manLatch x s = halfCounted x s := by
  unfold manLatch halfCounted
  simp only [manFull_iff, inc8_eq, BitVec.add_assoc]
  split <;> rfl

/-- The half-pulse at `dec_pi` consumed between two `CatchUp`s, the phase not yet flipped. -/
def halfConsumed (s : State) : State := catchUp (halfCounted (ringRead s s.decPi s.mPhase) (catchUp s))

theorem halfConsumed_mPhase (s : State) : (halfConsumed s).mPhase = s.mPhase := by
  simp [halfConsumed, halfCounted]

theorem halfConsumed_decPi (s : State) : (halfConsumed s).decPi = s.decPi := by
  simp [halfConsumed, halfCounted]

/-- The state after one half-pulse: the phase flips, and the high half is the pulse's last. -/
def halfDone (s : State) : State :=
  if s.mPhase then { halfConsumed s with mPhase := false, decPi := s.decPi + 1 }
  else { halfConsumed s with mPhase := true }

theorem manHalf_eq_halfDone (s : State) : manHalf s = halfDone s := by
  change manFlip (catchUp (manLatch _ (catchUp s))) = _
  rw [manLatch_eq_halfCounted]
  change manFlip (halfConsumed s) = _
  rw [manFlip, halfDone, halfConsumed_mPhase, inc8_eq, ← halfConsumed_decPi s]

@[simp] theorem halfDone_runningState (s : State) : (halfDone s).runningState = s.runningState := by
  unfold halfDone
  split <;> simp [halfConsumed, halfCounted]

@[simp] theorem halfDone_decPhase (s : State) : (halfDone s).decPhase = s.decPhase := by
  unfold halfDone
  split <;> simp [halfConsumed, halfCounted]

/-! ## The loop's four cases (R235) -/

theorem exec_dispatchDecodeManchester (hr : s.runningState = .decodingManchester) :
    exec .dispatchDecodeManchester s = .next (LockDecoder.man.run s) :=
  LockDecoder.exec_op (k := .man) hr

theorem exec_dispatchDecodeManchester_emit (hr : s.runningState = .decodingManchester) (hp : s.decPhase = .emit) :
    exec .dispatchDecodeManchester s = .next (manEmit s) :=
  LockDecoder.exec_emit (k := .man) hr hp

theorem manEmit_guard (hb : Config.manGuard ≤ s.bitCount.toNat) : manEmit s = endedAt s.decPi s := by
  rw [manEmit_unfold, if_pos hb]
  rfl

theorem manEmit_wait (hb : s.bitCount.toNat < Config.manGuard) (hw : s.decPi = s.current) : manEmit s = s := by
  rw [manEmit_unfold, if_neg (Nat.not_le_of_lt hb), if_pos hw]

theorem manEmit_saturated (hb : s.bitCount.toNat < Config.manGuard) (hw : s.decPi ≠ s.current)
    (hsat : s.mPhase = false ∧ ringRead s s.decPi false = 255) : manEmit s = endedAt (s.decPi + 1) s := by
  rw [manEmit_unfold, if_neg (Nat.not_le_of_lt hb), if_neg hw, if_pos hsat, finishBits_eq]

theorem manEmit_half (hb : s.bitCount.toNat < Config.manGuard) (hw : s.decPi ≠ s.current)
    (hsat : ¬(s.mPhase = false ∧ ringRead s s.decPi false = 255)) : manEmit s = manEmit (halfDone s) := by
  rw [manEmit_unfold, if_neg (Nat.not_le_of_lt hb), if_neg hw, if_neg hsat, manHalf_eq_halfDone]

end Sys2Proof.Proofs.Manchester

namespace Sys2Proof.Proofs
open Sys2Proof Sys2Proof.Machine Sys2Proof.Proofs.Manchester

/-- Settles O32: one iteration of the half-pulse loop in each of its four cases; the consumed half leaves the decoder in the
loop. -/
theorem manchesterEmits : Obligations.ManchesterEmits := by
  intro s hr hp
  rw [exec_dispatchDecodeManchester_emit hr hp]
  refine ⟨?guard, ?wait, ?saturated, ?half⟩
  case guard =>
    intro hb
    rw [manEmit_guard hb]
  case wait =>
    intro hb hw
    rw [manEmit_wait hb hw]
  case saturated =>
    intro hb hw hphase hsat
    rw [manEmit_saturated hb hw ⟨hphase, hsat⟩]
  case half =>
    intro hb hw hsat
    have hr' : (halfDone s).runningState = .decodingManchester := (halfDone_runningState s).trans hr
    have hp' : (halfDone s).decPhase = .emit := (halfDone_decPhase s).trans hp
    refine ⟨manEmit (halfDone s), congrArg _ (manEmit_half hb hw hsat), ?_⟩
    have hgoesOn := exec_dispatchDecodeManchester_emit hr' hp'
    simpa only [halfDone, halfConsumed, halfCounted, catchUp_syncDuration] using hgoesOn

/-- Settles O33: `CatchUp` by cases of the clocks, and the loop's invariant that they are at most one half-bit apart. -/
theorem manchesterClocksAgree : Obligations.ManchesterClocksAgree := by
  refine ⟨fun _ => catchUp_equal, fun _ => catchUp_odd, fun _ => catchUp_even, ?step⟩
  case step =>
    intro s t hr hclocks he hp
    rw [exec_dispatchDecodeManchester hr] at he
    cases he
    exact run_agrees hclocks hp

end Sys2Proof.Proofs
end

section
/-! PROOF. The raw dumper and the line emitter (48_raw_dump_and_line_emitter.md R245 to R254): one iteration of the dump loop,
bits and partial bytes, and the emitter's records stepped alone (log 6). -/

namespace Sys2Proof.Proofs.Emitter
open Sys2Proof Sys2Proof.Machine Sys2Proof.Proofs.ChecksumLine

variable {s : State}

/-! ## The dump loop (R245 to R247) -/

/-- The pulse at `dec_pi` printed, counted and stepped over (R246). -/
def pulseDumped (p1 p0 : Byte) (s : State) : State :=
  { s with
    uartTx := s.uartTx ++ hex2 p1 ++ hex2 p0, checksum := s.checksum + p1 + p0, bitCount := s.bitCount + 1
    decPi := s.decPi + 1 }

theorem decAdvance_rawPulse (p1 p0 : Byte) (s : State) : decAdvance (rawPulse p0 p1 s) = pulseDumped p1 p0 s := by
  rw [rawPulse_eq, decAdvance, inc8_eq, pulseDumped]

theorem decodePulses_wait (hp : s.decPhase = .emit) (hw : s.decPi = s.current) : decodePulses s = s := by
  rw [decodePulses_unfold (by simp [hp]), if_pos hw]

theorem decodePulses_saturated (hp : s.decPhase = .emit) (hw : s.decPi ≠ s.current)
    (hsat : ringRead s s.decPi false = 255) :
    decodePulses s = { s with msgStart := s.decPi + 1, decPhase := .idle, runningState := .decodeDone } := by
  rw [decodePulses_unfold (by simp [hp]), if_neg hw, if_pos hsat, finishRaw, decoderEnd, inc8_eq]

theorem decodePulses_pulse (hp : s.decPhase = .emit) (hw : s.decPi ≠ s.current)
    (hsat : ringRead s s.decPi false ≠ 255) :
    decodePulses s = decodePulses (pulseDumped (ringRead s s.decPi true) (ringRead s s.decPi false) s) := by
  rw [decodePulses_unfold (by simp [hp]), if_neg hw, if_neg hsat, decAdvance_rawPulse]

/-! ## The emitter's records, stepped alone (log 6) -/

theorem exec_outByte (v : Byte) (s : State) : exec (.outByte v) s = .next (emitByte v s) := rfl

theorem exec_outPulse (p1 p0 : Byte) (s : State) :
    exec (.outPulse p1 p0) s = .next (pulseDumped p1 p0 s) :=
  congrArg Host.Outcome.next (decAdvance_rawPulse p1 p0 s)

theorem exec_outTrailer (n d c : Byte) (s : State) : exec (.outTrailer n d c) s = .next (trailer s) := rfl

/-- The three fields of a trailer between their marks (R107). -/
theorem trailerString_eq (n d c : Byte) :
    trailerString n d c = [0x23] ++ hex2 n ++ [0x21] ++ hex2 d ++ [0x2A] ++ hex2 c ++ [0x0A] := by
  simp [trailerString, chHash, chBang, chStar, chNl]

end Sys2Proof.Proofs.Emitter

namespace Sys2Proof.Proofs
open Sys2Proof Sys2Proof.Machine Sys2Proof.Proofs.ChecksumLine Sys2Proof.Proofs.Emitter

/-- Settles O34: the header at entry, then one iteration of the dump loop in each of its three cases. -/
theorem rawDumps : Obligations.RawDumps := by
  intro s hr
  rw [exec_dispatchDecodePulses hr]
  refine ⟨?entry, ?wait, ?saturated, ?pulse⟩
  case entry =>
    intro hp
    exact ⟨decodePulses (commit .p s), congrArg _ (decodePulses_idle hp), exec_dispatchDecodePulses hr⟩
  case wait =>
    intro hp hw
    rw [decodePulses_wait hp hw]
  case saturated =>
    intro hp hw hsat
    rw [decodePulses_saturated hp hw hsat]
  case pulse =>
    intro hp hw hsat
    exact ⟨_, congrArg _ (decodePulses_pulse hp hw hsat), exec_dispatchDecodePulses hr⟩

/-- Settles O36: the laws of `StuffBit` and `FlushPartial`, with the bit's position as a power of two. -/
theorem bitsAndPartialBytes : Obligations.BitsAndPartialBytes := by
  refine ⟨?stuffed, fun _ => ⟨flushPartial_none, flushPartial_some⟩⟩
  case stuffed =>
    intro b s acc
    have hacc : placeBit s.byteAccumulator (s.bitCount.toNat % 8) b = acc := placeBit_eq _ _ _
    exact ⟨fun hinside => hacc ▸ stuffBit_inside b hinside, fun hfull => hacc ▸ stuffBit_full b hfull⟩

/-- Settles O39: a DISPATCH in `DecodeDone` is the trailer, whose string is the three fields between their marks. -/
theorem trailerIsEmitted : Obligations.TrailerIsEmitted := by
  intro s hr sum
  rw [exec_dispatchTrailer hr, trailer_eq, trailerString_eq]

/-- Settles O58: a record stepped alone is what the dump and the emitter do when they print it. -/
theorem outboundPayloadAndTrailer : Obligations.OutboundPayloadAndTrailer := by
  intro v p1 p0 n d c s sum
  refine ⟨?byte, exec_outPulse p1 p0 s, ?trailer⟩
  case byte => rw [exec_outByte, emitByte_eq]
  case trailer => rw [exec_outTrailer, trailer_eq, trailerString_eq]

end Sys2Proof.Proofs
end

section
/-! PROOF. A run of the command parser (49_command_parser.md R266 to R270, R292): entry, one queued byte, the wait and its timeout,
the transmit cycles; and an inbound operation as such a run on its own bytes (log 5). -/

namespace Sys2Proof.Proofs.ParserSteps
open Sys2Proof Sys2Proof.Machine Sys2Proof.Proofs.Scheduler

variable {s : State} {c : Byte} {rest : List Byte}

/-! ## The loop from its resume points (R267, R268) -/

theorem receiveCommand_entered (s : State) : receiveCommand s = receiveCommand (entered s) := by
  unfold receiveCommand
  rw [cpEnter_eq, cpEnter_eq, entered_of_ne (entered_phase s)]

theorem entered_runningState (s : State) : (entered s).runningState = s.runningState := by
  unfold entered
  split <;> rfl

theorem entered_uartRxQ (s : State) : (entered s).uartRxQ = s.uartRxQ := by
  unfold entered
  split <;> rfl

theorem entered_setQueue (s : State) (q : List Byte) :
    entered { s with uartRxQ := q } = { entered s with uartRxQ := q } := by
  unfold entered
  simp only
  split <;> rfl

/-- Entry leaves the parser reading. -/
theorem entered_reads (h : cpReading s = true) :
    (entered s).runningState = .receivingCommand ∧ (entered s).cpPhase ≠ .txStart ∧ waitsForByte (entered s) = true := by
  obtain ⟨hr, hstart, hwait⟩ := cpReading_iff.mp h
  have hr' : (entered s).runningState = .receivingCommand := (entered_runningState s).trans hr
  have hphases : (entered s).cpPhase ≠ .txStart ∧ (entered s).cpPhase ≠ .txWait := by
    unfold entered
    split
    · exact ⟨nofun, nofun⟩
    · exact ⟨hstart, hwait⟩
  exact ⟨hr', hphases.1, waitsForByte_iff.mpr ⟨hr', entered_phase s, hphases⟩⟩

theorem cpAfterRead_left (h : s.runningState ≠ .receivingCommand) : cpAfterRead s = s := if_neg h

theorem cpAfterRead_cycle (h : s.runningState = .receivingCommand) (hp : s.cpPhase = .txStart) :
    cpAfterRead s = cycleStarted s := by
  rw [cpAfterRead, if_pos h, if_pos hp, cpStartCycle_eq]

/-- The idle test (R270, R315). -/
theorem cpAfterRead_waits (h : s.runningState = .receivingCommand) (hp : s.cpPhase ≠ .txStart) :
    cpAfterRead s = if 1000 ≤ (s.tickcount - s.cpT0).toNat then afterExit s else s := by
  have htimed : timedOut s = true ↔ 1000 ≤ (s.tickcount - s.cpT0).toNat := decide_eq_true_iff
  rw [cpAfterRead, if_pos h, if_neg hp, raiseIdleTimeout, exitPath_eq]
  simp only [htimed]

/-- Right after a byte the parser has not timed out: a cycle starts if one is due, and else it yields. -/
theorem cpAfterRead_heard (hc : s.cpT0 = s.tickcount) :
    cpAfterRead s =
      if s.runningState = .receivingCommand ∧ s.cpPhase = .txStart then cycleStarted s else s := by
  by_cases hr : s.runningState = .receivingCommand
  · by_cases hp : s.cpPhase = .txStart
    · rw [cpAfterRead_cycle hr hp, if_pos ⟨hr, hp⟩]
    · rw [cpAfterRead_waits hr hp, if_neg (by simp [hc]), if_neg fun ⟨_, h⟩ => hp h]
  · rw [cpAfterRead_left hr, if_neg fun ⟨h, _⟩ => hr h]

theorem cpReadQueue_empty (h : s.uartRxQ = []) : cpReadQueue s = cpAfterRead s := by
  have hs : ({ s with uartRxQ := [] } : State) = s := by rw [← h]
  rw [cpReadQueue, h]
  exact congrArg cpAfterRead hs

/-! ## The transmit cycles (R292) -/

theorem receiveCommand_txStart (hp : s.cpPhase = .txStart) : receiveCommand s = cycleStarted s := by
  rw [receiveCommand, cpEnter_eq, entered_of_ne (by simp [hp]), cpRun]
  simp only [hp, cpStartCycle_eq]

theorem receiveCommand_txWait (hp : s.cpPhase = .txWait) :
    receiveCommand s = if s.mode = .idle then cpEndCycle s else s := by
  rw [receiveCommand, cpEnter_eq, entered_of_ne (by simp [hp]), cpRun]
  simp only [hp]

/-- The state in which the parser goes on with the line after the last cycle. -/
def cyclesDone (s : State) : State :=
  { s with
    cpRep := s.cpRep + 1
    ocieA := true, ocieB := false, antenna := false, mode := .receiving
    cpPhase := .token, cpT0 := s.tickcount }

theorem cpEndCycle_eq (s : State) :
    cpEndCycle s =
      if (s.cpRep + 1).toNat < 3 then cycleStarted { s with cpRep := s.cpRep + 1 } else cpReadQueue (cyclesDone s) :=
  rfl

/-! ## One queued byte (R267, R269, R301) -/

/-- What handling a byte leaves of the phase while the line goes on: never `Entry`, and no wait for the driver. -/
theorem handleByte_phase (hs : waitsForByte s = true) (hr : (cpHandleByte c s).runningState = .receivingCommand) :
    (cpHandleByte c s).cpPhase ≠ .entry ∧ (cpHandleByte c s).cpPhase ≠ .txWait := by
  obtain ⟨-, hentry, -, hwait⟩ := waitsForByte_iff.mp hs
  obtain ⟨-, -, hquiet⟩ := cpHandleByte_quiet c s
  refine ⟨?_, fun h => hwait (hquiet h)⟩
  rcases cpHandleByte_cases c hentry with ⟨-, -, -, hne⟩ | ⟨u, -, he⟩
  · exact hne
  · rw [he] at hr
    cases hr

/-- Inside a line and not in a cycle, a run of the parser is its reading loop: at `TxStart` the loop reads nothing and starts the
cycle. -/
theorem receiveCommand_reads (hr : s.runningState = .receivingCommand) (hentry : s.cpPhase ≠ .entry)
    (hwait : s.cpPhase ≠ .txWait) : receiveCommand s = cpReadQueue s := by
  by_cases hp : s.cpPhase = .txStart
  · rw [receiveCommand_txStart hp, cpReadQueue, cpRead_txStart hp]
    exact (cpAfterRead_cycle hr hp).symm
  · exact receiveCommand_waits (waitsForByte_iff.mpr ⟨hr, hentry, hp, hwait⟩)

/-- The state after the first queued byte was taken and handled. -/
def byteHandled (c : Byte) (rest : List Byte) (s : State) : State :=
  cpHandleByte c { s with uartRxQ := rest, cpT0 := s.tickcount }

theorem byteHandled_eq (c : Byte) (rest : List Byte) (s : State) :
    byteHandled c rest s = { cpHandleByte c (heard s) with uartRxQ := rest } :=
  cpHandleByte_ignoresQueue c rest (heard s)

theorem byteHandled_runningState (c : Byte) (rest : List Byte) (s : State) :
    (byteHandled c rest s).runningState = (cpHandleByte c (heard s)).runningState := by
  rw [byteHandled_eq]

/-- While the line goes on, the loop reads the rest of the queue. -/
theorem cpReadQueue_cons (hp : s.cpPhase ≠ .txStart) (hq : s.uartRxQ = c :: rest)
    (hr : (byteHandled c rest s).runningState = .receivingCommand) :
    cpReadQueue s = cpReadQueue (byteHandled c rest s) := by
  rw [byteHandled_runningState] at hr
  rw [byteHandled_eq, cpReadQueue, cpReadQueue, hq, cpRead_cons hp hr]
  simp only [cpRead_ignoresQueue]

/-- A byte that leaves the line is the step's last. -/
theorem cpReadQueue_last (hp : s.cpPhase ≠ .txStart) (hq : s.uartRxQ = c :: rest)
    (hr : (byteHandled c rest s).runningState ≠ .receivingCommand) : cpReadQueue s = byteHandled c rest s := by
  have hr' := byteHandled_runningState c rest s ▸ hr
  rw [cpReadQueue, hq, cpRead_last hp hr', ← byteHandled_eq]
  exact cpAfterRead_left hr

/-! ## An inbound operation as a run on its bytes (log 5) -/

theorem inboundBytes_ne_nil {i : Instr} {bytes : List Byte} (h : inboundBytes i = some bytes) : bytes ≠ [] := by
  cases i <;> cases h <;> exact List.cons_ne_nil _ _

/-- The state after reading `bytes` as the whole queue: what was left unread stays queued. -/
def queueRead (bytes : List Byte) (s : State) : State :=
  { (cpRead bytes s).2 with uartRxQ := (cpRead bytes s).1 }

/-- The first byte read restarts the clock. -/
theorem queueRead_clock {bytes : List Byte} (hb : bytes ≠ []) (hp : s.cpPhase ≠ .txStart) :
    (queueRead bytes s).cpT0 = (queueRead bytes s).tickcount := by
  obtain ⟨c, rest, rfl⟩ := List.exists_cons_of_ne_nil hb
  have hfirst : cpRead (c :: rest) s = cpRead (c :: rest) (heard s) := by
    have hp' : (heard s).cpPhase ≠ .txStart := hp
    unfold cpRead
    rw [if_neg hp, if_neg hp']
    rfl
  unfold queueRead
  rw [hfirst]
  exact cpRead_clock _ rfl

theorem receiveCommand_queued {bytes : List Byte} (h : cpReading s = true) :
    receiveCommand { s with uartRxQ := bytes } = cpAfterRead (queueRead bytes (entered s)) := by
  obtain ⟨-, -, hwaits⟩ := entered_reads h
  rw [receiveCommand_entered, entered_setQueue,
    receiveCommand_waits (s := { entered s with uartRxQ := bytes }) hwaits, cpReadQueue]
  simp only [cpRead_ignoresQueue, queueRead]

theorem parserReads_queueRead {bytes : List Byte} (h : cpReading s = true) (hq : s.uartRxQ = []) :
    parserReads bytes s =
      if (queueRead bytes (entered s)).runningState = .receivingCommand ∧
          (queueRead bytes (entered s)).cpPhase = .txStart then
        cycleStarted (queueRead bytes (entered s))
      else queueRead bytes (entered s) := by
  have hunread : (cpRead bytes (entered s)).2.uartRxQ = [] := by rw [cpRead_uartRxQ, entered_uartRxQ, hq]
  rw [parserReads_eq h, cpEnter_eq]
  simp only [hunread, List.append_nil, cpStartCycle_eq]
  rfl

/-- With an empty queue, the bytes read as an operation's are the bytes read from the queue: nothing else is queued behind them,
and no run that has read a byte times out. -/
theorem parserReads_eq_receiveCommand {bytes : List Byte} (h : cpReading s = true) (hq : s.uartRxQ = [])
    (hb : bytes ≠ []) : parserReads bytes s = receiveCommand { s with uartRxQ := bytes } := by
  obtain ⟨-, hp, -⟩ := entered_reads h
  rw [parserReads_queueRead h hq, receiveCommand_queued h, cpAfterRead_heard (queueRead_clock hb hp)]

end Sys2Proof.Proofs.ParserSteps

namespace Sys2Proof.Proofs
open Sys2Proof Sys2Proof.Machine Sys2Proof.Proofs.Scheduler Sys2Proof.Proofs.ParserSteps

/-- Settles O41: the reading loop takes the first byte and goes on, as the loop that the handled state's run is. -/
theorem parserReadsByteByByte : Obligations.ParserReadsByteByByte := by
  intro c rest s hs hq
  obtain ⟨hr, -, hp, -⟩ := waitsForByte_iff.mp hs
  rw [exec_dispatchReceiveCommand hr, receiveCommand_waits hs]
  refine ⟨cpReadQueue s, rfl, ?goesOn, fun hleft => cpReadQueue_last hp hq hleft⟩
  case goesOn =>
    intro hgoes
    have hs' : waitsForByte { s with uartRxQ := rest, cpT0 := s.tickcount } = true := hs
    obtain ⟨hentry, hwait⟩ := handleByte_phase hs' hgoes
    rw [exec_dispatchReceiveCommand hgoes, receiveCommand_reads hgoes hentry hwait]
    exact congrArg _ (cpReadQueue_cons hp hq hgoes).symm

/-- Settles O43: both read the same bytes with the same handler; what follows the reading agrees since the queue was empty and the
clock has just been restarted. -/
theorem inboundOperationIsItsBytes : Obligations.InboundOperationIsItsBytes := by
  intro i bytes s hi hr hstart hwait hq
  have hreads := parserReads_eq_receiveCommand (cpReading_iff.mpr ⟨hr, hstart, hwait⟩) hq (inboundBytes_ne_nil hi)
  exact ⟨parserReads bytes s, exec_inbound hi s, hreads ▸ exec_dispatchReceiveCommand hr⟩

/-- Settles O40: entry is done once, and with nothing queued only the idle test is left. -/
theorem parserEntersWaitsAndTimesOut : Obligations.ParserEntersWaitsAndTimesOut := by
  intro s hr
  rw [exec_dispatchReceiveCommand hr]
  refine ⟨?entry, ?wait⟩
  case entry =>
    intro _
    exact ⟨_, congrArg _ (receiveCommand_entered s),
      exec_dispatchReceiveCommand ((entered_runningState s).trans hr)⟩
  case wait =>
    intro hs hq
    obtain ⟨-, -, hp, -⟩ := waitsForByte_iff.mp hs
    rw [receiveCommand_waits hs, cpReadQueue_empty hq, cpAfterRead_waits hr hp]

/-- Settles O42: the parser's run in `TxStart`, and in `TxWait` by the mode and the count of cycles. -/
theorem transmitCycles : Obligations.TransmitCycles := by
  intro s hr
  rw [exec_dispatchReceiveCommand hr]
  refine ⟨?start, ?waits, ?next, ?done⟩
  case start =>
    intro hp
    rw [receiveCommand_txStart hp]
  case waits =>
    intro hp hmode
    rw [receiveCommand_txWait hp, if_neg hmode]
  case next =>
    intro hp hmode hmore
    rw [receiveCommand_txWait hp, if_pos hmode, cpEndCycle_eq, if_pos hmore]
  case done =>
    intro hp hmode hlast
    have hs' : waitsForByte (cyclesDone s) = true := waitsForByte_iff.mpr ⟨hr, nofun, nofun, nofun⟩
    refine ⟨receiveCommand (cyclesDone s), congrArg _ ?_, exec_dispatchReceiveCommand hr⟩
    rw [receiveCommand_txWait hp, if_pos hmode, cpEndCycle_eq, if_neg hlast, receiveCommand_waits hs']

end Sys2Proof.Proofs
end

section
/-! PROOF. Headers and payloads (49_command_parser.md R277, R280 to R285): what each header seeds, and what one more pair of digits
adds to a payload of each type. -/

namespace Sys2Proof.Proofs.Payload
open Sys2Proof Sys2Proof.Machine

variable {s u : State} {pairs : List DigitPair} {h l : Byte} {x y : BitVec 4}

/-! ## Headers (R277) -/

/-- The two bytes of a header, from the start of a line. -/
theorem cpRead_header (c : Byte) (hr : u.runningState = .receivingCommand) (hp : u.cpPhase = .start) :
    cpRead [chM, c] u = ([], cpMTypeByte c { heard u with cpPhase := .mType }) := by
  have hM : cpHandleByte chM (heard u) = { heard u with cpPhase := .mType } := handle_start hp chM
  rw [cpRead_cons (by simp [hp]) (by rw [hM]; exact hr), hM]
  exact cpRead_one (s := { heard u with cpPhase := .mType }) nofun

theorem parserReads_header {c : Byte} (hs : AtLineStart s)
    (hp : (cpMTypeByte c { heard (entered s) with cpPhase := .mType }).cpPhase ≠ .txStart) :
    parserReads [chM, c] s = cpMTypeByte c { heard (entered s) with cpPhase := .mType } := by
  obtain ⟨hreads, hstart, hr⟩ := hs.reading
  exact parserReads_all hreads (cpRead_header c hr hstart) hp

/-! ## A payload, pair by pair (R280 to R282) -/

/-- The state in which a payload's first pair may begin. -/
def payloadOpened (s : State) : State := { heard s with cpPhase := .payHi }

theorem payloadOpened_atPair (hs : AtToken s) : AtPair (payloadOpened s) := ⟨hs.1, rfl⟩

/-- A payload row is read whole, and leaves the state its last pair left. -/
theorem parserReads_payload (hs : AtToken s) (hread : cpRead (pairBytes pairs) (payloadOpened s) = ([], u))
    (hu : AtPair u) : parserReads (chColon :: pairBytes pairs) s = u := by
  obtain ⟨hreads, henter⟩ := hs.reading
  refine parserReads_all hreads ?_ (by simp [hu.2])
  rw [henter, cpRead_colon hs]
  exact hread

theorem exec_payloadA (pairs : List DigitPair) (s : State) :
    exec (.payloadA pairs) s = .next (parserReads (chColon :: pairBytes pairs) s) := rfl

theorem exec_payloadM (pairs : List DigitPair) (s : State) :
    exec (.payloadM pairs) s = .next (parserReads (chColon :: pairBytes pairs) s) := rfl

theorem exec_payloadP (pairs : List DigitPair) (s : State) :
    exec (.payloadP pairs) s = .next (parserReads (chColon :: pairBytes pairs) s) := rfl

/-- The state in which the first digit of a pair is held (R280). -/
def pairHalf (x : BitVec 4) (u : State) : State := { u with cpHold := x, cpPhase := .payLo }

/-- The state after one more pair of value `16 x + y`. -/
def pairRead (x y : BitVec 4) (u : State) : State :=
  { cpPayloadByte (joinNibbles x y) (pairHalf x u) with cpPhase := .payHi }

theorem pairRead_runningState (x y : BitVec 4) (u : State) : (pairRead x y u).runningState = u.runningState := by
  obtain ⟨_, _, _, _, he, -⟩ := cpPayloadByte_frame (joinNibbles x y) (pairHalf x u)
  rw [pairRead, he]
  rfl

/-- A payload and the same payload with one more pair: the longer one goes on from where the shorter one ends. -/
theorem parserReads_snoc (hs : AtToken s) (hp : pairsAreHex pairs = true) (hx : hexval h = some x)
    (hy : hexval l = some y) :
    ∃ u, PairsKept (payloadOpened s) u ∧ parserReads (chColon :: pairBytes pairs) s = u ∧
      parserReads (chColon :: pairBytes (pairs ++ [(h, l)])) s = pairRead x y u := by
  obtain ⟨u, hread, hkept⟩ := cpRead_pairs (payloadOpened_atPair hs) rfl hp
  refine ⟨u, hkept, parserReads_payload hs hread hkept.pair, parserReads_payload hs ?_ ⟨?_, rfl⟩⟩
  · rw [pairBytes_append, cpRead_append hread hkept.pair.1]
    refine (cpRead_pair hkept.pair hx hy).trans ?_
    rw [heard_same hkept.clock]
    rfl
  · exact (pairRead_runningState x y u).trans hkept.pair.1

/-! ## Type `M` (R284) -/

theorem pairRead_m (x y : BitVec 4) (ht : u.cpType = .m) :
    pairRead x y u = { u with checksum := u.checksum + joinNibbles x y, cpHold := x, cpPhase := .payHi } := by
  rw [pairRead, cpPayloadByte_m _ (s := pairHalf x u) ht, foldChecksum_eq]
  rfl

/-- A type-`M` payload moves the checksum and the digit held, nothing else. -/
theorem cpRead_pairs_m (hu : AtPair u) (hc : u.cpT0 = u.tickcount) (ht : u.cpType = .m)
    (hp : pairsAreHex pairs = true) :
    ∃ sum hold, cpRead (pairBytes pairs) u = ([], { u with checksum := sum, cpHold := hold }) := by
  induction pairs generalizing u with
  | nil => exact ⟨u.checksum, u.cpHold, rfl⟩
  | cons p rest ih =>
    obtain ⟨h, l⟩ := p
    obtain ⟨⟨x, hx⟩, ⟨y, hy⟩, hrest⟩ := pairsAreHex_cons.mp hp
    have hpair : cpRead [h, l] u = ([], { u with checksum := u.checksum + joinNibbles x y, cpHold := x }) := by
      refine (cpRead_pair hu hx hy).trans ?_
      rw [heard_same hc]
      exact congrArg (Prod.mk []) ((pairRead_m x y ht).trans (by rw [← hu.2]))
    obtain ⟨sum, hold, hread⟩ :=
      ih (u := { u with checksum := u.checksum + joinNibbles x y, cpHold := x }) hu hc ht hrest
    refine ⟨sum, hold, ?_⟩
    rw [show pairBytes ((h, l) :: rest) = [h, l] ++ pairBytes rest from rfl, cpRead_append hpair hu.1, hread]

/-! ## Types `A` and `P` (R283, R285) -/

theorem pairRead_a (x y : BitVec 4) (ht : u.cpType = .a) :
    pairRead x y u =
      { cpStoreBits (joinNibbles x y) 8
          { u with checksum := u.checksum + joinNibbles x y, cpHold := x, cpPhase := .payLo } with
        cpPhase := .payHi } := by
  rw [pairRead, cpPayloadByte_a _ (s := pairHalf x u) ht, foldChecksum_eq]
  rfl

/-- With no byte held, the byte is held (R285). -/
theorem pairRead_p_none (x y : BitVec 4) (ht : u.cpType = .p) (hnone : u.cpPhold = none) :
    pairRead x y u =
      { u with
        checksum := u.checksum + joinNibbles x y, cpPhold := some (joinNibbles x y), cpHold := x
        cpPhase := .payHi } := by
  rw [pairRead, cpPayloadByte_p _ (s := pairHalf x u) ht, foldChecksum_eq, cpRawByte]
  simp only [pairHalf, hnone]

/-- The held byte is the high count, and the pulse is complete (R285). -/
theorem pairRead_p_some (x y : BitVec 4) {p1 : Byte} (ht : u.cpType = .p) (hsome : u.cpPhold = some p1) :
    pairRead x y u =
      { u with
        ring := (ringWriteSlot u u.cpWr (joinNibbles x y) p1).ring
        checksum := u.checksum + joinNibbles x y, cpPhold := none, cpWr := u.cpWr + 1, cpHold := x
        cpPhase := .payHi } := by
  rw [pairRead, cpPayloadByte_p _ (s := pairHalf x u) ht, foldChecksum_eq, cpRawByte]
  simp only [pairHalf, hsome]
  rw [cpStore, inc8_eq]
  rfl

end Sys2Proof.Proofs.Payload

namespace Sys2Proof.Proofs
open Sys2Proof Sys2Proof.Machine Sys2Proof.Proofs.Payload

/-- Settles O47: the last pair stores the eight bits of its byte from where the shorter payload stopped. -/
theorem payloadAStoresEightPulses : Obligations.PayloadAStoresEightPulses := by
  intro pairs h l x y s hs ht hw hp hx hy v
  obtain ⟨u, hkept, hshort, hlong⟩ := parserReads_snoc hs hp hx hy
  have htype : u.cpType = .a := hkept.type.trans ht
  have hduration : u.syncDuration = s.syncDuration := hkept.duration
  obtain ⟨m, hstore, hwf, hread⟩ := cpStoreBits_spec v 8 le_rfl
    { u with checksum := u.checksum + v, cpHold := x, cpPhase := .payLo } (hkept.wf hw)
  refine ⟨u, m, congrArg _ hshort, ?_, hduration, htype, hkept.pair.2, hwf, ?_⟩
  · rw [exec_payloadA, hlong, pairRead_a x y htype, show joinNibbles x y = v from rfl, hstore]
    rfl
  · rw [← hduration]
    exact hread

/-- Settles O48: the shorter payload moved the checksum and the digit held, and so does its last pair. -/
theorem payloadMOnlyFolds : Obligations.PayloadMOnlyFolds := by
  intro pairs h l x y s hs ht hp hx hy
  obtain ⟨u, hkept, hshort, hlong⟩ := parserReads_snoc hs hp hx hy
  obtain ⟨sum, hold, hread⟩ := cpRead_pairs_m (payloadOpened_atPair hs) rfl ht hp
  have hu : u = { payloadOpened s with checksum := sum, cpHold := hold } :=
    hshort.symm.trans (parserReads_payload hs hread (payloadOpened_atPair hs))
  refine ⟨sum, hold, congrArg _ (hshort.trans hu), ?_⟩
  rw [exec_payloadM, hlong, pairRead_m x y (hkept.type.trans ht), hu]
  rfl

/-- Settles O49: the last pair's byte is held, or completes the pulse that the shorter payload left held. -/
theorem payloadPStoresPulsePairs : Obligations.PayloadPStoresPulsePairs := by
  intro pairs h l x y s hs ht hw hp hx hy v
  obtain ⟨u, hkept, hshort, hlong⟩ := parserReads_snoc hs hp hx hy
  have htype : u.cpType = .p := hkept.type.trans ht
  have hwf : Memory.wf u.ring = true := hkept.wf hw
  refine ⟨u, congrArg _ hshort, htype, hkept.pair.2, ?held, ?complete⟩
  case held =>
    exact fun hnone => (exec_payloadP _ s).trans (congrArg _ (hlong.trans (pairRead_p_none x y htype hnone)))
  case complete =>
    intro p1 hsome
    exact ⟨_, (exec_payloadP _ s).trans (congrArg _ (hlong.trans (pairRead_p_some x y htype hsome))),
      ringWriteSlot_wf hwf u.cpWr v p1, fun j c => ringRead_ringWriteSlot hwf u.cpWr j c v p1⟩

/-- Settles O45: each letter is a case of the byte handler in `MType`. -/
theorem headersSeedTheLine : Obligations.HeadersSeedTheLine := fun _ hs =>
  ⟨congrArg _ (parserReads_header (c := chA) hs nofun), congrArg _ (parserReads_header (c := chM) hs nofun),
    congrArg _ (parserReads_header (c := chP) hs nofun)⟩

/-- Settles O46: the colon opens the payload and no pair follows. -/
theorem emptyPayloadOnlyOpens : Obligations.EmptyPayloadOnlyOpens := by
  intro i s hs hi
  have hopens : parserReads [chColon] s = payloadOpened s :=
    parserReads_payload (pairs := []) hs rfl (payloadOpened_atPair hs)
  simp only [List.mem_cons, List.not_mem_nil, or_false] at hi
  rcases hi with rfl | rfl | rfl <;> exact congrArg _ hopens

end Sys2Proof.Proofs
end

section
/-! PROOF. Argument tokens, the end of a line, keywords and unexpected bytes (49_command_parser.md R278, R279, R286 to R301, 60
R313): the parser's reading of each token, and the responses as records stepped alone (log 6). -/

namespace Sys2Proof.Proofs.Tokens
open Sys2Proof Sys2Proof.Machine Sys2Proof.Proofs.ParserSteps

variable {s u : State} {h l c : Byte} {x y : BitVec 4} {k : ArgToken}

/-! ## Argument tokens (R279) -/

/-- The operation of an argument token and its two characters (R112). -/
def argInstr (h l : Byte) : ArgToken → Instr
  | .bang => .syncdur h l
  | .hash => .bitcount h l
  | .star => .check h l

theorem exec_argInstr (k : ArgToken) (h l : Byte) (s : State) :
    exec (argInstr h l k) s = .next (parserReads [introducer k, h, l] s) := by
  cases k <;> rfl

/-- The parser after the introducing byte. -/
def argOpened (k : ArgToken) (s : State) : State := { heard s with cpK := k, cpPhase := .argHi }

/-- The parser after the first digit. -/
def argHalf (k : ArgToken) (x : BitVec 4) (s : State) : State :=
  { heard s with cpK := k, cpHold := x, cpPhase := .argLo }

theorem handle_argOpened_digit (k : ArgToken) (s : State) (hx : hexval h = some x) :
    cpHandleByte h (heard (argOpened k s)) = argHalf k x s := by
  unfold cpHandleByte heard
  simp only [argOpened, hx]
  rfl

theorem handle_argOpened_other (k : ArgToken) (s : State) (hn : hexval h = none) :
    cpHandleByte h (heard (argOpened k s)) = afterUnexpected h (argOpened k s) := by
  unfold cpHandleByte heard
  simp only [argOpened, hn]
  rfl

theorem handle_argHalf_other (k : ArgToken) (x : BitVec 4) (s : State) (hn : hexval l = none) :
    cpHandleByte l (heard (argHalf k x s)) = afterUnexpected l (argHalf k x s) := by
  unfold cpHandleByte heard
  simp only [argHalf, hn]
  rfl

/-- An argument token's effect, when the line goes on without a transmit. -/
theorem parserReads_arg (hs : AtToken s) (hx : hexval h = some x) (hy : hexval l = some y)
    (hp : (cpArg (joinNibbles x y) (argHalf k x s)).cpPhase ≠ .txStart) :
    parserReads [introducer k, h, l] s = cpArg (joinNibbles x y) (argHalf k x s) := by
  obtain ⟨hreads, henter⟩ := hs.reading
  exact parserReads_all hreads (henter.symm ▸ cpRead_arg k hs hx hy) hp

/-- An argument token that triggers a transmit: the first cycle starts in the same run (R267, R292). -/
theorem parserReads_arg_txStart (hs : AtToken s) (hx : hexval h = some x) (hy : hexval l = some y)
    (hp : (cpArg (joinNibbles x y) (argHalf k x s)).cpPhase = .txStart) :
    parserReads [introducer k, h, l] s = cycleStarted (cpArg (joinNibbles x y) (argHalf k x s)) := by
  obtain ⟨hreads, henter⟩ := hs.reading
  have hr : (cpArg (joinNibbles x y) (argHalf k x s)).runningState = .receivingCommand :=
    (cpArg_inLine _ _).runningState.trans hs.1
  rw [parserReads_eq hreads, henter, cpRead_arg k hs hx hy]
  exact if_pos ⟨hr, hp⟩

/-! ## The transmit trigger (R290, R291) -/

/-- The sentinel and the cursors of the range to transmit. -/
def triggered (s : State) : State :=
  { s with
    ring := (ringWriteSlot s s.bitCount 255 0).ring, msgEnd := s.bitCount + 1, msgStart := 0 }

theorem cpTrigger_eq (s : State) :
    cpTrigger s =
      if (s.bitCount + 1).toNat ≤ 16 then { triggered s with cpPhase := .token }
      else { triggered s with cpRep := 0, cpPhase := .txStart } := by
  unfold cpTrigger
  rw [inc8_eq]
  rfl

theorem cpArg_star_wrong {v : Byte} (hk : s.cpK = .star) (hv : v ≠ s.checksum) :
    cpArg v s = raiseChecksumMismatch s := by
  unfold cpArg
  simp only [hk]
  exact if_neg hv

theorem cpArg_star_right {v : Byte} (hk : s.cpK = .star) (hv : v = s.checksum) : cpArg v s = cpTrigger s := by
  unfold cpArg
  simp only [hk]
  exact if_pos hv

/-! ## Bytes that the phase does not accept (R297, R298, R313) -/

theorem afterUnexpected_phase (c : Byte) (s : State) : (afterUnexpected c s).cpPhase ≠ .txStart := by
  unfold afterUnexpected
  split <;> exact nofun

theorem cpStartByte_other (hc : c ∉ [0x4D, 0x50, 0x44, 0x53]) : cpStartByte c s = afterUnexpected c s := by
  simp only [List.mem_cons, List.not_mem_nil, or_false, not_or] at hc
  obtain ⟨hM, hP, hD, hS⟩ := hc
  exact (if_neg hM).trans ((if_neg hP).trans ((if_neg hD).trans (if_neg hS)))

theorem cpMTypeByte_other (hc : c ∉ [0x41, 0x4D, 0x50]) : cpMTypeByte c s = afterUnexpected c s := by
  simp only [List.mem_cons, List.not_mem_nil, or_false, not_or] at hc
  obtain ⟨hA, hM, hP⟩ := hc
  exact (if_neg hA).trans ((if_neg hM).trans (if_neg hP))

theorem cpTokenByte_other (hc : c ∉ [0x3A, 0x21, 0x23, 0x2A, 0x0A]) : cpTokenByte c s = afterUnexpected c s := by
  simp only [List.mem_cons, List.not_mem_nil, or_false, not_or] at hc
  obtain ⟨hcolon, hbang, hhash, hstar, hnl⟩ := hc
  exact (if_neg hcolon).trans ((if_neg hbang).trans ((if_neg hhash).trans ((if_neg hstar).trans (if_neg hnl))))

/-- The byte handler on a byte of R313's list, phase by phase; at `Entry` the parser has entered before the byte. -/
theorem handle_unexpected (hc : raisesUnexpected s c = true) :
    cpHandleByte c (heard (entered s)) = afterUnexpected c (heard (entered s)) := by
  unfold raisesUnexpected at hc
  by_cases hentry : s.cpPhase = .entry
  · have hstart : (entered s).cpPhase = .start := by simp [entered, hentry]
    simp only [hentry, decide_eq_true_eq] at hc
    rw [handle_start hstart, cpStartByte_other hc]
  · rw [entered_of_ne hentry]
    unfold cpHandleByte
    cases hp : s.cpPhase with
    | entry => contradiction
    | start =>
      simp only [hp, decide_eq_true_eq] at hc
      simp only [heard, hp, cpStartByte_other hc]
    | mType =>
      simp only [hp, decide_eq_true_eq] at hc
      simp only [heard, hp, cpMTypeByte_other hc]
    | token =>
      simp only [hp, decide_eq_true_eq] at hc
      simp only [heard, hp, cpTokenByte_other hc]
    | payHi =>
      simp only [hp, decide_eq_true_eq] at hc
      simp only [heard, hp, hc.1, cpTokenByte_other hc.2]
    | payLo | argHi | argLo =>
      simp only [hp, decide_eq_true_eq] at hc
      simp only [heard, hp, hc, raiseUnexpectedByte_eq]
    | kw =>
      simp only [hp, decide_eq_true_eq] at hc
      simp only [heard, hp, cpKwByte, if_neg hc, raiseUnexpectedByte_eq]
    | flush | txStart | txWait =>
      simp only [hp] at hc
      cases hc

theorem handle_flush (hp : s.cpPhase = .flush) :
    cpHandleByte c (heard s) = if c = 0x0A then afterExit (heard s) else heard s := by
  unfold cpHandleByte heard
  simp only [hp]
  rfl

theorem reading_of_raisesUnexpected (hr : s.runningState = .receivingCommand) (hc : raisesUnexpected s c = true) :
    cpReading s = true := by
  refine cpReading_iff.mpr ⟨hr, fun hp => ?_, fun hp => ?_⟩ <;>
  · simp only [raisesUnexpected, hp] at hc
    cases hc

/-- An operation of one byte is the handling of that byte. -/
theorem parserReads_one (h : cpReading s = true) (hp : (cpHandleByte c (heard (entered s))).cpPhase ≠ .txStart) :
    parserReads [c] s = cpHandleByte c (heard (entered s)) := by
  obtain ⟨-, hstart, -⟩ := entered_reads h
  exact parserReads_all h (cpRead_one hstart) hp

/-! ## Arguments with a character that is no digit (R279, R297, R298) -/

theorem parserReads_badLow (k : ArgToken) (hs : AtToken s) (hx : hexval h = some x) (hn : hexval l = none) :
    parserReads [introducer k, h, l] s = afterUnexpected l (argHalf k x s) := by
  obtain ⟨hreads, henter⟩ := hs.reading
  have hr : (argHalf k x s).runningState = .receivingCommand := hs.1
  have hhigh := handle_argOpened_digit k s hx
  refine parserReads_all hreads ?_ (afterUnexpected_phase l _)
  rw [henter, cpRead_introducer k _ hs, ← argOpened, cpRead_cons (by simp [argOpened]) (hhigh ▸ hr), hhigh,
    cpRead_one (by simp [argHalf]), handle_argHalf_other k x s hn]

/-- A first character that is no digit and not the newline: the second one meets the flush. -/
theorem parserReads_badHigh (k : ArgToken) (hs : AtToken s) (hn : hexval h = none) (hnl : h ≠ 0x0A) :
    parserReads [introducer k, h, l] s =
      if l = 0x0A then afterExit (afterUnexpected h (argOpened k s)) else afterUnexpected h (argOpened k s) := by
  obtain ⟨hreads, henter⟩ := hs.reading
  have hflush : afterUnexpected h (argOpened k s) =
      { argOpened k s with uartTx := s.uartTx ++ [0x21, h, 0x0A], cpPhase := .flush } := if_neg hnl
  have hr : (afterUnexpected h (argOpened k s)).runningState = .receivingCommand := by
    rw [hflush]
    exact hs.1
  have hp : (afterUnexpected h (argOpened k s)).cpPhase = .flush := by rw [hflush]
  have hheard : heard (afterUnexpected h (argOpened k s)) = afterUnexpected h (argOpened k s) :=
    heard_same (by rw [hflush]; rfl)
  have hhigh := handle_argOpened_other k s hn
  refine parserReads_all hreads ?_ ?_
  · rw [henter, cpRead_introducer k _ hs, ← argOpened, cpRead_cons (by simp [argOpened]) (hhigh ▸ hr), hhigh,
      cpRead_one (by simp [hp]), handle_flush hp, hheard]
  · split
    · exact nofun
    · simp [hp]

/-- The newline as the first character ends the line, and the second one is not read. -/
theorem parserReads_nlHigh (k : ArgToken) (l : Byte) (hs : AtToken s) :
    parserReads [introducer k, 0x0A, l] s =
      afterUnexpected 0x0A { argOpened k s with uartRxQ := l :: s.uartRxQ } := by
  obtain ⟨hreads, henter⟩ := hs.reading
  have hhigh := handle_argOpened_other (h := 0x0A) k s rfl
  have hleft : (afterUnexpected 0x0A (argOpened k s)).runningState ≠ .receivingCommand := nofun
  refine (parserReads_left (rest := [l]) hreads ?_ hleft).trans rfl
  rw [henter, cpRead_introducer k _ hs, ← argOpened, cpRead_last (by simp [argOpened]) (hhigh ▸ hleft), hhigh]

/-! ## Keywords (R293) -/

theorem keywordBytes_drop (k : Keyword) {n : Nat} (hn : n ≤ 5) :
    ∃ b, (keywordBytes k).drop n = b :: (keywordBytes k).drop (n + 1) ∧
      (keywordBytes k)[(BitVec.ofNat 3 n).toNat]? = some b := by
  have hlen : n < (keywordBytes k).length := Nat.lt_of_le_of_lt hn (by cases k <;> decide)
  have hidx : (BitVec.ofNat 3 n).toNat = n := by
    rw [BitVec.toNat_ofNat]
    omega
  exact ⟨(keywordBytes k)[n], List.drop_eq_getElem_cons hlen, by rw [hidx, List.getElem?_eq_getElem hlen]⟩

/-- The last `m + 1` bytes of a keyword, read after the first `n`. -/
theorem cpRead_keyword_rest (k : Keyword) (hu : u.runningState = .receivingCommand) (m : Nat) {n : Nat}
    (hn : n + m = 5) :
    cpRead ((keywordBytes k).drop n) (kwAt k (BitVec.ofNat 3 n) u) = ([], cpKeyword k (kwAt k 6 u)) := by
  induction m generalizing n with
  | zero =>
    obtain rfl : n = 5 := hn
    obtain ⟨b, hdrop, hget⟩ := keywordBytes_drop k (n := 5) le_rfl
    have hend : (keywordBytes k).drop 6 = [] := by cases k <;> rfl
    rw [hdrop, hend, cpRead_one (by simp [kwAt]), handle_kw k _ u b hget]
    rfl
  | succ m ih =>
    obtain ⟨b, hdrop, hget⟩ := keywordBytes_drop k (n := n) (by omega)
    have hmore : BitVec.ofNat 3 n + 1 ≠ 6 := by bv_omega
    have hnext : BitVec.ofNat 3 n + 1 = BitVec.ofNat 3 (n + 1) := (BitVec.ofNat_add n 1).symm
    rw [hdrop, cpRead_kw k _ u hu b _ hget hmore, hnext]
    exact ih (by omega)

theorem cpRead_keyword (k : Keyword) (hu : u.runningState = .receivingCommand) (hp : u.cpPhase = .start) :
    cpRead (keywordBytes k) u = ([], cpKeyword k (kwAt k 6 u)) := by
  obtain ⟨b, hbytes, hfirst⟩ : ∃ b, keywordBytes k = b :: (keywordBytes k).drop 1 ∧
      cpStartByte b (heard u) = kwAt k 1 u := by
    cases k <;> exact ⟨_, rfl, rfl⟩
  have hhandle : cpHandleByte b (heard u) = kwAt k 1 u := (handle_start hp b).trans hfirst
  rw [hbytes, cpRead_cons (by simp [hp]) (by rw [hhandle]; exact hu), hhandle]
  exact cpRead_keyword_rest k hu 4 rfl

/-- A keyword line, from the start of a line (R293 to R296). -/
theorem parserReads_keyword (k : Keyword) (hs : AtLineStart s) :
    parserReads (keywordBytes k) s = cpKeyword k (kwAt k 6 (entered s)) := by
  obtain ⟨hreads, hstart, hr⟩ := hs.reading
  refine parserReads_all hreads (cpRead_keyword k hr hstart) ?_
  cases k <;> exact nofun

end Sys2Proof.Proofs.Tokens

namespace Sys2Proof.Proofs
open Sys2Proof Sys2Proof.Machine Sys2Proof.Proofs.Tokens

/-- Settles O51: the argument is compared with the checksum; a trigger writes the sentinel, and its range decides between the next
token and the first cycle. -/
theorem checkTokenTriggers : Obligations.CheckTokenTriggers := by
  intro h l x y s hs hw hx hy v u
  have hexec : exec (.check h l) s = .next (parserReads [introducer .star, h, l] s) := exec_argInstr .star h l s
  rw [hexec]
  refine ⟨?wrong, ?right⟩
  case wrong =>
    intro hv
    have harg : cpArg v (argHalf .star x s) = raiseChecksumMismatch (argHalf .star x s) := cpArg_star_wrong rfl hv
    rw [parserReads_arg hs hx hy (harg ▸ nofun)]
    exact congrArg _ harg
  case right =>
    intro hv
    have harg : cpArg v (argHalf .star x s) = cpTrigger (argHalf .star x s) := cpArg_star_right rfl hv
    rw [cpTrigger_eq] at harg
    refine ⟨(triggered (argHalf .star x s)).ring, congrArg _ ?_, ringWriteSlot_wf hw s.bitCount 255 0,
      fun j c => ringRead_ringWriteSlot hw s.bitCount j c 255 0⟩
    by_cases hshort : (s.bitCount + 1).toNat ≤ 16
    · have hskip := harg.trans (if_pos hshort)
      rw [parserReads_arg hs hx hy (hskip ▸ nofun), if_pos hshort]
      exact hskip
    · have hcycle := harg.trans (if_neg hshort)
      rw [parserReads_arg_txStart hs hx hy (hcycle ▸ rfl), if_neg hshort]
      exact (congrArg cycleStarted hcycle).trans rfl

/-- Settles O52: the introducing byte, then what each phase of an argument does with a character that is no digit. -/
theorem badArgumentDigits : Obligations.BadArgumentDigits := by
  intro k h l s hs i u
  have hexec : exec i s = .next (parserReads [introducer k, h, l] s) := exec_argInstr k h l s
  rw [hexec]
  refine ⟨fun x hx hn => congrArg _ (parserReads_badLow k hs hx hn),
    fun hn hnl => congrArg _ (parserReads_badHigh k hs hn hnl), ?newline⟩
  case newline =>
    rintro rfl
    exact congrArg _ (parserReads_nlHigh k l hs)

/-- Settles O50: an argument of two digits, handed to the token that the introducing byte opened. -/
theorem durationAndCountTokens : Obligations.DurationAndCountTokens := by
  intro h l x y s hs hx hy v
  have hbang : exec (.syncdur h l) s = .next (cpSyncDur v (argHalf .bang x s)) :=
    congrArg _ (parserReads_arg (k := .bang) hs hx hy nofun)
  have hhash : exec (.bitcount h l) s = .next (cpBitCount v (argHalf .hash x s)) :=
    congrArg _ (parserReads_arg (k := .hash) hs hx hy nofun)
  rw [hbang, hhash, cpSyncDur, cpBitCount, foldChecksum_eq, foldChecksum_eq]
  exact ⟨rfl, rfl⟩

/-- Settles O53: the newline is a token's byte and takes the exit path after `*OK`, as the record does. -/
theorem endOfLineAnswersOk : Obligations.EndOfLineAnswersOk := by
  refine ⟨?line, fun _ => rfl⟩
  case line =>
    intro s hs
    obtain ⟨hreads, henter⟩ := hs.reading
    have hnewline : cpHandleByte chNl (heard (entered s)) = afterOk (heard s) := by
      rw [← cpEnter_eq, henter, hs.handle rfl]
      rfl
    exact congrArg _ ((parserReads_one hreads (hnewline ▸ nofun)).trans hnewline)

/-- Settles O54: a keyword is read whole, and each sets its flag and ends the line. -/
theorem keywordsSetTheirFlag : Obligations.KeywordsSetTheirFlag := fun _ hs =>
  ⟨congrArg _ (parserReads_keyword .pulse hs), congrArg _ (parserReads_keyword .demod hs),
    congrArg _ (parserReads_keyword .stack hs)⟩

/-- Settles O55: the handler's branch for a byte that its phase does not accept, and its branch in `Flush`. -/
theorem unexpectedByteIsFlushed : Obligations.UnexpectedByteIsFlushed := by
  intro c s hr
  refine ⟨?raises, ?flushes⟩
  case raises =>
    intro hc
    have hhandle := handle_unexpected hc
    have hphase := hhandle.symm ▸ afterUnexpected_phase c (heard (entered s))
    exact congrArg _ ((parserReads_one (reading_of_raisesUnexpected hr hc) hphase).trans hhandle)
  case flushes =>
    intro hp
    have hreads : cpReading s = true := cpReading_iff.mpr ⟨hr, by simp [hp], by simp [hp]⟩
    have hhandle : cpHandleByte c (heard (entered s)) = if c = 0x0A then afterExit (heard s) else heard s := by
      rw [entered_of_ne (by simp [hp]), handle_flush hp]
    refine congrArg _ ((parserReads_one hreads ?_).trans hhandle)
    rw [hhandle]
    split
    · exact nofun
    · simp [heard, hp]

/-- Settles O59: the two error responses are the responses that the parser gives. -/
theorem outboundErrors : Obligations.OutboundErrors :=
  fun c s => ⟨congrArg Host.Outcome.next (raiseUnexpectedByte_eq c s), rfl⟩

end Sys2Proof.Proofs
end

section
/-! PROOF. RESET (70_reset_and_hazards.md R350, R352). -/

namespace Sys2Proof.Proofs
open Sys2Proof Sys2Proof.Machine

theorem exec_reset (s : State) : exec .reset s = .next { State.reset with script := s.script, freeIx := s.freeIx } := rfl

/-- Settles O12: `State.reset` names every element at its reset value after boot, and RESET keeps the model's own two fields. -/
theorem resetSetsEveryElement : Obligations.ResetSetsEveryElement := fun s => (exec_reset s).trans rfl

end Sys2Proof.Proofs
end
